-- ==== Sys2Proof/Word.lean ====
section
/-!
DEFINITION. The word types of the 80386: bytes of memory, 16-bit selectors and halves, 32-bit
registers and addresses (spec/00_scope.md rules R5 to R8).
-/

namespace Sys2Proof

/-- One byte of memory or of an instruction; every address space is byte addressed (R100). -/
abbrev Byte := BitVec 8

/-- A 16-bit value: a selector, a table limit, the machine status word (R5). -/
abbrev Half := BitVec 16

/-- A 32-bit value: a general, control, debug or test register, a linear or physical address (R5).
Sums of addresses wrap modulo 2^32 (R8), which is what `+` does on it. -/
abbrev Word := BitVec 32

end Sys2Proof
end

