-- ==== Sys2Proof/Config.lean ====
section
/-!
DEFINITION. What the specification leaves to an implementation or leaves open: the exception numbers
that are open parameters, and the one source of free values (spec/00_scope.md rules R5 and R14,
spec/10_state.md rule R90). None of these has a body, so no proof can learn a value.
-/

namespace Sys2Proof.Config

/-- `draw` of R14: the n-th value that the rules do not determine. State holds the counter `draws`, so
that no two draws of a run are assumed to agree. Assumption log entry 1. -/
opaque free : Nat → Word

/-- `VEC_NM`, Coprocessor Not Available: the source says 11, general knowledge 7, and no rule depends on
it (R5, R301, R310; 90_conflicts.md C1). Assumption log entry 2. -/
opaque vecNM : Byte

/-- `VEC_UD`, invalid opcode (R5, R316). -/
opaque vecUD : Byte

/-- `VEC_NP`, segment not present (R5, R315). -/
opaque vecNP : Byte

/-- `VEC_SS`, stack fault (R5, R315). -/
opaque vecSS : Byte

/-- `VEC_GP`, general protection (R5, R315). -/
opaque vecGP : Byte

/-- `VEC_TS`, invalid TSS: a parameter that R5 names and no rule raises. -/
opaque vecTS : Byte

/-- `VEC_DF`, double fault: a parameter that R5 names and no rule raises. -/
opaque vecDF : Byte

/-- `VEC_DEBUG` (R5). -/
def vecDebug : Byte := 1

/-- `VEC_PAGE_FAULT` (R5). -/
def vecPageFault : Byte := 14

end Sys2Proof.Config
end

