-- ==== Sys2Proof/Syntax.lean ====
section
/-!
DEFINITION. The instructions of spec/opcode_table.json as syntax: one constructor of `Instr` for each
of its 36 rows (spec/30_encoding.md), with the operands its encoding holds.
-/

namespace Sys2Proof

/-- The eight general registers, in the order of their numbers 0 to 7 (R21, R204). -/
inductive Reg where
  | eax | ecx | edx | ebx | esp | ebp | esi | edi
  deriving DecidableEq, Repr

/-- The six segment registers, in the order of their numbers 0 to 5 (R76). -/
inductive SegReg where
  | es | cs | ss | ds | fs | gs
  deriving DecidableEq, Repr

/-- The prefixes an instruction carries, LOCK apart (R208). At most one of each kind is accepted, and
their order has no meaning, so two flags and an optional segment register say all of it. LOCK is not
here: it never reaches an instruction's rule (R210). -/
structure Prefixes where
  /-- 66H is present: the other operand size. -/
  opsize : Bool := false
  /-- 67H is present: the other address size. -/
  addrsize : Bool := false
  /-- The segment override, if one is present. -/
  seg : Option SegReg := none
  deriving DecidableEq, Repr

/-- The base of a 16-bit memory operand, in the order of the rm field (R207). -/
inductive Base16 where
  | bxSi | bxDi | bpSi | bpDi | si | di | bp | bx
  deriving DecidableEq, Repr

/-- The displacement of a 16-bit memory operand: mod = 00B, 01B or 10B (R207). -/
inductive Disp16 where
  | none
  | d8 (d : Byte)
  | d16 (d : Half)
  deriving DecidableEq, Repr

/-- The displacement of a 32-bit memory operand: mod = 00B, 01B or 10B (R205). -/
inductive Disp32 where
  | none
  | d8 (d : Byte)
  | d32 (d : Word)
  deriving DecidableEq, Repr

/-- A memory operand as ModRM, SIB and displacement give it (R205 to R207). -/
inductive MemOperand where
  /-- 16-bit addressing with no base: mod = 00B, rm = 110B, a disp16 (R207). -/
  | direct16 (d : Half)
  /-- 16-bit addressing through a base (R207). -/
  | base16 (b : Base16) (d : Disp16)
  /-- 32-bit addressing with no base: mod = 00B, rm = 101B, a disp32 (R205). -/
  | direct32 (d : Word)
  /-- 32-bit addressing through one base register, no SIB byte (R205). -/
  | base32 (b : Reg) (d : Disp32)
  /-- SIB with a base register. An index of number 100B (`esp`) means no index (R206). -/
  | sib (scale : BitVec 2) (index base : Reg) (d : Disp32)
  /-- SIB with base = 101B and mod = 00B: no base register, a disp32 (R206). -/
  | sibDirect (scale : BitVec 2) (index : Reg) (d : Word)
  deriving DecidableEq, Repr

/-- The operand of LMSW and SMSW: a 16-bit register (mod = 11B) or a 16-bit memory operand (R213). -/
inductive RM16 where
  | reg (r : Reg)
  | mem (m : MemOperand)
  deriving DecidableEq, Repr

/-- The instructions: one constructor per row of spec/opcode_table.json. `p` is the prefixes, `rm` the
general register of a register move, `n` the low bits of a register number that one row shares among
several reserved registers. -/
inductive Instr where
  /-- CLTS (R240). -/
  | clts (p : Prefixes)
  /-- MOV r32, CR0 (R231). -/
  | movR32Cr0 (p : Prefixes) (rm : Reg)
  /-- MOV r32, CR2 (R232). -/
  | movR32Cr2 (p : Prefixes) (rm : Reg)
  /-- MOV r32, CR3 (R233). -/
  | movR32Cr3 (p : Prefixes) (rm : Reg)
  /-- MOV CR0, r32 (R234). -/
  | movCr0R32 (p : Prefixes) (rm : Reg)
  /-- MOV CR2, r32 (R235). -/
  | movCr2R32 (p : Prefixes) (rm : Reg)
  /-- MOV CR3, r32 (R236). -/
  | movCr3R32 (p : Prefixes) (rm : Reg)
  /-- MOV r32, CR1, reserved (R237). -/
  | movR32Cr1 (p : Prefixes) (rm : Reg)
  /-- MOV r32, CR4..CR7, reserved: register 4 + n (R237). -/
  | movR32Cr4to7 (p : Prefixes) (n : BitVec 2) (rm : Reg)
  /-- MOV CR1, r32, reserved (R237). -/
  | movCr1R32 (p : Prefixes) (rm : Reg)
  /-- MOV CR4..CR7, r32, reserved: register 4 + n (R237). -/
  | movCr4to7R32 (p : Prefixes) (n : BitVec 2) (rm : Reg)
  /-- MOV r32, DR0 (R261). -/
  | movR32Dr0 (p : Prefixes) (rm : Reg)
  /-- MOV r32, DR1 (R261). -/
  | movR32Dr1 (p : Prefixes) (rm : Reg)
  /-- MOV r32, DR2 (R261). -/
  | movR32Dr2 (p : Prefixes) (rm : Reg)
  /-- MOV r32, DR3 (R261). -/
  | movR32Dr3 (p : Prefixes) (rm : Reg)
  /-- MOV r32, DR6 (R262). -/
  | movR32Dr6 (p : Prefixes) (rm : Reg)
  /-- MOV r32, DR7 (R263). -/
  | movR32Dr7 (p : Prefixes) (rm : Reg)
  /-- MOV DR0, r32 (R264). -/
  | movDr0R32 (p : Prefixes) (rm : Reg)
  /-- MOV DR1, r32 (R264). -/
  | movDr1R32 (p : Prefixes) (rm : Reg)
  /-- MOV DR2, r32 (R264). -/
  | movDr2R32 (p : Prefixes) (rm : Reg)
  /-- MOV DR3, r32 (R264). -/
  | movDr3R32 (p : Prefixes) (rm : Reg)
  /-- MOV DR6, r32 (R265). -/
  | movDr6R32 (p : Prefixes) (rm : Reg)
  /-- MOV DR7, r32 (R266). -/
  | movDr7R32 (p : Prefixes) (rm : Reg)
  /-- MOV r32, DR4..DR5, reserved: register 4 + n (R267). -/
  | movR32Dr4to5 (p : Prefixes) (n : BitVec 1) (rm : Reg)
  /-- MOV DR4..DR5, r32, reserved: register 4 + n (R267). -/
  | movDr4to5R32 (p : Prefixes) (n : BitVec 1) (rm : Reg)
  /-- MOV r32, TR6 (R270). -/
  | movR32Tr6 (p : Prefixes) (rm : Reg)
  /-- MOV r32, TR7 (R271). -/
  | movR32Tr7 (p : Prefixes) (rm : Reg)
  /-- MOV TR6, r32 (R272). -/
  | movTr6R32 (p : Prefixes) (rm : Reg)
  /-- MOV TR7, r32 (R273). -/
  | movTr7R32 (p : Prefixes) (rm : Reg)
  /-- MOV r32, TR0..TR3, reserved: register n (R274). -/
  | movR32Tr0to3 (p : Prefixes) (n : BitVec 2) (rm : Reg)
  /-- MOV r32, TR4..TR5, reserved: register 4 + n (R274). -/
  | movR32Tr4to5 (p : Prefixes) (n : BitVec 1) (rm : Reg)
  /-- MOV TR0..TR3, r32, reserved: register n (R274). -/
  | movTr0to3R32 (p : Prefixes) (n : BitVec 2) (rm : Reg)
  /-- MOV TR4..TR5, r32, reserved: register 4 + n (R274). -/
  | movTr4to5R32 (p : Prefixes) (n : BitVec 1) (rm : Reg)
  /-- SMSW r/m16 (R239). -/
  | smsw (p : Prefixes) (o : RM16)
  /-- LMSW r/m16 (R238). -/
  | lmsw (p : Prefixes) (o : RM16)
  /-- ESC, any coprocessor opcode D8H to DFH: only its first byte is looked at (R310). -/
  | esc (p : Prefixes) (low : BitVec 3)
  deriving DecidableEq, Repr

end Sys2Proof
end

