-- ==== Sys2Proof/WellFormed.lean ====
section
/-!
DEFINITION. Which terms of the syntax are instructions an encoding can hold: the addressing forms that
ModRM gives to something else are shut out, and the operand's address size is the one in force
(spec/30_encoding.md rules R205 to R209).
-/

namespace Sys2Proof

/-- The operand is of the 32-bit addressing forms (R205, R206). -/
def MemOperand.is32 : MemOperand → Bool
  | .direct16 _ => false
  | .base16 _ _ => false
  | .direct32 _ => true
  | .base32 _ _ => true
  | .sib _ _ _ _ => true
  | .sibDirect _ _ _ => true

/-- The operand has an encoding of its own. Base BP with no displacement is the `disp16` form (R207);
rm = 100B announces a SIB byte, so ESP is no plain base, and base EBP with no displacement is the
`disp32` form, with or without a SIB byte (R205, R206). -/
def MemOperand.encodable : MemOperand → Bool
  | .direct16 _ => true
  | .base16 b d => !(b == .bp && d == .none)
  | .direct32 _ => true
  | .base32 b d => b != .esp && !(b == .ebp && d == .none)
  | .sib _ _ b d => !(b == .ebp && d == .none)
  | .sibDirect _ _ _ => true

/-- A register operand always is well formed; a memory operand when it is encodable and its form is of
the address size `a32` in force. -/
def RM16.wf (a32 : Bool) : RM16 → Bool
  | .reg _ => true
  | .mem m => m.encodable && (m.is32 == a32)

/-- The instruction is one a decoder can read in a code segment whose D bit is `d`: the address size is
the default size, or the other one after a 67H prefix (R209). -/
def Instr.wf (d : Bool) : Instr → Bool
  | .smsw p o => o.wf (d ^^ p.addrsize)
  | .lmsw p o => o.wf (d ^^ p.addrsize)
  | .clts _ => true
  | .movR32Cr0 _ _ => true
  | .movR32Cr2 _ _ => true
  | .movR32Cr3 _ _ => true
  | .movCr0R32 _ _ => true
  | .movCr2R32 _ _ => true
  | .movCr3R32 _ _ => true
  | .movR32Cr1 _ _ => true
  | .movR32Cr4to7 _ _ _ => true
  | .movCr1R32 _ _ => true
  | .movCr4to7R32 _ _ _ => true
  | .movR32Dr0 _ _ => true
  | .movR32Dr1 _ _ => true
  | .movR32Dr2 _ _ => true
  | .movR32Dr3 _ _ => true
  | .movR32Dr6 _ _ => true
  | .movR32Dr7 _ _ => true
  | .movDr0R32 _ _ => true
  | .movDr1R32 _ _ => true
  | .movDr2R32 _ _ => true
  | .movDr3R32 _ _ => true
  | .movDr6R32 _ _ => true
  | .movDr7R32 _ _ => true
  | .movR32Dr4to5 _ _ _ => true
  | .movDr4to5R32 _ _ _ => true
  | .movR32Tr6 _ _ => true
  | .movR32Tr7 _ _ => true
  | .movTr6R32 _ _ => true
  | .movTr7R32 _ _ => true
  | .movR32Tr0to3 _ _ _ => true
  | .movR32Tr4to5 _ _ _ => true
  | .movTr0to3R32 _ _ _ => true
  | .movTr4to5R32 _ _ _ => true
  | .esc _ _ => true

end Sys2Proof
end

