-- ==== Sys2Proof/Decode.lean ====
section
/-!
DEFINITION. Decoding and encoding (spec/30_encoding.md). `decode` is R210 on the bytes read so far: it
answers an instruction, asks for a further byte, reports LOCK on an instruction of the table, or refuses
by name. `encode` writes the bytes of an instruction from the same tables. `opcodeTable` is
spec/opcode_table.json.
-/

namespace Sys2Proof

/-! ### Numbers of the fields -/

/-- The number of a general register (R21, R204). -/
def Reg.bits : Reg → BitVec 3
  | .eax => 0
  | .ecx => 1
  | .edx => 2
  | .ebx => 3
  | .esp => 4
  | .ebp => 5
  | .esi => 6
  | .edi => 7

/-- The general register of a number (R21, R204). -/
def Reg.ofBits (n : BitVec 3) : Reg :=
  match n.toNat with
  | 0 => .eax
  | 1 => .ecx
  | 2 => .edx
  | 3 => .ebx
  | 4 => .esp
  | 5 => .ebp
  | 6 => .esi
  | _ => .edi

/-- The rm field of a 16-bit base (R207). -/
def Base16.bits : Base16 → BitVec 3
  | .bxSi => 0
  | .bxDi => 1
  | .bpSi => 2
  | .bpDi => 3
  | .si => 4
  | .di => 5
  | .bp => 6
  | .bx => 7

/-- The 16-bit base of an rm field (R207). -/
def Base16.ofBits (n : BitVec 3) : Base16 :=
  match n.toNat with
  | 0 => .bxSi
  | 1 => .bxDi
  | 2 => .bpSi
  | 3 => .bpDi
  | 4 => .si
  | 5 => .di
  | 6 => .bp
  | _ => .bx

/-- The byte of a segment override prefix (R208). -/
def SegReg.override : SegReg → Byte
  | .es => 0x26
  | .cs => 0x2E
  | .ss => 0x36
  | .ds => 0x3E
  | .fs => 0x64
  | .gs => 0x65

/-- A byte of three fields of 2, 3 and 3 bits: ModRM (R203) and SIB (R206). -/
def fields233 (hi : BitVec 2) (mid lo : BitVec 3) : Byte :=
  hi ++ mid ++ lo

/-- Bits 7:6 of a ModRM or SIB byte: mod, or scale (R203, R206). -/
def field76 (b : Byte) : BitVec 2 := b.extractLsb' 6 2

/-- Bits 5:3 of a ModRM or SIB byte: reg, or index (R203, R206). -/
def field53 (b : Byte) : BitVec 3 := b.extractLsb' 3 3

/-- Bits 2:0 of a ModRM or SIB byte: rm, or base (R203, R206). -/
def field20 (b : Byte) : BitVec 3 := b.extractLsb' 0 3

/-- The displacement of two bytes, least significant byte first (R217). -/
def half (b0 b1 : Byte) : Half := b1 ++ b0

/-- The displacement of four bytes, least significant byte first (R217). -/
def word (b0 b1 b2 b3 : Byte) : Word := b3 ++ b2 ++ b1 ++ b0

/-- The two bytes of a displacement, least significant first (R217). -/
def halfBytes (h : Half) : List Byte := [h.extractLsb' 0 8, h.extractLsb' 8 8]

/-- The four bytes of a displacement, least significant first (R217). -/
def wordBytes (w : Word) : List Byte :=
  [w.extractLsb' 0 8, w.extractLsb' 8 8, w.extractLsb' 16 8, w.extractLsb' 24 8]

/-! ### Decoding -/

/-- Why a sequence of bytes is no instruction of this specification. Safe: nothing is proved of it. -/
inductive DecodeRefusal where
  /-- An opcode that is no row of the table (R210, R216). -/
  | outsideSpecification
  /-- 0F 01 with a /digit that is neither SMSW nor LMSW (R213). -/
  | otherDigit
  /-- A move to or from a special register with mod other than 11B (R210, R212). -/
  | modNot11
  /-- F2H or F3H (R208). -/
  | repPrefix
  /-- Two prefixes of one kind (R208, R210). -/
  | repeatedPrefix
  deriving DecidableEq, Repr

/-- What the decoder says of the bytes read so far. -/
inductive Decoded where
  /-- The bytes are the beginning of an instruction: the next one is needed. -/
  | more
  /-- The bytes are this instruction. -/
  | instr (i : Instr)
  /-- The bytes are a LOCK prefix on an instruction of the table: invalid opcode (R208, R210, R316). -/
  | lockInvalid
  /-- The bytes are no instruction of this specification. -/
  | refused (why : DecodeRefusal)
  deriving DecidableEq, Repr

/-- `return <instruction>` of R210: with LOCK it is invalid opcode. -/
def finish (lock : Bool) (i : Instr) : Decoded :=
  if lock then .lockInvalid else .instr i

/-- The 16-bit memory operand of a ModRM byte and the bytes after it; `none` asks for a byte (R207). -/
def decodeMem16 (mod : BitVec 2) (rm : BitVec 3) (rest : List Byte) : Option MemOperand :=
  match mod.toNat, rest with
  | 0, rest =>
    if rm = 6 then
      match rest with
      | b0 :: b1 :: _ => some (.direct16 (half b0 b1))
      | _ => none
    else some (.base16 (Base16.ofBits rm) .none)
  | 1, b0 :: _ => some (.base16 (Base16.ofBits rm) (.d8 b0))
  | 2, b0 :: b1 :: _ => some (.base16 (Base16.ofBits rm) (.d16 (half b0 b1)))
  | _, _ => none

/-- The displacement that mod = 00B, 01B or 10B announces in 32-bit addressing; `none` asks for a byte
(R205). -/
def decodeDisp32 (mod : BitVec 2) (rest : List Byte) : Option Disp32 :=
  match mod.toNat, rest with
  | 0, _ => some .none
  | 1, b0 :: _ => some (.d8 b0)
  | 2, b0 :: b1 :: b2 :: b3 :: _ => some (.d32 (word b0 b1 b2 b3))
  | _, _ => none

/-- The operand of a SIB byte and the bytes after it (R206). -/
def decodeSib (mod : BitVec 2) (sib : Byte) (rest : List Byte) : Option MemOperand :=
  if field20 sib = 5 ∧ mod = 0 then
    match rest with
    | b0 :: b1 :: b2 :: b3 :: _ =>
      some (.sibDirect (field76 sib) (Reg.ofBits (field53 sib)) (word b0 b1 b2 b3))
    | _ => none
  else
    (decodeDisp32 mod rest).map
      (.sib (field76 sib) (Reg.ofBits (field53 sib)) (Reg.ofBits (field20 sib)))

/-- The 32-bit memory operand of a ModRM byte and the bytes after it; `none` asks for a byte (R205). -/
def decodeMem32 (mod : BitVec 2) (rm : BitVec 3) (rest : List Byte) : Option MemOperand :=
  if rm = 4 then
    match rest with
    | sib :: rest => decodeSib mod sib rest
    | [] => none
  else if rm = 5 ∧ mod = 0 then
    match rest with
    | b0 :: b1 :: b2 :: b3 :: _ => some (.direct32 (word b0 b1 b2 b3))
    | _ => none
  else (decodeDisp32 mod rest).map (.base32 (Reg.ofBits rm))

/-- The r/m16 operand of a ModRM byte, in the address size `a32` (R213). -/
def decodeRm16 (a32 : Bool) (m : Byte) (rest : List Byte) : Option RM16 :=
  if field76 m = 3 then some (.reg (Reg.ofBits (field20 m)))
  else if a32 then (decodeMem32 (field76 m) (field20 m) rest).map .mem
  else (decodeMem16 (field76 m) (field20 m) rest).map .mem

/-- MOV r32, CRn: `0F 20` (R212, R214, R215). -/
def movFromCr (p : Prefixes) (n : BitVec 3) (rm : Reg) : Instr :=
  match n.toNat with
  | 0 => .movR32Cr0 p rm
  | 1 => .movR32Cr1 p rm
  | 2 => .movR32Cr2 p rm
  | 3 => .movR32Cr3 p rm
  | _ => .movR32Cr4to7 p (n.extractLsb' 0 2) rm

/-- MOV CRn, r32: `0F 22` (R212, R214, R215). -/
def movToCr (p : Prefixes) (n : BitVec 3) (rm : Reg) : Instr :=
  match n.toNat with
  | 0 => .movCr0R32 p rm
  | 1 => .movCr1R32 p rm
  | 2 => .movCr2R32 p rm
  | 3 => .movCr3R32 p rm
  | _ => .movCr4to7R32 p (n.extractLsb' 0 2) rm

/-- MOV r32, DRn: `0F 21` (R212, R214, R215). -/
def movFromDr (p : Prefixes) (n : BitVec 3) (rm : Reg) : Instr :=
  match n.toNat with
  | 0 => .movR32Dr0 p rm
  | 1 => .movR32Dr1 p rm
  | 2 => .movR32Dr2 p rm
  | 3 => .movR32Dr3 p rm
  | 6 => .movR32Dr6 p rm
  | 7 => .movR32Dr7 p rm
  | _ => .movR32Dr4to5 p (n.extractLsb' 0 1) rm

/-- MOV DRn, r32: `0F 23` (R212, R214, R215). -/
def movToDr (p : Prefixes) (n : BitVec 3) (rm : Reg) : Instr :=
  match n.toNat with
  | 0 => .movDr0R32 p rm
  | 1 => .movDr1R32 p rm
  | 2 => .movDr2R32 p rm
  | 3 => .movDr3R32 p rm
  | 6 => .movDr6R32 p rm
  | 7 => .movDr7R32 p rm
  | _ => .movDr4to5R32 p (n.extractLsb' 0 1) rm

/-- MOV r32, TRn: `0F 24` (R212, R214, R215). -/
def movFromTr (p : Prefixes) (n : BitVec 3) (rm : Reg) : Instr :=
  match n.toNat with
  | 6 => .movR32Tr6 p rm
  | 7 => .movR32Tr7 p rm
  | 4 => .movR32Tr4to5 p 0 rm
  | 5 => .movR32Tr4to5 p 1 rm
  | _ => .movR32Tr0to3 p (n.extractLsb' 0 2) rm

/-- MOV TRn, r32: `0F 26` (R212, R214, R215). -/
def movToTr (p : Prefixes) (n : BitVec 3) (rm : Reg) : Instr :=
  match n.toNat with
  | 6 => .movTr6R32 p rm
  | 7 => .movTr7R32 p rm
  | 4 => .movTr4to5R32 p 0 rm
  | 5 => .movTr4to5R32 p 1 rm
  | _ => .movTr0to3R32 p (n.extractLsb' 0 2) rm

/-- The format MOVSPEC: what a second opcode byte makes of the prefixes, the reg field and the rm field;
`none` where the byte is no MOVSPEC opcode (R212). -/
def movSpecial (op2 : Byte) : Option (Prefixes → BitVec 3 → Reg → Instr) :=
  match op2.toNat with
  | 0x20 => some movFromCr
  | 0x21 => some movFromDr
  | 0x22 => some movToCr
  | 0x23 => some movToDr
  | 0x24 => some movFromTr
  | 0x26 => some movToTr
  | _ => none

/-- The rest of `0F 01` (R213). -/
def decodeGroup7 (d : Bool) (p : Prefixes) (lock : Bool) (m : Byte) (rest : List Byte) : Decoded :=
  if field53 m = 4 then
    match decodeRm16 (d ^^ p.addrsize) m rest with
    | some o => finish lock (.smsw p o)
    | none => .more
  else if field53 m = 6 then
    match decodeRm16 (d ^^ p.addrsize) m rest with
    | some o => finish lock (.lmsw p o)
    | none => .more
  else .refused .otherDigit

/-- The bytes after 0FH (R210). -/
def decodeTwoByte (d : Bool) (p : Prefixes) (lock : Bool) (op2 : Byte) (rest : List Byte) : Decoded :=
  if op2 = 0x06 then finish lock (.clts p)
  else
    match movSpecial op2, rest with
    | some _, [] => .more
    | some f, m :: _ =>
      if field76 m = 3 then finish lock (f p (field53 m) (Reg.ofBits (field20 m)))
      else .refused .modNot11
    | none, rest =>
      if op2 = 0x01 then
        match rest with
        | [] => .more
        | m :: rest => decodeGroup7 d p lock m rest
      else .refused .outsideSpecification

/-- The opcode, its prefixes read (R210). -/
def decodeOpcode (d : Bool) (p : Prefixes) (lock : Bool) (b : Byte) (rest : List Byte) : Decoded :=
  if field53 b = 3 ∧ field76 b = 3 then finish lock (.esc p (field20 b))
  else if b = 0x0F then
    match rest with
    | [] => .more
    | op2 :: rest => decodeTwoByte d p lock op2 rest
  else .refused .outsideSpecification

/-- The prefix bytes of R208. -/
inductive PrefixByte where
  | opsize
  | addrsize
  | seg (s : SegReg)
  | lock
  | rep
  deriving DecidableEq, Repr

/-- The prefix a byte is, if it is one (R208). -/
def prefixOf (b : Byte) : Option PrefixByte :=
  match b.toNat with
  | 0x66 => some .opsize
  | 0x67 => some .addrsize
  | 0x26 => some (.seg .es)
  | 0x2E => some (.seg .cs)
  | 0x36 => some (.seg .ss)
  | 0x3E => some (.seg .ds)
  | 0x64 => some (.seg .fs)
  | 0x65 => some (.seg .gs)
  | 0xF0 => some .lock
  | 0xF2 => some .rep
  | 0xF3 => some .rep
  | _ => none

/-- The loop over the prefixes, then the opcode (R208, R210). DEDUCED, assumption log entry 3: a second
LOCK is a repeated prefix too. -/
def decodeFrom (d : Bool) (p : Prefixes) (lock : Bool) : List Byte → Decoded
  | [] => .more
  | b :: rest =>
    match prefixOf b with
    | none => decodeOpcode d p lock b rest
    | some .rep => .refused .repPrefix
    | some .opsize =>
      if p.opsize then .refused .repeatedPrefix
      else decodeFrom d { p with opsize := true } lock rest
    | some .addrsize =>
      if p.addrsize then .refused .repeatedPrefix
      else decodeFrom d { p with addrsize := true } lock rest
    | some (.seg s) =>
      if p.seg.isSome then .refused .repeatedPrefix
      else decodeFrom d { p with seg := some s } lock rest
    | some .lock => if lock then .refused .repeatedPrefix else decodeFrom d p true rest

/-- `Decode(bytes)` of R210, in a code segment whose D bit is `d`. -/
def decode (d : Bool) (bytes : List Byte) : Decoded :=
  decodeFrom d {} false bytes

/-! ### Encoding -/

/-- The prefix bytes, in one fixed order: R208 admits any. -/
def Prefixes.bytes (p : Prefixes) : List Byte :=
  (if p.opsize then [0x66] else []) ++ (if p.addrsize then [0x67] else []) ++
    (match p.seg with
      | some s => [s.override]
      | none => [])

/-- ModRM and displacement of a 16-bit operand; `digit` is the reg field (R207). -/
def encodeBase16 (digit rm : BitVec 3) : Disp16 → List Byte
  | .none => [fields233 0 digit rm]
  | .d8 d => [fields233 1 digit rm, d]
  | .d16 d => fields233 2 digit rm :: halfBytes d

/-- The mod field that announces a displacement (R205). -/
def Disp32.mod : Disp32 → BitVec 2
  | .none => 0
  | .d8 _ => 1
  | .d32 _ => 2

/-- The bytes of a displacement (R205, R217). -/
def Disp32.bytes : Disp32 → List Byte
  | .none => []
  | .d8 d => [d]
  | .d32 d => wordBytes d

/-- ModRM, SIB and displacement of a memory operand (R205 to R207). -/
def encodeMem (digit : BitVec 3) : MemOperand → List Byte
  | .direct16 d => fields233 0 digit 6 :: halfBytes d
  | .base16 b d => encodeBase16 digit b.bits d
  | .direct32 d => fields233 0 digit 5 :: wordBytes d
  | .base32 b d => fields233 d.mod digit b.bits :: d.bytes
  | .sib sc ix b d => fields233 d.mod digit 4 :: fields233 sc ix.bits b.bits :: d.bytes
  | .sibDirect sc ix d => fields233 0 digit 4 :: fields233 sc ix.bits 5 :: wordBytes d

/-- ModRM and what follows it, of an r/m16 operand (R213). -/
def encodeRm16 (digit : BitVec 3) : RM16 → List Byte
  | .reg r => [fields233 3 digit r.bits]
  | .mem m => encodeMem digit m

/-- The format MOVSPEC (R212). -/
def encodeMov (op2 : Byte) (p : Prefixes) (n : BitVec 3) (rm : Reg) : List Byte :=
  p.bytes ++ [0x0F, op2, fields233 3 n rm.bits]

/-- The bytes of an instruction, from the tables of R211 to R215 and R310. -/
def encode : Instr → List Byte
  | .clts p => p.bytes ++ [0x0F, 0x06]
  | .movR32Cr0 p rm => encodeMov 0x20 p 0 rm
  | .movR32Cr2 p rm => encodeMov 0x20 p 2 rm
  | .movR32Cr3 p rm => encodeMov 0x20 p 3 rm
  | .movCr0R32 p rm => encodeMov 0x22 p 0 rm
  | .movCr2R32 p rm => encodeMov 0x22 p 2 rm
  | .movCr3R32 p rm => encodeMov 0x22 p 3 rm
  | .movR32Cr1 p rm => encodeMov 0x20 p 1 rm
  | .movR32Cr4to7 p n rm => encodeMov 0x20 p ((1#1 ++ n : BitVec 3)) rm
  | .movCr1R32 p rm => encodeMov 0x22 p 1 rm
  | .movCr4to7R32 p n rm => encodeMov 0x22 p ((1#1 ++ n : BitVec 3)) rm
  | .movR32Dr0 p rm => encodeMov 0x21 p 0 rm
  | .movR32Dr1 p rm => encodeMov 0x21 p 1 rm
  | .movR32Dr2 p rm => encodeMov 0x21 p 2 rm
  | .movR32Dr3 p rm => encodeMov 0x21 p 3 rm
  | .movR32Dr6 p rm => encodeMov 0x21 p 6 rm
  | .movR32Dr7 p rm => encodeMov 0x21 p 7 rm
  | .movDr0R32 p rm => encodeMov 0x23 p 0 rm
  | .movDr1R32 p rm => encodeMov 0x23 p 1 rm
  | .movDr2R32 p rm => encodeMov 0x23 p 2 rm
  | .movDr3R32 p rm => encodeMov 0x23 p 3 rm
  | .movDr6R32 p rm => encodeMov 0x23 p 6 rm
  | .movDr7R32 p rm => encodeMov 0x23 p 7 rm
  | .movR32Dr4to5 p n rm => encodeMov 0x21 p ((2#2 ++ n : BitVec 3)) rm
  | .movDr4to5R32 p n rm => encodeMov 0x23 p ((2#2 ++ n : BitVec 3)) rm
  | .movR32Tr6 p rm => encodeMov 0x24 p 6 rm
  | .movR32Tr7 p rm => encodeMov 0x24 p 7 rm
  | .movTr6R32 p rm => encodeMov 0x26 p 6 rm
  | .movTr7R32 p rm => encodeMov 0x26 p 7 rm
  | .movR32Tr0to3 p n rm => encodeMov 0x24 p ((0#1 ++ n : BitVec 3)) rm
  | .movR32Tr4to5 p n rm => encodeMov 0x24 p ((2#2 ++ n : BitVec 3)) rm
  | .movTr0to3R32 p n rm => encodeMov 0x26 p ((0#1 ++ n : BitVec 3)) rm
  | .movTr4to5R32 p n rm => encodeMov 0x26 p ((2#2 ++ n : BitVec 3)) rm
  | .smsw p o => p.bytes ++ 0x0F :: 0x01 :: encodeRm16 4 o
  | .lmsw p o => p.bytes ++ 0x0F :: 0x01 :: encodeRm16 6 o
  | .esc p low => p.bytes ++ [fields233 3 3 low]

/-! ### Lengths -/

/-- How many prefix bytes there are. -/
def Prefixes.length (p : Prefixes) : Nat :=
  (if p.opsize then 1 else 0) + (if p.addrsize then 1 else 0) + (if p.seg.isSome then 1 else 0)

/-- The displacement bytes of a 16-bit operand (R207). -/
def Disp16.length : Disp16 → Nat
  | .none => 0
  | .d8 _ => 1
  | .d16 _ => 2

/-- The displacement bytes of a 32-bit operand (R205). -/
def Disp32.length : Disp32 → Nat
  | .none => 0
  | .d8 _ => 1
  | .d32 _ => 4

/-- The SIB and displacement bytes of a memory operand (R218). -/
def MemOperand.length : MemOperand → Nat
  | .direct16 _ => 2
  | .base16 _ d => d.length
  | .direct32 _ => 4
  | .base32 _ d => d.length
  | .sib _ _ _ d => 1 + d.length
  | .sibDirect _ _ _ => 5

/-- The bytes of LMSW and SMSW (R218). -/
def groupLength (p : Prefixes) : RM16 → Nat
  | .reg _ => p.length + 3
  | .mem m => p.length + 3 + m.length

/-- The bytes of a register move (R218). -/
def movLength (p : Prefixes) : Nat := p.length + 3

/-- The instruction's byte count, prefixes included (R210, R218). ESC counts its prefixes and the one
byte that is looked at; no ESC completes, so nothing reads it. -/
def Instr.length : Instr → Nat
  | .clts p => p.length + 2
  | .smsw p o => groupLength p o
  | .lmsw p o => groupLength p o
  | .esc p _ => p.length + 1
  | .movR32Cr0 p _ => movLength p
  | .movR32Cr2 p _ => movLength p
  | .movR32Cr3 p _ => movLength p
  | .movCr0R32 p _ => movLength p
  | .movCr2R32 p _ => movLength p
  | .movCr3R32 p _ => movLength p
  | .movR32Cr1 p _ => movLength p
  | .movR32Cr4to7 p _ _ => movLength p
  | .movCr1R32 p _ => movLength p
  | .movCr4to7R32 p _ _ => movLength p
  | .movR32Dr0 p _ => movLength p
  | .movR32Dr1 p _ => movLength p
  | .movR32Dr2 p _ => movLength p
  | .movR32Dr3 p _ => movLength p
  | .movR32Dr6 p _ => movLength p
  | .movR32Dr7 p _ => movLength p
  | .movDr0R32 p _ => movLength p
  | .movDr1R32 p _ => movLength p
  | .movDr2R32 p _ => movLength p
  | .movDr3R32 p _ => movLength p
  | .movDr6R32 p _ => movLength p
  | .movDr7R32 p _ => movLength p
  | .movR32Dr4to5 p _ _ => movLength p
  | .movDr4to5R32 p _ _ => movLength p
  | .movR32Tr6 p _ => movLength p
  | .movR32Tr7 p _ => movLength p
  | .movTr6R32 p _ => movLength p
  | .movTr7R32 p _ => movLength p
  | .movR32Tr0to3 p _ _ => movLength p
  | .movR32Tr4to5 p _ _ => movLength p
  | .movTr0to3R32 p _ _ => movLength p
  | .movTr4to5R32 p _ _ => movLength p

/-- The prefixes an instruction carries (R208). -/
def Instr.prefixes : Instr → Prefixes
  | .clts p => p
  | .movR32Cr0 p _ => p
  | .movR32Cr2 p _ => p
  | .movR32Cr3 p _ => p
  | .movCr0R32 p _ => p
  | .movCr2R32 p _ => p
  | .movCr3R32 p _ => p
  | .movR32Cr1 p _ => p
  | .movR32Cr4to7 p _ _ => p
  | .movCr1R32 p _ => p
  | .movCr4to7R32 p _ _ => p
  | .movR32Dr0 p _ => p
  | .movR32Dr1 p _ => p
  | .movR32Dr2 p _ => p
  | .movR32Dr3 p _ => p
  | .movR32Dr6 p _ => p
  | .movR32Dr7 p _ => p
  | .movDr0R32 p _ => p
  | .movDr1R32 p _ => p
  | .movDr2R32 p _ => p
  | .movDr3R32 p _ => p
  | .movDr6R32 p _ => p
  | .movDr7R32 p _ => p
  | .movR32Dr4to5 p _ _ => p
  | .movDr4to5R32 p _ _ => p
  | .movR32Tr6 p _ => p
  | .movR32Tr7 p _ => p
  | .movTr6R32 p _ => p
  | .movTr7R32 p _ => p
  | .movR32Tr0to3 p _ _ => p
  | .movR32Tr4to5 p _ _ => p
  | .movTr0to3R32 p _ _ => p
  | .movTr4to5R32 p _ _ => p
  | .smsw p _ => p
  | .lmsw p _ => p
  | .esc p _ => p

/-! ### The opcode table -/

/-- A row of spec/opcode_table.json: bytes match it when, masked, they are its pattern (R214). -/
structure OpcodeRow where
  mnemonic : String
  pattern : List Byte
  mask : List Byte
  deriving DecidableEq, Repr

/-- `(bytes & mask) == match` of R214, on the first bytes, prefixes not included. -/
def matchesMasked : List Byte → List Byte → List Byte → Bool
  | p :: ps, m :: ms, b :: bs => (b &&& m) == p && matchesMasked ps ms bs
  | [], [], _ => true
  | _, _, _ => false

/-- The bytes match the row (R214). -/
def OpcodeRow.matches (r : OpcodeRow) (bytes : List Byte) : Bool :=
  matchesMasked r.pattern r.mask bytes

/-- A row of the format MOVSPEC whose mask fixes mod and the high bits of reg (R212, R214). -/
def movRow (mnemonic : String) (op2 modrm mask : Byte) : OpcodeRow :=
  { mnemonic := mnemonic, pattern := [0x0F, op2, modrm], mask := [0xFF, 0xFF, mask] }

/-- spec/opcode_table.json, its control register rows and CLTS (R214). -/
def controlRows : List OpcodeRow :=
  [{ mnemonic := "CLTS", pattern := [0x0F, 0x06], mask := [0xFF, 0xFF] },
    movRow "MOV_r32__CR0" 0x20 0xC0 0xF8, movRow "MOV_r32__CR2" 0x20 0xD0 0xF8,
    movRow "MOV_r32__CR3" 0x20 0xD8 0xF8, movRow "MOV_CR0__r32" 0x22 0xC0 0xF8,
    movRow "MOV_CR2__r32" 0x22 0xD0 0xF8, movRow "MOV_CR3__r32" 0x22 0xD8 0xF8,
    movRow "MOV_r32__CR1__reserved" 0x20 0xC8 0xF8,
    movRow "MOV_r32__CR4..CR7__reserved" 0x20 0xE0 0xE0,
    movRow "MOV_CR1__r32__reserved" 0x22 0xC8 0xF8,
    movRow "MOV_CR4..CR7__r32__reserved" 0x22 0xE0 0xE0]

/-- spec/opcode_table.json, its debug register rows (R214). -/
def debugRows : List OpcodeRow :=
  [movRow "MOV_r32__DR0" 0x21 0xC0 0xF8, movRow "MOV_r32__DR1" 0x21 0xC8 0xF8,
    movRow "MOV_r32__DR2" 0x21 0xD0 0xF8, movRow "MOV_r32__DR3" 0x21 0xD8 0xF8,
    movRow "MOV_r32__DR6" 0x21 0xF0 0xF8, movRow "MOV_r32__DR7" 0x21 0xF8 0xF8,
    movRow "MOV_DR0__r32" 0x23 0xC0 0xF8, movRow "MOV_DR1__r32" 0x23 0xC8 0xF8,
    movRow "MOV_DR2__r32" 0x23 0xD0 0xF8, movRow "MOV_DR3__r32" 0x23 0xD8 0xF8,
    movRow "MOV_DR6__r32" 0x23 0xF0 0xF8, movRow "MOV_DR7__r32" 0x23 0xF8 0xF8,
    movRow "MOV_r32__DR4..DR5__reserved" 0x21 0xE0 0xF0,
    movRow "MOV_DR4..DR5__r32__reserved" 0x23 0xE0 0xF0]

/-- spec/opcode_table.json, its test register rows (R214). -/
def testRows : List OpcodeRow :=
  [movRow "MOV_r32__TR6" 0x24 0xF0 0xF8, movRow "MOV_r32__TR7" 0x24 0xF8 0xF8,
    movRow "MOV_TR6__r32" 0x26 0xF0 0xF8, movRow "MOV_TR7__r32" 0x26 0xF8 0xF8,
    movRow "MOV_r32__TR0..TR3__reserved" 0x24 0xC0 0xE0,
    movRow "MOV_r32__TR4..TR5__reserved" 0x24 0xE0 0xF0,
    movRow "MOV_TR0..TR3__r32__reserved" 0x26 0xC0 0xE0,
    movRow "MOV_TR4..TR5__r32__reserved" 0x26 0xE0 0xF0]

/-- spec/opcode_table.json, SMSW, LMSW and ESC (R214). -/
def otherRows : List OpcodeRow :=
  [{ mnemonic := "SMSW_r_m16", pattern := [0x0F, 0x01, 0x20], mask := [0xFF, 0xFF, 0x38] },
    { mnemonic := "LMSW_r_m16", pattern := [0x0F, 0x01, 0x30], mask := [0xFF, 0xFF, 0x38] },
    { mnemonic := "ESC__any_coprocessor_opcode", pattern := [0xD8], mask := [0xF8] }]

/-- The 36 rows of spec/opcode_table.json (R214). -/
def opcodeTable : List OpcodeRow := controlRows ++ debugRows ++ testRows ++ otherRows

/-- The row of the table an instruction belongs to, by its mnemonic there. -/
def Instr.mnemonic : Instr → String
  | .clts _ => "CLTS"
  | .movR32Cr0 _ _ => "MOV_r32__CR0"
  | .movR32Cr2 _ _ => "MOV_r32__CR2"
  | .movR32Cr3 _ _ => "MOV_r32__CR3"
  | .movCr0R32 _ _ => "MOV_CR0__r32"
  | .movCr2R32 _ _ => "MOV_CR2__r32"
  | .movCr3R32 _ _ => "MOV_CR3__r32"
  | .movR32Cr1 _ _ => "MOV_r32__CR1__reserved"
  | .movR32Cr4to7 _ _ _ => "MOV_r32__CR4..CR7__reserved"
  | .movCr1R32 _ _ => "MOV_CR1__r32__reserved"
  | .movCr4to7R32 _ _ _ => "MOV_CR4..CR7__r32__reserved"
  | .movR32Dr0 _ _ => "MOV_r32__DR0"
  | .movR32Dr1 _ _ => "MOV_r32__DR1"
  | .movR32Dr2 _ _ => "MOV_r32__DR2"
  | .movR32Dr3 _ _ => "MOV_r32__DR3"
  | .movR32Dr6 _ _ => "MOV_r32__DR6"
  | .movR32Dr7 _ _ => "MOV_r32__DR7"
  | .movDr0R32 _ _ => "MOV_DR0__r32"
  | .movDr1R32 _ _ => "MOV_DR1__r32"
  | .movDr2R32 _ _ => "MOV_DR2__r32"
  | .movDr3R32 _ _ => "MOV_DR3__r32"
  | .movDr6R32 _ _ => "MOV_DR6__r32"
  | .movDr7R32 _ _ => "MOV_DR7__r32"
  | .movR32Dr4to5 _ _ _ => "MOV_r32__DR4..DR5__reserved"
  | .movDr4to5R32 _ _ _ => "MOV_DR4..DR5__r32__reserved"
  | .movR32Tr6 _ _ => "MOV_r32__TR6"
  | .movR32Tr7 _ _ => "MOV_r32__TR7"
  | .movTr6R32 _ _ => "MOV_TR6__r32"
  | .movTr7R32 _ _ => "MOV_TR7__r32"
  | .movR32Tr0to3 _ _ _ => "MOV_r32__TR0..TR3__reserved"
  | .movR32Tr4to5 _ _ _ => "MOV_r32__TR4..TR5__reserved"
  | .movTr0to3R32 _ _ _ => "MOV_TR0..TR3__r32__reserved"
  | .movTr4to5R32 _ _ _ => "MOV_TR4..TR5__r32__reserved"
  | .smsw _ _ => "SMSW_r_m16"
  | .lmsw _ _ => "LMSW_r_m16"
  | .esc _ _ => "ESC__any_coprocessor_opcode"

/-! ### The host's window on the decoder -/

/-- The most bytes an 80386 instruction has (R210). -/
def maxInstrBytes : Nat := 15

/-- The first `maxInstrBytes` bytes of a number laid out as the table numbers it: bits 7:0 are the first
byte. Bits from `nbits` on are zero. -/
def tableBytes (nbits w : Nat) : List Byte :=
  (List.range maxInstrBytes).map fun k => BitVec.ofNat 8 ((w % 2 ^ nbits) / 2 ^ (8 * k))

/-- The instruction the decoder reads from an instruction whose bits are `w`, in the code segment of the
reset state, whose D bit is 0 (R95): the default sizes are 16. -/
def decodeTableWord (nbits w : Nat) : Option Instr :=
  match decode false (tableBytes nbits w) with
  | .instr i => some i
  | .more => none
  | .lockInvalid => none
  | .refused _ => none

end Sys2Proof
end

