-- ==== Sys2Proof/Machine/State.lean ====
section
/-!
DEFINITION. The state of the machine: every register, hidden register, cache and ghost that
spec/10_state.md names, physical memory, the open parameters a run carries, and the state after reset
(R95, R401). Everything is plain data.
-/

namespace Sys2Proof.Machine

/-! ### Exceptions, faults and refusals -/

/-- The exceptions the rules raise (R301, R315, R316). Which number each has is `Exc.vector`. -/
inductive Exc where
  /-- Debug, exception 1 (R320). -/
  | db
  /-- Invalid opcode, `VEC_UD` (R316). -/
  | ud
  /-- Coprocessor Not Available, `VEC_NM` (R310). -/
  | nm
  /-- Segment not present, `VEC_NP` (R315). -/
  | np
  /-- Stack fault, `VEC_SS` (R315). -/
  | ss
  /-- General protection, `VEC_GP` (R315). -/
  | gp
  /-- Page fault, exception 14 (R305). -/
  | pf
  deriving DecidableEq, Repr

/-- The class of an exception: reported before or after its instruction completes (R303). -/
inductive ExcClass where
  | fault
  | trap
  deriving DecidableEq, Repr

/-- The error code of an exception (R306, R315, R350). -/
inductive ErrorCode where
  /-- The exception has none. -/
  | none
  /-- 0, or a selector with bits 1:0 cleared (R315). -/
  | code (c : Half)
  /-- The three bits of a page fault: P, W/R and U/S (R306). -/
  | page (present write user : Bool)
  deriving DecidableEq, Repr

/-- What the processor records of the exception it has raised, beside the state itself (R350). -/
structure Trap where
  exc : Exc
  cls : ExcClass
  err : ErrorCode
  deriving DecidableEq, Repr

/-- Why the machine stops with a fault. -/
inductive Fault where
  /-- A read of a byte of memory that nothing has written, `Unwritten` of R96. Raised by every read of
  physical memory. Safe: nothing is proved of what follows. -/
  | unwritten (pa : Nat)
  /-- The processor has raised an exception, which ends the run (R350). Raised by `step` alone, in the
  state that taking the exception left. Safe: nothing is proved of a handler. -/
  | trapped (t : Trap)
  deriving DecidableEq, Repr

/-- Why the model gives a step no meaning. Each is a `refuse` of the specification. All are safe: nothing
is proved of a refused step (R13). -/
inductive Refusal where
  /-- An instruction whose meaning is not written yet: raised by `exec` alone. -/
  | notModelled (mnemonic : String)
  /-- The bytes at CS:EIP are no instruction of this specification (R210, R216). -/
  | decode (why : DecodeRefusal)
  /-- A move to or from CR1 or CR4 to CR7 (R237). -/
  | reservedControlRegister
  /-- A move to or from DR4 or DR5 (R267). -/
  | reservedDebugRegister
  /-- A move to or from TR0 to TR5 (R274). -/
  | reservedTestRegister
  /-- A move to or from TR6 or TR7 (R270 to R273, R275). -/
  | tlbTestRegisters
  /-- A coprocessor opcode with CR0.EM = 0 (R310). -/
  | coprocessor
  /-- A write of CR0 with PG = 1 and PE = 0 (R234). -/
  | pagingWithoutProtection
  /-- A second change of PG (R242, R410). -/
  | pgChangedTwice
  /-- The bytes that follow would map elsewhere (R234, R236, R416). -/
  | codeMappingChanges
  /-- PE set while the low bits of the CS selector are not 0 (R241). -/
  | cplAfterPeSet
  /-- An enabled breakpoint with LEN = 10B (R56, R266). -/
  | undefinedLen
  /-- An enabled breakpoint with RW = 10B (R266, R321). -/
  | undefinedRw
  /-- An enabled execution breakpoint whose length is not 1 (R266). -/
  | executionLength
  /-- A data breakpoint that hits with GE = LE = 0 (R325). -/
  | inexactDataBreakpoint
  /-- A memory operand in real mode (R128, R131). -/
  | realModeOperand
  /-- A segment register loaded in real mode (R127, R131). -/
  | realModeSegmentLoad
  /-- CS loaded by the model operation `LoadSeg` (R127). -/
  | csLoad
  /-- A store into the storing instruction or the bytes that follow it (R183). -/
  | storeIntoStream
  /-- An access to a physical address that is not memory (R176). -/
  | notMemory (pa : Nat)
  /-- A step in virtual-8086 mode (R369). -/
  | virtual8086
  /-- `EIP + length` reaches 2^32 (R22). -/
  | eipWraps
  /-- A task switch (R363). -/
  | taskSwitch
  deriving DecidableEq, Repr

/-! ### Parts of the state -/

/-- The eight general registers (R21). -/
structure Regs where
  eax : Word
  ecx : Word
  edx : Word
  ebx : Word
  esp : Word
  ebp : Word
  esi : Word
  edi : Word
  deriving DecidableEq, Repr

/-- The attributes of a loaded segment (R76, R95). -/
structure SegAttr where
  /-- The register holds a descriptor: 0 after a null selector was loaded (R127). -/
  valid : Bool
  /-- P, present (R114). -/
  p : Bool
  /-- S, code or data (R111). -/
  s : Bool
  /-- DPL (R112). -/
  dpl : BitVec 2
  /-- D, the default size (R113). -/
  d : Bool
  /-- TYPE (R110, R111). -/
  typ : BitVec 3
  /-- A, accessed (R111). -/
  a : Bool
  deriving DecidableEq, Repr

/-- A segment register: the visible selector and the hidden part (R76). -/
structure Segment where
  sel : Half
  base : Word
  /-- The effective limit of R109. -/
  limit : Word
  attr : SegAttr
  deriving DecidableEq, Repr

/-- The six segment registers (R76). -/
structure Segments where
  es : Segment
  cs : Segment
  ss : Segment
  ds : Segment
  fs : Segment
  gs : Segment
  deriving DecidableEq, Repr

/-- GDTR and IDTR: a linear base and a limit (R65, R66). -/
structure TableReg where
  base : Word
  limit : Half
  deriving DecidableEq, Repr

/-- LDTR: the selector, and the hidden base, limit and validity (R67, R68). -/
structure LdtReg where
  sel : Half
  base : Word
  limit : Half
  valid : Bool
  deriving DecidableEq, Repr

/-- TR, the task register: the selector, and the hidden base and limit (R69). Carried, never read. -/
structure TaskReg where
  sel : Half
  base : Word
  limit : Word
  deriving DecidableEq, Repr

/-- An entry of the TLB (R81). -/
structure TlbEntry where
  /-- V, valid. -/
  v : Bool
  /-- D, dirty. -/
  d : Bool
  /-- U/S. -/
  us : Bool
  /-- R/W. -/
  rw : Bool
  /-- `la[31:12]` of the page. -/
  page : BitVec 20
  /-- `pa[31:12]` of the frame. -/
  frame : BitVec 20
  deriving DecidableEq, Repr

/-- The open parameters of a run that the rules compute with (R5, R90). No rule changes them. -/
structure Platform where
  /-- The domain of `PhysMap`: the ranges (base, size) of physical addresses that hold memory (R176). -/
  ram : List (Nat × Nat)
  /-- `PREFETCH_DEPTH` (R5, R183, R416). -/
  prefetchDepth : Nat
  deriving DecidableEq, Repr

/-- The machine. Each field names its rule; INVENTORY.md lists them with their reset values. -/
structure State where
  /-- The general registers (R21). -/
  regs : Regs
  /-- EIP (R22). -/
  eip : Word
  /-- EFLAGS (R24). -/
  eflags : Word
  /-- CR0, its defined bits; a reserved bit is stored as 0 and never read from here (R28, R30). -/
  cr0 : Word
  /-- CR2 (R37). -/
  cr2 : Word
  /-- CR3 (R38). -/
  cr3 : Word
  /-- The last write of CR3 gave zeros in bits 11:0 (R39, R233). -/
  cr3LowZero : Bool
  /-- DR0 (R41). -/
  dr0 : Word
  /-- DR1 (R41). -/
  dr1 : Word
  /-- DR2 (R41). -/
  dr2 : Word
  /-- DR3 (R41). -/
  dr3 : Word
  /-- DR6, its defined bits; a reserved bit is stored as 0 and never read from here (R44). -/
  dr6 : Word
  /-- DR7, its defined bits; a reserved bit is stored as 0 and never read from here (R49, R55). -/
  dr7 : Word
  /-- TR6, the testing command register (R61). Carried: its instructions are refused (R275). -/
  tr6 : Word
  /-- TR7, the TLB testing data register (R62). Carried: its instructions are refused (R275). -/
  tr7 : Word
  /-- GDTR (R65). -/
  gdtr : TableReg
  /-- IDTR (R66). -/
  idtr : TableReg
  /-- LDTR with its hidden part (R67, R68). -/
  ldtr : LdtReg
  /-- TR, the task register (R69). -/
  tr : TaskReg
  /-- The segment registers with their hidden parts (R76). -/
  seg : Segments
  /-- The translation lookaside buffer (R80, R81). -/
  tlb : List TlbEntry
  /-- `pg_changes`: how often CR0.PG has changed (R82). -/
  pgChanges : Nat
  /-- `pending_db`: the debug conditions of this step, each at its place in DR6 (R83). -/
  pendingDb : Word
  /-- Physical memory: the bytes that hold a value, by rising address (R176). -/
  mem : List Host.Cell
  /-- The open parameters (R90). -/
  platform : Platform
  /-- The exception the processor has raised, which ends the run; `none` while it runs (R350). -/
  trapped : Option Trap
  /-- How many free values have been drawn: the model's own (R14). -/
  draws : Nat
  deriving DecidableEq, Repr

/-! ### Reset -/

/-- The parameters of `Reset` (R401): a `RESET_<name>` for every value of the table of R95 (R90, R402), a
value for every register that the table leaves unspecified, and `PhysMap` with `PREFETCH_DEPTH`. -/
structure ResetParams where
  /-- The general registers: `RESET_EAX`, the result of the self-test; `RESET_EDX`, the component identifier
  in DH and the stepping in DL. -/
  regs : Regs
  /-- `RESET_EIP`. -/
  eip : Word
  /-- `RESET_EFLAGS`. -/
  eflags : Word
  /-- `RESET_PE`. -/
  pe : Bool
  /-- `RESET_MP`. -/
  mp : Bool
  /-- `RESET_EM`. -/
  em : Bool
  /-- `RESET_TS`. -/
  ts : Bool
  /-- `RESET_ET`: 1 if an 80387 is attached. -/
  et : Bool
  /-- `RESET_PG`. -/
  pg : Bool
  cr2 : Word
  cr3 : Word
  dr0 : Word
  dr1 : Word
  dr2 : Word
  dr3 : Word
  dr6 : Word
  /-- `RESET_DR7`. -/
  dr7 : Word
  tr6 : Word
  tr7 : Word
  gdtr : TableReg
  /-- `RESET_IDTR`. -/
  idtr : TableReg
  ldtr : LdtReg
  tr : TaskReg
  /-- `RESET_CS`, `RESET_SS`, `RESET_DS`, `RESET_ES`, `RESET_FS` and `RESET_GS`, with their hidden parts. -/
  seg : Segments
  tlb : List TlbEntry
  /-- The values of `PhysMap`: the bytes that hold one at reset, by rising address (R176). -/
  mem : List Host.Cell
  /-- The domain of `PhysMap`, and `PREFETCH_DEPTH`. -/
  platform : Platform
  deriving DecidableEq, Repr

/-- The attributes of every segment register after reset (R95): writable data, default size 16. -/
def resetAttr : SegAttr where
  valid := true
  p := true
  s := true
  dpl := 0
  d := false
  typ := 1
  a := true

/-- ES, SS, DS, FS and GS after reset (R95). -/
def resetSegment : Segment where
  sel := 0
  base := 0
  limit := 0xFFFF
  attr := resetAttr

/-- CS after reset (R95, R402). -/
def resetCs : Segment where
  sel := 0xF000
  base := 0xFFFF0000
  limit := 0xFFFF
  attr := resetAttr

/-- The suggested defaults of R95: no 80387, a passed self-test, component 3 and stepping 0, CS:EIP at
FFFFFFF0H, real mode, every breakpoint disabled; a register that R95 leaves unspecified is 0 and the TLB is
empty; `PREFETCH_DEPTH` 16 and memory at every physical address, none of it holding a value. Assumption log
entries 5 to 10. -/
def ResetParams.suggested : ResetParams where
  regs := { eax := 0, ecx := 0, edx := 0x00000300, ebx := 0, esp := 0, ebp := 0, esi := 0, edi := 0 }
  eip := 0x0000FFF0
  eflags := 0x00000002
  pe := false
  mp := false
  em := false
  ts := false
  et := false
  pg := false
  cr2 := 0
  cr3 := 0
  dr0 := 0
  dr1 := 0
  dr2 := 0
  dr3 := 0
  dr6 := 0
  dr7 := 0
  tr6 := 0
  tr7 := 0
  gdtr := { base := 0, limit := 0 }
  idtr := { base := 0, limit := 0x03FF }
  ldtr := { sel := 0, base := 0, limit := 0, valid := false }
  tr := { sel := 0, base := 0, limit := 0 }
  seg :=
    { es := resetSegment, cs := resetCs, ss := resetSegment, ds := resetSegment, fs := resetSegment,
      gs := resetSegment }
  tlb := []
  mem := []
  platform := { ram := [(0, 0x100000000)], prefetchDepth := 16 }

/-- CR0 from its six defined bits (R28). -/
def cr0Of (pe mp em ts et pg : Bool) : Word :=
  BitVec.ofBool pg ++ 0#26 ++ BitVec.ofBool et ++ BitVec.ofBool ts ++ BitVec.ofBool em ++
    BitVec.ofBool mp ++ BitVec.ofBool pe

/-- `Reset(params)` of R401: every register and hidden structure from its parameter, the ghosts empty, and
physical memory as `PhysMap` says. -/
def resetWith (r : ResetParams) : State where
  regs := r.regs
  eip := r.eip
  eflags := r.eflags
  cr0 := cr0Of r.pe r.mp r.em r.ts r.et r.pg
  cr2 := r.cr2
  cr3 := r.cr3
  cr3LowZero := r.cr3.extractLsb' 0 12 == 0
  dr0 := r.dr0
  dr1 := r.dr1
  dr2 := r.dr2
  dr3 := r.dr3
  dr6 := r.dr6
  dr7 := r.dr7
  tr6 := r.tr6
  tr7 := r.tr7
  gdtr := r.gdtr
  idtr := r.idtr
  ldtr := r.ldtr
  tr := r.tr
  seg := r.seg
  tlb := r.tlb
  pgChanges := 0
  pendingDb := 0
  mem := r.mem
  platform := r.platform
  trapped := none
  draws := 0

/-- The machine right after reset (R95, R401). -/
def State.reset : State := resetWith ResetParams.suggested

end Sys2Proof.Machine
end

