-- ==== Sys2Proof/Machine/Ops.lean ====
section
/-!
DEFINITION. The operations every instruction shares: results of an operation, bit fields, free values,
registers, mode and privilege, taking an exception, and bytes of physical memory (spec/00_scope.md,
spec/10_state.md, spec/60_exceptions.md).
-/

namespace Sys2Proof.Machine

/-- The outcome of an instruction or of a step. -/
abbrev Out := Host.Outcome State Fault Refusal

/-- What an operation inside an instruction answers: a value and the state it leaves, or the outcome that
ends the instruction (an exception taken, a fault, a refusal). -/
inductive Res (α : Type) where
  | ok (a : α) (s : State)
  | stop (o : Out)

/-- One operation after another: the second runs if the first did not end the instruction. -/
def Res.bind {α β : Type} (r : Res α) (f : α → State → Res β) : Res β :=
  match r with
  | .ok a s => f a s
  | .stop o => .stop o

/-- The instruction that ends with this operation. -/
def Res.thenOut {α : Type} (r : Res α) (f : α → State → Out) : Out :=
  match r with
  | .ok a s => f a s
  | .stop o => o

/-! ### Bit fields -/

/-- `old` with the bits of `mask` taken from `new`. -/
def insertBits (mask old new : Word) : Word := (old &&& ~~~mask) ||| (new &&& mask)

/-- A word with bit `i` alone set. -/
def bitMask (i : Nat) : Word := 1#32 <<< i

/-! ### Free values -/

/-- The next free value (R14). -/
def State.drawn (s : State) : Word := Config.free s.draws

/-- The state after a free value has been drawn: the next one is another (R14). -/
def State.afterDraw (s : State) : State := { s with draws := s.draws + 1 }

/-! ### General registers -/

/-- `r32[i]` (R9). -/
def Regs.get (g : Regs) : Reg → Word
  | .eax => g.eax
  | .ecx => g.ecx
  | .edx => g.edx
  | .ebx => g.ebx
  | .esp => g.esp
  | .ebp => g.ebp
  | .esi => g.esi
  | .edi => g.edi

/-- `r32[i] <- v` (R9). -/
def Regs.set (g : Regs) (r : Reg) (v : Word) : Regs :=
  match r with
  | .eax => { g with eax := v }
  | .ecx => { g with ecx := v }
  | .edx => { g with edx := v }
  | .ebx => { g with ebx := v }
  | .esp => { g with esp := v }
  | .ebp => { g with ebp := v }
  | .esi => { g with esi := v }
  | .edi => { g with edi := v }

/-- `r32[i]` (R9). -/
def State.reg (s : State) (r : Reg) : Word := s.regs.get r

/-- `r32[i] <- v` (R9). -/
def State.setReg (s : State) (r : Reg) (v : Word) : State := { s with regs := s.regs.set r v }

/-- `r16[i]`, bits 15:0 of `r32[i]` (R9). -/
def State.reg16 (s : State) (r : Reg) : Half := (s.reg r).extractLsb' 0 16

/-- `r16[i] <- v`: bits 31:16 keep their value (R9, R21). -/
def State.setReg16 (s : State) (r : Reg) (v : Half) : State :=
  s.setReg r (insertBits 0xFFFF (s.reg r) (v.zeroExtend 32))

/-! ### Segment registers -/

/-- `SEG[s]` (R76). -/
def Segments.get (g : Segments) : SegReg → Segment
  | .es => g.es
  | .cs => g.cs
  | .ss => g.ss
  | .ds => g.ds
  | .fs => g.fs
  | .gs => g.gs

/-- `SEG[s] <- v` (R76). -/
def Segments.set (g : Segments) (r : SegReg) (v : Segment) : Segments :=
  match r with
  | .es => { g with es := v }
  | .cs => { g with cs := v }
  | .ss => { g with ss := v }
  | .ds => { g with ds := v }
  | .fs => { g with fs := v }
  | .gs => { g with gs := v }

/-! ### CR0, mode and privilege -/

/-- CR0.PE (R29). -/
def State.pe (s : State) : Bool := s.cr0.getLsbD 0

/-- CR0.MP (R31). -/
def State.mp (s : State) : Bool := s.cr0.getLsbD 1

/-- CR0.EM (R32). -/
def State.em (s : State) : Bool := s.cr0.getLsbD 2

/-- CR0.TS (R33). -/
def State.ts (s : State) : Bool := s.cr0.getLsbD 3

/-- CR0.ET (R34). -/
def State.et (s : State) : Bool := s.cr0.getLsbD 4

/-- CR0.PG (R35). -/
def State.pg (s : State) : Bool := s.cr0.getLsbD 31

/-- The six defined bits of CR0: PE, MP, EM, TS, ET and PG (R27, R28). -/
def cr0Defined : Word := 0x8000001F

/-- The defined bits of DR6: B0 to B3, BD, BS and BT (R44). -/
def dr6Defined : Word := 0x0000E00F

/-- The defined bits of DR7: all but 12:10 and 15:14 (R49, R55). -/
def dr7Defined : Word := 0xFFFF23FF

/-- `CPL`: the low bits of the CS selector in protected mode, 0 in real mode (R86). -/
def State.cpl (s : State) : BitVec 2 := if s.pe then s.seg.cs.sel.extractLsb' 0 2 else 0

/-- `user`: `CPL == 3` (R10). -/
def State.user (s : State) : Bool := s.cpl == 3

/-- Protected mode at a level other than 0: where a privileged instruction may not run (R230, R260). -/
def State.unprivileged (s : State) : Bool := s.pe && s.cpl != 0

/-! ### Taking an exception -/

/-- The number of an exception (R301, R302): 1 and 14 are the source's, the others open parameters. -/
def Exc.vector : Exc → Byte
  | .db => Config.vecDebug
  | .ud => Config.vecUD
  | .nm => Config.vecNM
  | .np => Config.vecNP
  | .ss => Config.vecSS
  | .gp => Config.vecGP
  | .pf => Config.vecPageFault

/-- EFLAGS.TF's place (R24). -/
def tfMask : Word := 0x00000100

/-- EFLAGS.RF's place (R24). -/
def rfMask : Word := 0x00010000

/-- Taking an exception, which ends the run (R12, R350). EIP stays where it is: at the instruction for a
fault, past it for a trap (R303). TF becomes 0; conditions still pending are dropped (R324); the
exception, its class and its error code are recorded. Delivery through the IDT is out of scope (R4). -/
def takeException (x : Exc) (cls : ExcClass) (err : ErrorCode) (s : State) : State :=
  { s with
    eflags := s.eflags &&& ~~~tfMask
    pendingDb := 0
    trapped := some { exc := x, cls := cls, err := err } }

/-- `raise X(fault)` in the middle of an operation (R12). -/
def raiseFault {α : Type} (x : Exc) (err : ErrorCode) (s : State) : Res α :=
  .stop (.next (takeException x .fault err s))

/-- The error code `sel & FFFCH` (R315). -/
def selectorCode (sel : Half) : ErrorCode := .code (sel &&& 0xFFFC)

/-- The linear address of the IDT entry of an exception, `IDTR.base + n * 8` (R120, R351). -/
def idtEntry (x : Exc) (s : State) : Word := s.idtr.base + (x.vector.zeroExtend 32) * 8

/-- That entry lies within the IDT's limit (R351). -/
def idtEntryInside (x : Exc) (s : State) : Bool := decide (x.vector.toNat * 8 + 7 ≤ s.idtr.limit.toNat)

/-- `Privileged()` of R230: general protection in protected mode at a level other than 0; else go on. -/
def privileged (s : State) (go : Out) : Out :=
  if s.unprivileged then .next (takeException .gp .fault (.code 0) s) else go

/-! ### Bytes of physical memory -/

/-- The value that a list of cells gives an address. -/
def lookupCell : List Host.Cell → Nat → Option Byte
  | [], _ => none
  | (k, b) :: rest, a => if k = a then some b else lookupCell rest a

/-- The cells after a write: one cell for the address, at its place in the rising order. -/
def insertCell : List Host.Cell → Nat → Byte → List Host.Cell
  | [], a, b => [(a, b)]
  | (k, c) :: rest, a, b =>
    if a < k then (a, b) :: (k, c) :: rest
    else if a = k then (a, b) :: rest
    else (k, c) :: insertCell rest a b

/-- The canonical form of memory: addresses strictly rising and below 2^32. An unlisted address has no
value, so no entry equals what an unlisted address reads as. -/
def memoryWf (m : List Host.Cell) : Bool :=
  decide (m.Pairwise fun x y => x.1 < y.1) && m.all fun c => decide (c.1 < 0x100000000)

/-- The physical address is memory (R176). -/
def State.isRam (s : State) (a : Nat) : Bool :=
  s.platform.ram.any fun r => decide (r.1 ≤ a ∧ a < r.1 + r.2)

/-- The byte of physical memory at an address, if it is memory and holds a value. -/
def State.byteAt (s : State) (a : Nat) : Option Byte :=
  if s.isRam a then lookupCell s.mem a else none

/-- `PhysRead(pa, 1)` (R11, R96, R176). -/
def physReadByte (pa : Word) (s : State) : Res Byte :=
  if s.isRam pa.toNat then
    match lookupCell s.mem pa.toNat with
    | some b => .ok b s
    | none => .stop (.fault (.unwritten pa.toNat))
  else .stop (.refused (.notMemory pa.toNat))

/-- `PhysWrite(pa, 1, b)` (R11, R176). -/
def physWriteByte (pa : Word) (b : Byte) (s : State) : Res Unit :=
  if s.isRam pa.toNat then .ok () { s with mem := insertCell s.mem pa.toNat b }
  else .stop (.refused (.notMemory pa.toNat))

/-- The bytes at the addresses of a list, in its order. -/
def physReadBytes : List Word → State → Res (List Byte)
  | [], s => .ok [] s
  | pa :: rest, s =>
    (physReadByte pa s).bind fun b s => (physReadBytes rest s).bind fun bs s => .ok (b :: bs) s

/-- Bytes stored at the addresses of a list, in its order. -/
def physWriteBytes : List (Word × Byte) → State → Res Unit
  | [], s => .ok () s
  | (pa, b) :: rest, s => (physWriteByte pa b s).bind fun _ s => physWriteBytes rest s

/-- The addresses `a, a+1, ..., a+n-1`, modulo 2^32 (R8). -/
def span (a : Word) (n : Nat) : List Word := (List.range n).map fun j => a + BitVec.ofNat 32 j

/-- The number that bytes make, least significant first (R170). -/
def leNat : List Byte → Nat
  | [] => 0
  | b :: bs => b.toNat + 256 * leNat bs

/-- The `n` bytes of a number, least significant first (R170). -/
def leBytes : Nat → Nat → List Byte
  | 0, _ => []
  | n + 1, v => BitVec.ofNat 8 v :: leBytes n (v / 256)

/-- `PhysRead(pa, 4)` (R11, R170). -/
def physRead32 (pa : Word) (s : State) : Res Word :=
  (physReadBytes (span pa 4) s).bind fun bs s => .ok (BitVec.ofNat 32 (leNat bs)) s

/-- `PhysWrite(pa, 4, v)` (R11, R170). -/
def physWrite32 (pa v : Word) (s : State) : Res Unit :=
  physWriteBytes ((span pa 4).zip (leBytes 4 v.toNat)) s

end Sys2Proof.Machine
end

