-- ==== Sys2Proof/Machine/Flags.lean ====
section
/-!
DEFINITION. EFLAGS (spec/10_state.md rules R23 to R25): the flags that rules read, and the two changes
that rules make to flags other than TF on an exception.
-/

namespace Sys2Proof.Machine

/-- EFLAGS.TF, single step (R25). -/
def State.tf (s : State) : Bool := s.eflags.getLsbD 8

/-- EFLAGS.RF, resume (R323). -/
def State.rf (s : State) : Bool := s.eflags.getLsbD 16

/-- EFLAGS.VM, virtual-8086 mode (R85, R369). -/
def State.vm (s : State) : Bool := s.eflags.getLsbD 17

/-- The six status flags CF, PF, AF, ZF, SF and OF: bits 0, 2, 4, 6, 7 and 11 (R24). -/
def statusMask : Word := 0x000008D5

/-- The register moves leave the six status flags undefined and change no other flag (R230(b), R260). -/
def State.undefineStatus (s : State) : State :=
  { s with eflags := insertBits statusMask s.eflags s.drawn, draws := s.draws + 1 }

/-- `EFLAGS.RF <- 0`, at the end of every completed step (R323, R333). -/
def State.clearRf (s : State) : State := { s with eflags := s.eflags &&& ~~~rfMask }

end Sys2Proof.Machine
end

