-- ==== Sys2Proof/Machine/Debug.lean ====
section
/-!
DEFINITION. The debug facility (spec/10_state.md rules R40 to R56, spec/60_exceptions.md rules R320 to
R336): breakpoints, what they match, and the debug exception.
-/

namespace Sys2Proof.Machine

/-- The kinds of access (R11). -/
inductive AccessKind where
  | read
  | write
  | fetch
  deriving DecidableEq, Repr

/-- DR0 to DR3 by number (R41). -/
def State.breakpoint (s : State) (i : Fin 4) : Word :=
  match i with
  | 0 => s.dr0
  | 1 => s.dr1
  | 2 => s.dr2
  | 3 => s.dr3

/-- DR7.Li or DR7.Gi is set: breakpoint i is enabled (R54, R326), in a value of DR7. -/
def enabledIn (dr7 : Word) (i : Fin 4) : Bool :=
  dr7.getLsbD (2 * i.val) || dr7.getLsbD (2 * i.val + 1)

/-- DR7.RWi (R49, R51), in a value of DR7. -/
def rwIn (dr7 : Word) (i : Fin 4) : BitVec 2 := dr7.extractLsb' (16 + 4 * i.val) 2

/-- DR7.LENi (R49, R50), in a value of DR7. -/
def lenIn (dr7 : Word) (i : Fin 4) : BitVec 2 := dr7.extractLsb' (18 + 4 * i.val) 2

/-- DR7.GD (R52). -/
def State.gd (s : State) : Bool := s.dr7.getLsbD 13

/-- DR7.GE or DR7.LE is set: data breakpoint traps are exact (R53, R325). -/
def State.exact (s : State) : Bool := s.dr7.getLsbD 9 || s.dr7.getLsbD 8

/-- DR7.GD's place (R49). -/
def gdMask : Word := 0x00002000

/-- DR6.BD's place (R44). -/
def bdMask : Word := 0x00002000

/-- DR6.BS's place (R44). -/
def bsMask : Word := 0x00004000

/-- DR6.BT's place (R44). -/
def btMask : Word := 0x00008000

/-- `BpField(i)` of R56 from an address register and a length: the watched bytes, `none` for the undefined
length 10B. -/
def bpField (len : BitVec 2) (dr : Word) : Option (List Word) :=
  match len.toNat with
  | 0 => some [dr]
  | 1 => some (span (dr &&& ~~~1#32) 2)
  | 3 => some (span (dr &&& ~~~3#32) 4)
  | _ => none

/-- The bits B0 to B3 of the breakpoints that are not enabled. -/
def disabledMask (dr7 : Word) : Word :=
  (if enabledIn dr7 0 then 0 else bitMask 0) ||| (if enabledIn dr7 1 then 0 else bitMask 1) |||
    (if enabledIn dr7 2 then 0 else bitMask 2) ||| (if enabledIn dr7 3 then 0 else bitMask 3)

/-- Raising exception 1 with the bits `b` of DR6: they are set, `OtherB()` may set Bi of a breakpoint that
is not enabled (R327), `DebugEntry()` clears GD and TF (R330), and the exception is taken (R350). DR6 is
only ever added to (R43, R331). -/
def debugException (cls : ExcClass) (b : Word) (s : State) : State :=
  takeException .db cls .none
    { s with
      dr6 := s.dr6 ||| b ||| (s.drawn &&& disabledMask s.dr7)
      dr7 := s.dr7 &&& ~~~gdMask
      draws := s.draws + 1 }

/-- The bits Bi of the enabled execution breakpoints at a linear address (R322). -/
def executionHits (s : State) (la : Word) : Word :=
  let hit := fun i : Fin 4 => enabledIn s.dr7 i && rwIn s.dr7 i == 0 && s.breakpoint i == la
  (if hit 0 then bitMask 0 else 0) ||| (if hit 1 then bitMask 1 else 0) |||
    (if hit 2 then bitMask 2 else 0) ||| (if hit 3 then bitMask 3 else 0)

/-- The instruction breakpoint check on the linear address of an instruction's first byte (R322). -/
def instrBreakpoint (la : Word) (s : State) : Res Unit :=
  if executionHits s la ≠ 0 ∧ s.rf = false then
    .stop (.next (debugException .fault (executionHits s la) s))
  else .ok () s

/-- `BpCond` of R321 for a data access of kind `k` to the bytes `bytes`: whether breakpoint i matches, or
the refusal of an undefined RW or LEN. -/
def dataCond (dr7 dr : Word) (i : Fin 4) (k : AccessKind) (bytes : List Word) : Except Refusal Bool :=
  match (rwIn dr7 i).toNat with
  | 0 => .ok false
  | 2 => .error .undefinedRw
  | rw =>
    if k = .write ∨ rw = 3 then
      match bpField (lenIn dr7 i) dr with
      | some field => .ok (bytes.any fun b => field.contains b)
      | none => .error .undefinedLen
    else .ok false

/-- The data breakpoint check for breakpoint i (R324, R325). -/
def dataBreakpoint (k : AccessKind) (bytes : List Word) (i : Fin 4) (s : State) : Res Unit :=
  if enabledIn s.dr7 i then
    match dataCond s.dr7 (s.breakpoint i) i k bytes with
    | .error r => .stop (.refused r)
    | .ok false => .ok () s
    | .ok true =>
      if s.exact then .ok () { s with pendingDb := s.pendingDb ||| bitMask i.val }
      else .stop (.refused .inexactDataBreakpoint)
  else .ok () s

/-- The data breakpoint check of an n-byte operand at linear address `la` (R324). -/
def dataBreakpoints (k : AccessKind) (la : Word) (n : Nat) (s : State) : Res Unit :=
  (dataBreakpoint k (span la n) 0 s).bind fun _ s =>
  (dataBreakpoint k (span la n) 1 s).bind fun _ s =>
  (dataBreakpoint k (span la n) 2 s).bind fun _ s =>
    dataBreakpoint k (span la n) 3 s

/-- `DebugAccess()` of R260: privilege, then GD; else go on. -/
def debugAccess (s : State) (go : Out) : Out :=
  privileged s (if s.gd then .next (debugException .fault bdMask s) else go)

end Sys2Proof.Machine
end

