-- ==== Sys2Proof/Machine/Paging.lean ====
section
/-!
DEFINITION. Page translation, the TLB and linear accesses (spec/20_memory.md rules R132 to R163), and the
prefetch window of spec/70_reset_and_hazards.md rule R416.
-/

namespace Sys2Proof.Machine

/-- `acc`: what an access is and on whose behalf (R11). -/
structure Access where
  kind : AccessKind
  user : Bool
  deriving DecidableEq, Repr

/-- `la[31:12]`, the linear page (R132). -/
def pageOf (la : Word) : BitVec 20 := la.extractLsb' 12 20

/-- `la[11:0]`, the offset in the page (R132). -/
def offsetOf (la : Word) : BitVec 12 := la.extractLsb' 0 12

/-- `frame ++ la[11:0]` (R151). -/
def physOf (frame : BitVec 20) (la : Word) : Word := frame ++ offsetOf la

/-- `PdeAddr(la)`: `CR3[31:12] ++ la[31:22] ++ 00B` (R135). -/
def pdeAddr (cr3 la : Word) : Word := cr3.extractLsb' 12 20 ++ la.extractLsb' 22 10 ++ 0#2

/-- `PteAddr(pde, la)`: `pde[31:12] ++ la[21:12] ++ 00B` (R138). -/
def pteAddr (pde la : Word) : Word := pde.extractLsb' 12 20 ++ la.extractLsb' 12 10 ++ 0#2

/-- P of an entry (R136, R139). -/
def entryP (e : Word) : Bool := e.getLsbD 0

/-- R/W of an entry (R136, R139). -/
def entryRw (e : Word) : Bool := e.getLsbD 1

/-- U/S of an entry (R136, R139). -/
def entryUs (e : Word) : Bool := e.getLsbD 2

/-- A of an entry (R136, R139). -/
def entryA (e : Word) : Bool := e.getLsbD 5

/-- `Permitted(us, rw, acc)` (R147). -/
def permitted (us rw : Bool) (acc : Access) : Bool :=
  if !acc.user then true
  else if !us then false
  else if acc.kind = .write then rw
  else true

/-- `PageFault(la, acc, present)`: CR2 is loaded and exception 14 taken (R150, R305, R306). -/
def pageFault (la : Word) (acc : Access) (present : Bool) (s : State) : State :=
  takeException .pf .fault (.page present (acc.kind = .write) acc.user) { s with cr2 := la }

/-- A valid entry for a linear page, if the TLB holds one (R157). -/
def tlbFind (tlb : List TlbEntry) (page : BitVec 20) : Option TlbEntry :=
  tlb.find? fun e => e.v && e.page == page

/-- The TLB without its entries for a linear page (R160). -/
def tlbDrop (tlb : List TlbEntry) (page : BitVec 20) : List TlbEntry :=
  tlb.filter fun e => e.page != page

/-- The capacity of the TLB (R155). -/
def tlbCapacity : Nat := 32

/-- The TLB after an entry is stored: it replaces the entries of its page, and where the TLB is full the
entry that `pick` names is dropped (R157, R158). -/
def tlbInsert (tlb : List TlbEntry) (e : TlbEntry) (pick : Word) : List TlbEntry :=
  let rest := tlbDrop tlb e.page
  if rest.length < tlbCapacity then e :: rest
  else e :: (rest.eraseIdx (pick.toNat % rest.length)).take (tlbCapacity - 1)

/-- Storing an entry in the TLB: a free value chooses what a full TLB drops (R158). -/
def tlbStore (e : TlbEntry) (s : State) : State :=
  { s with tlb := tlbInsert s.tlb e s.drawn, draws := s.draws + 1 }

/-- The directory entry with A set, written back where it was clear (R141, R143). -/
def setPdeA (pa1 pde : Word) (s : State) : Res Unit :=
  if entryA pde then .ok () s else physWrite32 pa1 (pde ||| 0x20) s

/-- A walk that faults at the page table entry: whether the directory entry's A was written is a free
value (R143). `s0` is the state before that write, `s` the state after it. -/
def faultAtPte (pde la : Word) (acc : Access) (present : Bool) (s0 s : State) : State :=
  if entryA pde then pageFault la acc present s
  else pageFault la acc present (if s.drawn.getLsbD 0 then s.afterDraw else s0.afterDraw)

/-- The page table entry as a walk leaves it: A set, and D on a write (R141, R143, R144). -/
def touchedPte (pte : Word) (acc : Access) : Word :=
  pte ||| 0x20 ||| (if acc.kind = .write then 0x40 else 0)

/-- The end of a walk, the page table entry found present and the access permitted: A and D in memory,
the entry in the TLB, the frame as the answer (R141, R158). -/
def finishWalk (pa2 pde pte la : Word) (acc : Access) (s : State) : Res (BitVec 20) :=
  let new := touchedPte pte acc
  (if new = pte then .ok () s else physWrite32 pa2 new s).bind fun _ s =>
    .ok (pte.extractLsb' 12 20)
      (tlbStore
        { v := true, d := new.getLsbD 6, us := entryUs pde && entryUs pte,
          rw := entryRw pde && entryRw pte, page := pageOf la, frame := pte.extractLsb' 12 20 } s)

/-- The walk of the page directory and a page table (R141). -/
def walk (la : Word) (acc : Access) (s : State) : Res (BitVec 20) :=
  (physRead32 (pdeAddr s.cr3 la) s).bind fun pde s =>
    if entryP pde = false then .stop (.next (pageFault la acc false s))
    else
      (setPdeA (pdeAddr s.cr3 la) pde s).bind fun _ s1 =>
      (physRead32 (pteAddr pde la) s1).bind fun pte s1 =>
        if entryP pte = false then .stop (.next (faultAtPte pde la acc false s s1))
        else if permitted (entryUs pde && entryUs pte) (entryRw pde && entryRw pte) acc = false then
          .stop (.next (faultAtPte pde la acc true s s1))
        else finishWalk (pteAddr pde la) pde pte la acc s1

/-- `PageTranslate(la, acc)` (R141). A free value says whether a matching TLB entry is used; one that is
not used is dropped first (R160). A write through an entry whose D is 0 walks (R159). -/
def pageTranslate (la : Word) (acc : Access) (s : State) : Res (BitVec 20) :=
  if s.pg = false then .ok (pageOf la) s
  else
    match tlbFind s.tlb (pageOf la) with
    | none => walk la acc s
    | some e =>
      if s.drawn.getLsbD 0 then
        if permitted e.us e.rw acc = false then .stop (.next (pageFault la acc true s.afterDraw))
        else if acc.kind = .write ∧ e.d = false then walk la acc s.afterDraw
        else .ok e.frame s.afterDraw
      else walk la acc { s.afterDraw with tlb := tlbDrop s.tlb (pageOf la) }

/-- How many of `n` bytes from `la` lie in the first page (R140). -/
def firstPiece (la : Word) (n : Nat) : Nat := min n (4096 - (offsetOf la).toNat)

/-- The physical addresses of the `n` bytes from linear address `la`: each page piece is translated, the
lower first, before any byte is moved (R140). `n` is at most 8, so there are at most two pieces. -/
def linTranslate (la : Word) (n : Nat) (acc : Access) (s : State) : Res (List Word) :=
  (pageTranslate la acc s).bind fun frame s =>
    let first := (span la (firstPiece la n)).map (physOf frame)
    if firstPiece la n = n then .ok first s
    else
      let la2 := la + BitVec.ofNat 32 (firstPiece la n)
      (pageTranslate la2 acc s).bind fun frame2 s =>
        .ok (first ++ (span la2 (n - firstPiece la n)).map (physOf frame2)) s

/-- `LinRead(la, n, acc)`, as bytes (R140). -/
def linRead (la : Word) (n : Nat) (acc : Access) (s : State) : Res (List Byte) :=
  (linTranslate la n acc s).bind fun pas s => physReadBytes pas s

/-- `LinWrite(la, n, v, acc)`, of the bytes `bs` (R140). -/
def linWrite (la : Word) (bs : List Byte) (acc : Access) (s : State) : Res Unit :=
  (linTranslate la bs.length acc s).bind fun pas s => physWriteBytes (pas.zip bs) s

/-! ### The prefetch window -/

/-- `PureWalk(cr3, la)`: reads only (R416). -/
def pureWalk (cr3 la : Word) (s : State) : Res (Option Word) :=
  (physRead32 (pdeAddr cr3 la) s).bind fun pde s =>
    if entryP pde = false then .ok none s
    else
      (physRead32 (pteAddr pde la) s).bind fun pte s =>
        if entryP pte = false then .ok none s
        else .ok (some (physOf (pte.extractLsb' 12 20) la)) s

/-- `Phys(pg, cr3, la)` (R416). -/
def physUnder (pg : Bool) (cr3 la : Word) (s : State) : Res (Option Word) :=
  if pg then pureWalk cr3 la s else .ok (some la) s

/-- A linear address maps to one physical address under the old and the new setting (R416). -/
def stableAt (pgOld : Bool) (cr3Old : Word) (pgNew : Bool) (cr3New la : Word) (s : State) : Res Bool :=
  (physUnder pgNew cr3New la s).bind fun new s =>
    match new with
    | none => .ok false s
    | some pa => (physUnder pgOld cr3Old la s).bind fun old s => .ok (old == some pa) s

/-- The test of R416 over the addresses of a list, in its order. -/
def allStable (pgOld : Bool) (cr3Old : Word) (pgNew : Bool) (cr3New : Word) :
    List Word → State → Res Bool
  | [], s => .ok true s
  | la :: rest, s =>
    (stableAt pgOld cr3Old pgNew cr3New la s).bind fun b s =>
      if b then allStable pgOld cr3Old pgNew cr3New rest s else .ok false s

/-- The linear address of the byte after an instruction of `len` bytes (R416). -/
def nextLinear (len : Nat) (s : State) : Word := s.seg.cs.base + s.eip + BitVec.ofNat 32 len

/-- `FetchWindowStable` (R416), for an instruction of `len` bytes. -/
def fetchWindowStable (len : Nat) (pgOld : Bool) (cr3Old : Word) (pgNew : Bool) (cr3New : Word)
    (s : State) : Res Bool :=
  allStable pgOld cr3Old pgNew cr3New (span (nextLinear len s) s.platform.prefetchDepth) s

end Sys2Proof.Machine
end

