-- ==== Sys2Proof/Machine/Segment.lean ====
section
/-!
DEFINITION. Segmentation (spec/20_memory.md rules R104 to R131): descriptors, selectors, descriptor
fetch, the translation of a logical address, and the model operations that load the table registers and
the segment registers.
-/

namespace Sys2Proof.Machine

/-! ### Descriptors and selectors -/

/-- `BASE(d)`, its three parts combined (R105, R106). -/
def descBase (d : BitVec 64) : Word := d.extractLsb' 56 8 ++ d.extractLsb' 32 8 ++ d.extractLsb' 16 16

/-- `LIMIT(d)` (R106, R108). -/
def descLimit (d : BitVec 64) : BitVec 20 := d.extractLsb' 48 4 ++ d.extractLsb' 0 16

/-- G (R106). -/
def descG (d : BitVec 64) : Bool := d.getLsbD 55

/-- D (R106). -/
def descD (d : BitVec 64) : Bool := d.getLsbD 54

/-- P (R106). -/
def descP (d : BitVec 64) : Bool := d.getLsbD 47

/-- DPL (R106). -/
def descDpl (d : BitVec 64) : BitVec 2 := d.extractLsb' 45 2

/-- S (R106). -/
def descS (d : BitVec 64) : Bool := d.getLsbD 44

/-- TYPE (R106). -/
def descType (d : BitVec 64) : BitVec 3 := d.extractLsb' 41 3

/-- A (R106). -/
def descA (d : BitVec 64) : Bool := d.getLsbD 40

/-- `d[43:40]`, the type of a system descriptor (R111). -/
def descSystemType (d : BitVec 64) : BitVec 4 := d.extractLsb' 40 4

/-- `EffLimit(LIMIT, G)` (R109). -/
def effLimit (limit : BitVec 20) (g : Bool) : Word :=
  if g then limit ++ 0xFFF#12 else limit.zeroExtend 32

/-- TYPE of a code segment (R111). -/
def typeCode (t : BitVec 3) : Bool := t.getLsbD 2

/-- Bit 1 of TYPE: expand-down for data, conforming for code (R111). -/
def typeEC (t : BitVec 3) : Bool := t.getLsbD 1

/-- Bit 0 of TYPE: writable for data, readable for code (R111). -/
def typeRW (t : BitVec 3) : Bool := t.getLsbD 0

/-- Index of a selector (R122). -/
def selIndex (sel : Half) : BitVec 13 := sel.extractLsb' 3 13

/-- TI of a selector: 1 for the current LDT (R121, R122). -/
def selTi (sel : Half) : Bool := sel.getLsbD 2

/-- RPL of a selector (R122). -/
def selRpl (sel : Half) : BitVec 2 := sel.extractLsb' 0 2

/-- The null selector: Index 0 and TI 0 (R125). -/
def selNull (sel : Half) : Bool := sel.extractLsb' 2 14 == 0

/-- Supervisor accesses the processor makes to the descriptor tables (R130). -/
def tableAccess (k : AccessKind) : Access := { kind := k, user := false }

/-- The base and the limit of the table a selector refers to; `none` where TI is 1 and there is no LDT
(R123). -/
def tableOf (sel : Half) (s : State) : Option (Word × Half) :=
  if selTi sel = false then some (s.gdtr.base, s.gdtr.limit)
  else if s.ldtr.valid then some (s.ldtr.base, s.ldtr.limit)
  else none

/-- `Index * 8` (R121, R123). -/
def tableOffset (sel : Half) : Word := (selIndex sel).zeroExtend 32 * 8

/-- `FetchDescriptor(sel)` (R123), with the linear address the descriptor was read from. -/
def fetchDescriptorAt (sel : Half) (s : State) : Res (Word × BitVec 64) :=
  match tableOf sel s with
  | none => raiseFault .gp (selectorCode sel) s
  | some (tbase, tlimit) =>
    if (tableOffset sel).toNat + 7 > tlimit.toNat then raiseFault .gp (selectorCode sel) s
    else
      (linRead (tbase + tableOffset sel) 8 (tableAccess .read) s).bind fun bs s =>
        .ok (tbase + tableOffset sel, BitVec.ofNat 64 (leNat bs)) s

/-- `FetchDescriptor(sel)` (R123). -/
def fetchDescriptor (sel : Half) (s : State) : Res (BitVec 64) :=
  (fetchDescriptorAt sel s).bind fun ad s => .ok ad.2 s

/-! ### Segment translation -/

/-- `InLimit(s, off, n)` (R129). -/
def inLimit (g : Segment) (off : Word) (n : Nat) : Bool :=
  if !typeCode g.attr.typ && typeEC g.attr.typ then
    let top : Word := if g.attr.d then 0xFFFFFFFF else 0x0000FFFF
    decide (g.limit.toNat < off.toNat ∧ off.toNat ≤ top.toNat ∧ n - 1 ≤ top.toNat - off.toNat)
  else decide (off.toNat ≤ g.limit.toNat ∧ n - 1 ≤ g.limit.toNat - off.toNat)

/-- `GPorSS(s)` (R128). -/
def segViolation (r : SegReg) : Exc := if r = .ss then .ss else .gp

/-- The access-kind tests of R128; a fetch is not tested. -/
def kindAllowed (t : BitVec 3) (k : AccessKind) : Bool :=
  match k with
  | .write => !typeCode t && typeRW t
  | .read => !typeCode t || typeRW t
  | .fetch => true

/-- `SegTranslate(s, off, n, k)` (R128, R131). -/
def segTranslate (r : SegReg) (off : Word) (n : Nat) (k : AccessKind) (s : State) : Res Word :=
  if s.pe = false ∧ k ≠ .fetch then .stop (.refused .realModeOperand)
  else if s.pe = true ∧ (s.seg.get r).attr.valid = false then raiseFault .gp (.code 0) s
  else if s.pe = true ∧ kindAllowed (s.seg.get r).attr.typ k = false then
    raiseFault (segViolation r) (.code 0) s
  else if inLimit (s.seg.get r) off n = false then raiseFault (segViolation r) (.code 0) s
  else .ok ((s.seg.get r).base + off) s

/-! ### Model operations with no encoding (R124, R127) -/

/-- `SetGDTR(base, limit)` (R124). -/
def setGdtr (base : Word) (limit : Half) (s : State) : State :=
  { s with gdtr := { base := base, limit := limit } }

/-- `SetIDTR(base, limit)` (R124). -/
def setIdtr (base : Word) (limit : Half) (s : State) : State :=
  { s with idtr := { base := base, limit := limit } }

/-- `LoadLDTR(sel)` (R124). -/
def loadLdtr (sel : Half) (s : State) : Res Unit :=
  if selNull sel then .ok () { s with ldtr := { s.ldtr with sel := sel, valid := false } }
  else if selTi sel then raiseFault .gp (selectorCode sel) s
  else
    (fetchDescriptor sel s).bind fun d s =>
      if descS d ∨ descSystemType d ≠ 2 then raiseFault .gp (selectorCode sel) s
      else if descP d = false then raiseFault .np (selectorCode sel) s
      else
        .ok ()
          { s with
            ldtr :=
              { sel := sel, base := descBase d,
                limit := (effLimit (descLimit d) (descG d)).extractLsb' 0 16, valid := true } }

/-- The type and privilege tests for SS (R127). -/
def stackLoadable (d : BitVec 64) (sel : Half) (cpl : BitVec 2) : Bool :=
  !typeCode (descType d) && typeRW (descType d) && selRpl sel == cpl && descDpl d == cpl

/-- The type and privilege tests for DS, ES, FS and GS (R127). -/
def dataLoadable (d : BitVec 64) (sel : Half) (cpl : BitVec 2) : Bool :=
  !(typeCode (descType d) && !typeRW (descType d)) &&
    ((typeCode (descType d) && typeEC (descType d)) ||
      decide (max cpl.toNat (selRpl sel).toNat ≤ (descDpl d).toNat))

/-- The tests of R127 on a descriptor: the exception it raises, if it raises one. -/
def loadFault (r : SegReg) (d : BitVec 64) (sel : Half) (cpl : BitVec 2) : Option Exc :=
  if descS d = false then some .gp
  else if r = .ss then
    if stackLoadable d sel cpl = false then some .gp
    else if descP d = false then some .ss
    else none
  else if dataLoadable d sel cpl = false then some .gp
  else if descP d = false then some .np
  else none

/-- What a segment register holds after a load (R127). The descriptor's A is set by then, so the copy's A
is 1: DEDUCED, assumption log entry 16. -/
def loadedSegment (sel : Half) (d : BitVec 64) : Segment where
  sel := sel
  base := descBase d
  limit := effLimit (descLimit d) (descG d)
  attr :=
    { valid := true, p := descP d, s := descS d, dpl := descDpl d, d := descD d, typ := descType d,
      a := true }

/-- `SEG[s] <- v` on the state. -/
def State.setSeg (s : State) (r : SegReg) (v : Segment) : State := { s with seg := s.seg.set r v }

/-- A null selector loaded into a register other than SS: the register holds no descriptor (R125, R127). -/
def nullSegment (sel : Half) (old : Segment) : Segment :=
  { old with sel := sel, attr := { old.attr with valid := false } }

/-- `LoadSeg(s, sel)` (R127). CS is loaded by control transfers only, none of which is in scope. -/
def loadSeg (r : SegReg) (sel : Half) (s : State) : Res Unit :=
  if r = .cs then .stop (.refused .csLoad)
  else if s.pe = false then .stop (.refused .realModeSegmentLoad)
  else if selNull sel then
    if r = .ss then raiseFault .gp (.code 0) s
    else .ok () (s.setSeg r (nullSegment sel (s.seg.get r)))
  else
    (fetchDescriptorAt sel s).bind fun ad s =>
      match loadFault r ad.2 sel s.cpl with
      | some x => raiseFault x (selectorCode sel) s
      | none =>
        (if descA ad.2 then .ok () s
          else
            linWrite (ad.1 + 5) [ad.2.extractLsb' 40 8 ||| 1] (tableAccess .write) s).bind fun _ s =>
          .ok () (s.setSeg r (loadedSegment sel ad.2))

end Sys2Proof.Machine
end

