-- ==== Sys2Proof/Machine/Operands.lean ====
section
/-!
DEFINITION. The operands of LMSW and SMSW (spec/30_encoding.md rules R205 to R209, spec/00_scope.md rule
R11): effective addresses, `MemRead` and `MemWrite`.
-/

namespace Sys2Proof.Machine

/-! ### Effective addresses -/

/-- The 16-bit base of an operand (R207). -/
def base16Value (b : Base16) (s : State) : Half :=
  match b with
  | .bxSi => s.reg16 .ebx + s.reg16 .esi
  | .bxDi => s.reg16 .ebx + s.reg16 .edi
  | .bpSi => s.reg16 .ebp + s.reg16 .esi
  | .bpDi => s.reg16 .ebp + s.reg16 .edi
  | .si => s.reg16 .esi
  | .di => s.reg16 .edi
  | .bp => s.reg16 .ebp
  | .bx => s.reg16 .ebx

/-- The displacement of 16-bit addressing; `disp8` is sign-extended (R207, R217). -/
def disp16Value : Disp16 → Half
  | .none => 0
  | .d8 d => d.signExtend 16
  | .d16 d => d

/-- The displacement of 32-bit addressing; `disp8` is sign-extended (R205, R217). -/
def disp32Value : Disp32 → Word
  | .none => 0
  | .d8 d => d.signExtend 32
  | .d32 d => d

/-- `idx` of R206: no index where its number is 100B, else the register times 1, 2, 4 or 8. -/
def indexValue (scale : BitVec 2) (index : Reg) (s : State) : Word :=
  if index = .esp then 0 else s.reg index <<< scale.toNat

/-- The offset of a memory operand: modulo 2^32 in 32-bit addressing, modulo 2^16 and zero-extended in
16-bit addressing (R205 to R207). -/
def effectiveAddress (m : MemOperand) (s : State) : Word :=
  match m with
  | .direct16 d => d.zeroExtend 32
  | .base16 b d => (base16Value b s + disp16Value d).zeroExtend 32
  | .direct32 d => d
  | .base32 b d => s.reg b + disp32Value d
  | .sib scale index base d => s.reg base + indexValue scale index s + disp32Value d
  | .sibDirect scale index d => d + indexValue scale index s

/-- The default segment of a 16-bit base: SS where BP is in it (R207). -/
def base16Segment : Base16 → SegReg
  | .bpSi => .ss
  | .bpDi => .ss
  | .bp => .ss
  | .bxSi => .ds
  | .bxDi => .ds
  | .si => .ds
  | .di => .ds
  | .bx => .ds

/-- The default segment of a 32-bit base register: SS for EBP, and for ESP behind a SIB byte (R205, R206). -/
def base32Segment (b : Reg) : SegReg := if b = .esp ∨ b = .ebp then .ss else .ds

/-- The default segment of a memory operand (R205 to R207). -/
def defaultSegment : MemOperand → SegReg
  | .direct16 _ => .ds
  | .base16 b _ => base16Segment b
  | .direct32 _ => .ds
  | .base32 b _ => base32Segment b
  | .sib _ _ b _ => base32Segment b
  | .sibDirect _ _ _ => .ds

/-- The segment of a memory operand: the override if there is one (R208). -/
def operandSegment (p : Prefixes) (m : MemOperand) : SegReg := p.seg.getD (defaultSegment m)

/-- The operand size of SMSW is 32: the default of the code segment, or the other one after 66H (R77,
R208, R209). -/
def operandSize32 (p : Prefixes) (s : State) : Bool := s.seg.cs.attr.d ^^ p.opsize

/-! ### Reading and writing -/

/-- An access of an operand is made at CPL (R130). -/
def operandAccess (k : AccessKind) (s : State) : Access := { kind := k, user := s.user }

/-- `MemRead((r, off), n)`, as bytes: segment translation, the data breakpoint check, `LinRead` (R11). -/
def memRead (r : SegReg) (off : Word) (n : Nat) (s : State) : Res (List Byte) :=
  (segTranslate r off n .read s).bind fun la s =>
  (dataBreakpoints .read la n s).bind fun _ s => linRead la n (operandAccess .read s) s

/-- The store of `n` bytes at linear address `la` touches the storing instruction, of `len` bytes, or the
`PREFETCH_DEPTH` bytes that follow it (R183). -/
def intoStream (len : Nat) (la : Word) (n : Nat) (s : State) : Bool :=
  (span la n).any fun a =>
    decide ((a - (s.seg.cs.base + s.eip)).toNat < len + s.platform.prefetchDepth)

/-- `MemWrite((r, off), n, v)` of the bytes `bs`, by an instruction of `len` bytes: segment translation, the
data breakpoint check, the translation of every page, the refusal of R183, the bytes (R11, R140). That
R183 comes after the exceptions is DEDUCED, assumption log entry 15. -/
def memWrite (len : Nat) (r : SegReg) (off : Word) (bs : List Byte) (s : State) : Res Unit :=
  (segTranslate r off bs.length .write s).bind fun la s =>
  (dataBreakpoints .write la bs.length s).bind fun _ s =>
  (linTranslate la bs.length (operandAccess .write s) s).bind fun pas s =>
    if intoStream len la bs.length s then .stop (.refused .storeIntoStream)
    else physWriteBytes (pas.zip bs) s

/-- The 16-bit source of LMSW (R238). -/
def readRm16 (p : Prefixes) (o : RM16) (s : State) : Res Half :=
  match o with
  | .reg r => .ok (s.reg16 r) s
  | .mem m =>
    (memRead (operandSegment p m) (effectiveAddress m s) 2 s).bind fun bs s =>
      .ok (BitVec.ofNat 16 (leNat bs)) s

end Sys2Proof.Machine
end

