-- ==== Sys2Proof/Machine/ControlMoves.lean ====
section
/-!
DEFINITION. The moves to and from the control registers (spec/40_control_register_instructions.md rules
R230 to R237, R241, R242). Each instruction has a definition of its own.
-/

namespace Sys2Proof.Machine

/-! ### What they share -/

/-- The end of a move to a general register: the value, and the status flags undefined (R230(b), R260). -/
def moveToReg (rm : Reg) (v : Word) (s : State) : Out := .next (s.setReg rm v).undefineStatus

/-- The end of a move to a special register: the status flags undefined (R230(b), R260). -/
def moveDone (s : State) : Out := .next s.undefineStatus

/-- CR0 as MOV reads it: the defined bits, and free values in bits 30:5 (R30, R231). -/
def readCr0 (s : State) : Word := insertBits cr0Defined s.drawn s.cr0

/-- The value of CR3 as MOV reads it: bits 11:0 are zero if zeros were last written there, else free (R39,
R233). -/
def readCr3 (s : State) : Word :=
  if s.cr3LowZero then s.cr3 &&& ~~~0xFFF#32 else insertBits 0xFFF s.cr3 s.drawn

/-- `PEChange(1)` where PE is set while the CS selector's low bits are not 0: refused (R241). -/
def peChangeRefused (s : State) (newPe : Bool) : Bool :=
  !s.pe && newPe && s.seg.cs.sel.extractLsb' 0 2 != 0

/-- The write of CR0 by MOV, its tests passed: the defined bits (R234). -/
def writeCr0 (v : Word) (s : State) : State :=
  { s with
    cr0 := v &&& cr0Defined
    pgChanges := if v.getLsbD 31 = s.pg then s.pgChanges else s.pgChanges + 1 }

/-- The part of `MOV CR0, r32` after the tests on PG: `PEChange`, then the write (R234, R241). -/
def finishCr0 (v : Word) (s : State) : Out :=
  if peChangeRefused s (v.getLsbD 0) then .refused .cplAfterPeSet else moveDone (writeCr0 v s)

/-- The operation of `MOV CR0, r32` (R234), by an instruction of `len` bytes. -/
def loadCr0 (len : Nat) (v : Word) (s : State) : Out :=
  if v.getLsbD 31 ∧ v.getLsbD 0 = false then .refused .pagingWithoutProtection
  else if v.getLsbD 31 = s.pg then finishCr0 v s
  else if s.pgChanges ≥ 1 then .refused .pgChangedTwice
  else
    (fetchWindowStable len s.pg s.cr3 (v.getLsbD 31) s.cr3 s).thenOut fun stable s =>
      if stable then finishCr0 v s else .refused .codeMappingChanges

/-- The write of CR3: bits 31:12, bits 11:0 zero if zeros are written and free otherwise, the TLB emptied
(R39, R161, R236). -/
def writeCr3 (v : Word) (s : State) : State :=
  if v.extractLsb' 0 12 = 0 then { s with cr3 := v, cr3LowZero := true, tlb := [] }
  else
    { s with
      cr3 := insertBits 0xFFF v s.drawn
      cr3LowZero := false
      tlb := []
      draws := s.draws + 1 }

/-- The operation of `MOV CR3, r32` (R236), by an instruction of `len` bytes. -/
def loadCr3 (len : Nat) (v : Word) (s : State) : Out :=
  if s.pg then
    (fetchWindowStable len true s.cr3 true v s).thenOut fun stable s =>
      if stable then moveDone (writeCr3 v s) else .refused .codeMappingChanges
  else moveDone (writeCr3 v s)

/-! ### The instructions -/

/-- MOV r32, CR0 (R231). -/
def execMovR32Cr0 (_p : Prefixes) (rm : Reg) (s : State) : Out :=
  privileged s (moveToReg rm (readCr0 s) s.afterDraw)

/-- MOV r32, CR2 (R232). -/
def execMovR32Cr2 (_p : Prefixes) (rm : Reg) (s : State) : Out :=
  privileged s (moveToReg rm s.cr2 s)

/-- MOV r32, CR3 (R233). -/
def execMovR32Cr3 (_p : Prefixes) (rm : Reg) (s : State) : Out :=
  privileged s (moveToReg rm (readCr3 s) s.afterDraw)

/-- MOV CR0, r32 (R234). -/
def execMovCr0R32 (p : Prefixes) (rm : Reg) (s : State) : Out :=
  privileged s (loadCr0 (movLength p) (s.reg rm) s)

/-- MOV CR2, r32 (R235). -/
def execMovCr2R32 (_p : Prefixes) (rm : Reg) (s : State) : Out :=
  privileged s (moveDone { s with cr2 := s.reg rm })

/-- MOV CR3, r32 (R236). -/
def execMovCr3R32 (p : Prefixes) (rm : Reg) (s : State) : Out :=
  privileged s (loadCr3 (movLength p) (s.reg rm) s)

/-- MOV r32, CR1: the privilege check, then refused (R230, R237). -/
def execMovR32Cr1 (_p : Prefixes) (_rm : Reg) (s : State) : Out :=
  privileged s (.refused .reservedControlRegister)

/-- MOV r32, CR4 to CR7: the privilege check, then refused (R230, R237). -/
def execMovR32Cr4to7 (_p : Prefixes) (_n : BitVec 2) (_rm : Reg) (s : State) : Out :=
  privileged s (.refused .reservedControlRegister)

/-- MOV CR1, r32: the privilege check, then refused (R230, R237). -/
def execMovCr1R32 (_p : Prefixes) (_rm : Reg) (s : State) : Out :=
  privileged s (.refused .reservedControlRegister)

/-- MOV CR4 to CR7, r32: the privilege check, then refused (R230, R237). -/
def execMovCr4to7R32 (_p : Prefixes) (_n : BitVec 2) (_rm : Reg) (s : State) : Out :=
  privileged s (.refused .reservedControlRegister)

end Sys2Proof.Machine
end

