-- ==== Sys2Proof/Machine/DebugMoves.lean ====
section
/-!
DEFINITION. The moves to and from the debug registers (spec/41_debug_test_register_instructions.md rules
R260 to R267). Each instruction has a definition of its own.
-/

namespace Sys2Proof.Machine

/-! ### What they share -/

/-- DR6 as MOV reads it: the defined bits, and free values in the reserved ones (R262). -/
def readDr6 (s : State) : Word := insertBits dr6Defined s.drawn s.dr6

/-- DR7 as MOV reads it: the defined bits, and free values in the reserved ones (R263). -/
def readDr7 (s : State) : Word := insertBits dr7Defined s.drawn s.dr7

/-- The refusal that breakpoint i would meet in a new value of DR7, if it meets one (R266). -/
def breakpointRefusal (v : Word) (i : Fin 4) : Option Refusal :=
  if enabledIn v i = false then none
  else if lenIn v i = 2 then some .undefinedLen
  else if rwIn v i = 2 then some .undefinedRw
  else if rwIn v i = 0 ∧ lenIn v i ≠ 0 then some .executionLength
  else none

/-- The first refusal over the four breakpoints, in the order of R266. -/
def dr7Refusal (v : Word) : Option Refusal :=
  (breakpointRefusal v 0).or <|
    (breakpointRefusal v 1).or <| (breakpointRefusal v 2).or (breakpointRefusal v 3)

/-- The operation of `MOV DR7, r32` (R266). -/
def loadDr7 (v : Word) (s : State) : Out :=
  match dr7Refusal v with
  | some r => .refused r
  | none => moveDone { s with dr7 := v &&& dr7Defined }

/-! ### The instructions -/

/-- MOV r32, DR0 (R261). -/
def execMovR32Dr0 (_p : Prefixes) (rm : Reg) (s : State) : Out := debugAccess s (moveToReg rm s.dr0 s)

/-- MOV r32, DR1 (R261). -/
def execMovR32Dr1 (_p : Prefixes) (rm : Reg) (s : State) : Out := debugAccess s (moveToReg rm s.dr1 s)

/-- MOV r32, DR2 (R261). -/
def execMovR32Dr2 (_p : Prefixes) (rm : Reg) (s : State) : Out := debugAccess s (moveToReg rm s.dr2 s)

/-- MOV r32, DR3 (R261). -/
def execMovR32Dr3 (_p : Prefixes) (rm : Reg) (s : State) : Out := debugAccess s (moveToReg rm s.dr3 s)

/-- MOV r32, DR6 (R262). -/
def execMovR32Dr6 (_p : Prefixes) (rm : Reg) (s : State) : Out :=
  debugAccess s (moveToReg rm (readDr6 s) s.afterDraw)

/-- MOV r32, DR7 (R263). -/
def execMovR32Dr7 (_p : Prefixes) (rm : Reg) (s : State) : Out :=
  debugAccess s (moveToReg rm (readDr7 s) s.afterDraw)

/-- MOV DR0, r32 (R264). -/
def execMovDr0R32 (_p : Prefixes) (rm : Reg) (s : State) : Out :=
  debugAccess s (moveDone { s with dr0 := s.reg rm })

/-- MOV DR1, r32 (R264). -/
def execMovDr1R32 (_p : Prefixes) (rm : Reg) (s : State) : Out :=
  debugAccess s (moveDone { s with dr1 := s.reg rm })

/-- MOV DR2, r32 (R264). -/
def execMovDr2R32 (_p : Prefixes) (rm : Reg) (s : State) : Out :=
  debugAccess s (moveDone { s with dr2 := s.reg rm })

/-- MOV DR3, r32 (R264). -/
def execMovDr3R32 (_p : Prefixes) (rm : Reg) (s : State) : Out :=
  debugAccess s (moveDone { s with dr3 := s.reg rm })

/-- MOV DR6, r32 (R265): the only way a bit of DR6 becomes 0. -/
def execMovDr6R32 (_p : Prefixes) (rm : Reg) (s : State) : Out :=
  debugAccess s (moveDone { s with dr6 := s.reg rm &&& dr6Defined })

/-- MOV DR7, r32 (R266). -/
def execMovDr7R32 (_p : Prefixes) (rm : Reg) (s : State) : Out := debugAccess s (loadDr7 (s.reg rm) s)

/-- MOV r32, DR4 or DR5: the checks of a debug register access, then refused (R260, R267). -/
def execMovR32Dr4to5 (_p : Prefixes) (_n : BitVec 1) (_rm : Reg) (s : State) : Out :=
  debugAccess s (.refused .reservedDebugRegister)

/-- MOV DR4 or DR5, r32: the checks of a debug register access, then refused (R260, R267). -/
def execMovDr4to5R32 (_p : Prefixes) (_n : BitVec 1) (_rm : Reg) (s : State) : Out :=
  debugAccess s (.refused .reservedDebugRegister)

end Sys2Proof.Machine
end

