-- ==== Sys2Proof/Machine/StatusWord.lean ====
section
/-!
DEFINITION. CLTS, LMSW, SMSW and the coprocessor opcodes (spec/40_control_register_instructions.md rules
R238 to R240, spec/60_exceptions.md rule R310), and the effects of a task switch that the specification
states (R360 to R363). Each instruction has a definition of its own.
-/

namespace Sys2Proof.Machine

/-! ### What they share -/

/-- The bits MP, EM and TS of CR0, which LMSW copies (R238). -/
def lmswMask : Word := 0x0000000E

/-- The write of LMSW: PE is set if the source's bit 0 is, never cleared; MP, EM and TS are copied; nothing
else changes (R238). -/
def writeMsw (src : Half) (s : State) : State :=
  { s with cr0 := insertBits lmswMask s.cr0 (src.zeroExtend 32) ||| (src.zeroExtend 32 &&& 1) }

/-- The operation of LMSW on its source (R238, R241). -/
def loadMsw (src : Half) (s : State) : Out :=
  if peChangeRefused s (src.getLsbD 0) then .refused .cplAfterPeSet else .next (writeMsw src s)

/-- The machine status word as SMSW stores it: PE, MP, EM, TS and ET, and free values in bits 15:5 (R239). -/
def readMsw (s : State) : Half := (insertBits 0x1F s.drawn s.cr0).extractLsb' 0 16

/-- SMSW into a register: the low half, and with operand size 32 a free value in the upper half (R239). -/
def storeMswReg (p : Prefixes) (r : Reg) (s : State) : State :=
  let t := s.afterDraw.setReg16 r (readMsw s)
  if operandSize32 p s then (t.setReg r (insertBits 0xFFFF0000 (t.reg r) t.drawn)).afterDraw else t

/-! ### The instructions -/

/-- CLTS (R240). -/
def execClts (_p : Prefixes) (s : State) : Out :=
  privileged s (.next { s with cr0 := s.cr0 &&& ~~~bitMask 3 })

/-- LMSW r/m16 (R238). -/
def execLmsw (p : Prefixes) (o : RM16) (s : State) : Out :=
  privileged s ((readRm16 p o s).thenOut loadMsw)

/-- SMSW r/m16 (R239): no privilege check; the memory form always stores 2 bytes. -/
def execSmsw (p : Prefixes) (o : RM16) (s : State) : Out :=
  match o with
  | .reg r => .next (storeMswReg p r s)
  | .mem m =>
    (memWrite (groupLength p o) (operandSegment p m) (effectiveAddress m s)
        (leBytes 2 (readMsw s).toNat) s.afterDraw).thenOut fun _ s => .next s

/-- ESC, any coprocessor opcode: Coprocessor Not Available when CR0.EM is 1, else refused (R310). -/
def execEsc (_p : Prefixes) (_low : BitVec 3) (s : State) : Out :=
  if s.em then .next (takeException .nm .fault .none s) else .refused .coprocessor

/-! ### Task switches -/

/-- DR7.LE and L0 to L3, which a task switch clears; GE and G0 to G3 stay (R54, R361). -/
def localMask : Word := 0x00000155

/-- What the specification says a task switch does to the registers it describes: CR0.TS is set (R33,
R360), LE and L0 to L3 are cleared (R53, R54, R361), and where the new task asks for a debug trap BT
becomes pending (R329, R362). -/
def taskSwitchRegisters (debugTrap : Bool) (s : State) : State :=
  { s with
    cr0 := s.cr0 ||| bitMask 3
    dr7 := s.dr7 &&& ~~~localMask
    pendingDb := if debugTrap then s.pendingDb ||| btMask else s.pendingDb }

/-- A task switch, by whatever means, is refused (R363): the TSS format is not in the specification. -/
def taskSwitch (_s : State) : Out := .refused .taskSwitch

end Sys2Proof.Machine
end

