-- ==== Sys2Proof/Machine/TestMoves.lean ====
section
/-!
DEFINITION. The moves to and from the test registers (spec/41_debug_test_register_instructions.md rules R260
and R270 to R275): the privilege check guards them, DR7.GD does not (R260, R367), and past the check the
specification refuses them. Each instruction has a definition of its own.
-/

namespace Sys2Proof.Machine

/-- MOV r32, TR6: the privilege check, then refused (R260, R270, R275). -/
def execMovR32Tr6 (_p : Prefixes) (_rm : Reg) (s : State) : Out :=
  privileged s (.refused .tlbTestRegisters)

/-- MOV r32, TR7: the privilege check, then refused (R260, R271, R275). -/
def execMovR32Tr7 (_p : Prefixes) (_rm : Reg) (s : State) : Out :=
  privileged s (.refused .tlbTestRegisters)

/-- MOV TR6, r32: the privilege check, then refused (R260, R272, R275). -/
def execMovTr6R32 (_p : Prefixes) (_rm : Reg) (s : State) : Out :=
  privileged s (.refused .tlbTestRegisters)

/-- MOV TR7, r32: the privilege check, then refused (R260, R273, R275). -/
def execMovTr7R32 (_p : Prefixes) (_rm : Reg) (s : State) : Out :=
  privileged s (.refused .tlbTestRegisters)

/-- MOV r32, TR0 to TR3: the privilege check, then refused (R260, R274). -/
def execMovR32Tr0to3 (_p : Prefixes) (_n : BitVec 2) (_rm : Reg) (s : State) : Out :=
  privileged s (.refused .reservedTestRegister)

/-- MOV r32, TR4 or TR5: the privilege check, then refused (R260, R274). -/
def execMovR32Tr4to5 (_p : Prefixes) (_n : BitVec 1) (_rm : Reg) (s : State) : Out :=
  privileged s (.refused .reservedTestRegister)

/-- MOV TR0 to TR3, r32: the privilege check, then refused (R260, R274). -/
def execMovTr0to3R32 (_p : Prefixes) (_n : BitVec 2) (_rm : Reg) (s : State) : Out :=
  privileged s (.refused .reservedTestRegister)

/-- MOV TR4 or TR5, r32: the privilege check, then refused (R260, R274). -/
def execMovTr4to5R32 (_p : Prefixes) (_n : BitVec 1) (_rm : Reg) (s : State) : Out :=
  privileged s (.refused .reservedTestRegister)

end Sys2Proof.Machine
end

