-- ==== Sys2Proof/Machine/Dispatch.lean ====
section
/-! DEFINITION. The meaning of each instruction: one arm per constructor. -/

namespace Sys2Proof.Machine

def exec (i : Instr) (s : State) : Host.Outcome State Fault Refusal :=
  match i with
  | .clts p => Sys2Proof.Machine.execClts p s
  | .movR32Cr0 p rm => Sys2Proof.Machine.execMovR32Cr0 p rm s
  | .movR32Cr2 p rm => Sys2Proof.Machine.execMovR32Cr2 p rm s
  | .movR32Cr3 p rm => Sys2Proof.Machine.execMovR32Cr3 p rm s
  | .movCr0R32 p rm => Sys2Proof.Machine.execMovCr0R32 p rm s
  | .movCr2R32 p rm => Sys2Proof.Machine.execMovCr2R32 p rm s
  | .movCr3R32 p rm => Sys2Proof.Machine.execMovCr3R32 p rm s
  | .movR32Cr1 p rm => Sys2Proof.Machine.execMovR32Cr1 p rm s
  | .movR32Cr4to7 p n rm => Sys2Proof.Machine.execMovR32Cr4to7 p n rm s
  | .movCr1R32 p rm => Sys2Proof.Machine.execMovCr1R32 p rm s
  | .movCr4to7R32 p n rm => Sys2Proof.Machine.execMovCr4to7R32 p n rm s
  | .movR32Dr0 p rm => Sys2Proof.Machine.execMovR32Dr0 p rm s
  | .movR32Dr1 p rm => Sys2Proof.Machine.execMovR32Dr1 p rm s
  | .movR32Dr2 p rm => Sys2Proof.Machine.execMovR32Dr2 p rm s
  | .movR32Dr3 p rm => Sys2Proof.Machine.execMovR32Dr3 p rm s
  | .movR32Dr6 p rm => Sys2Proof.Machine.execMovR32Dr6 p rm s
  | .movR32Dr7 p rm => Sys2Proof.Machine.execMovR32Dr7 p rm s
  | .movDr0R32 p rm => Sys2Proof.Machine.execMovDr0R32 p rm s
  | .movDr1R32 p rm => Sys2Proof.Machine.execMovDr1R32 p rm s
  | .movDr2R32 p rm => Sys2Proof.Machine.execMovDr2R32 p rm s
  | .movDr3R32 p rm => Sys2Proof.Machine.execMovDr3R32 p rm s
  | .movDr6R32 p rm => Sys2Proof.Machine.execMovDr6R32 p rm s
  | .movDr7R32 p rm => Sys2Proof.Machine.execMovDr7R32 p rm s
  | .movR32Dr4to5 p n rm => Sys2Proof.Machine.execMovR32Dr4to5 p n rm s
  | .movDr4to5R32 p n rm => Sys2Proof.Machine.execMovDr4to5R32 p n rm s
  | .movR32Tr6 p rm => Sys2Proof.Machine.execMovR32Tr6 p rm s
  | .movR32Tr7 p rm => Sys2Proof.Machine.execMovR32Tr7 p rm s
  | .movTr6R32 p rm => Sys2Proof.Machine.execMovTr6R32 p rm s
  | .movTr7R32 p rm => Sys2Proof.Machine.execMovTr7R32 p rm s
  | .movR32Tr0to3 p n rm => Sys2Proof.Machine.execMovR32Tr0to3 p n rm s
  | .movR32Tr4to5 p n rm => Sys2Proof.Machine.execMovR32Tr4to5 p n rm s
  | .movTr0to3R32 p n rm => Sys2Proof.Machine.execMovTr0to3R32 p n rm s
  | .movTr4to5R32 p n rm => Sys2Proof.Machine.execMovTr4to5R32 p n rm s
  | .smsw p o => Sys2Proof.Machine.execSmsw p o s
  | .lmsw p o => Sys2Proof.Machine.execLmsw p o s
  | .esc p low => Sys2Proof.Machine.execEsc p low s

end Sys2Proof.Machine
end

