-- ==== Sys2Proof/Machine/Fetch.lean ====
section
/-!
DEFINITION. Fetching and decoding an instruction, and ending a completed step (spec/00_scope.md rule R16,
spec/30_encoding.md rules R201 and R210, spec/10_state.md rule R22, spec/60_exceptions.md rule R333).
-/

namespace Sys2Proof.Machine

/-- The `j`-th byte of the instruction at CS:EIP (R201): segment translation, on the first byte the
instruction breakpoint check (R322), then page translation. -/
def fetchByte (j : Nat) (s : State) : Res Byte :=
  (segTranslate .cs (s.eip + BitVec.ofNat 32 j) 1 .fetch s).bind fun la s =>
  (if j = 0 then instrBreakpoint la s else .ok () s).bind fun _ s =>
  (linTranslate la 1 (operandAccess .fetch s) s).bind fun pas s =>
    match pas with
    | pa :: _ => physReadByte pa s
    | [] => raiseFault .gp (.code 0) s

/-- The bytes of an instruction are fetched one at a time, as the decoder asks for them (R201, R210).
`bytes` has been fetched; at most `fuel` bytes more are. An instruction that is longer raises general
protection (R210), LOCK raises invalid opcode (R316). -/
def fetchInstr : Nat → List Byte → State → Res Instr
  | 0, _, s => raiseFault .gp (.code 0) s
  | fuel + 1, bytes, s =>
    (fetchByte bytes.length s).bind fun b s =>
      match decode s.seg.cs.attr.d (bytes ++ [b]) with
      | .more => fetchInstr fuel (bytes ++ [b]) s
      | .instr i => .ok i s
      | .lockInvalid => raiseFault .ud .none s
      | .refused why => .stop (.refused (.decode why))

/-- Phase 6 of a step (R333): RF is cleared, a single step is pending if TF was set when the instruction
started, and pending debug conditions are reported as one trap. -/
def reportTraps (tf : Bool) (s : State) : State :=
  let t := s.clearRf
  let pending := if tf then t.pendingDb ||| bsMask else t.pendingDb
  if pending = 0 then t else debugException .trap pending { t with pendingDb := pending }

/-- Phases 5 and 6 of a step, for an instruction of `len` bytes that completed: EIP is advanced, unless the
sum reaches 2^32 (R16, R22, R333). -/
def complete (tf : Bool) (len : Nat) (s : State) : Out :=
  if s.eip.toNat + len ≥ 0x100000000 then .refused .eipWraps
  else .next (reportTraps tf { s with eip := s.eip + BitVec.ofNat 32 len })

/-- What follows an instruction's rule: where it raised an exception the step ends as it left the state
(R350), else the instruction is completed. -/
def afterRule (tf : Bool) (len : Nat) (o : Out) : Out :=
  match o with
  | .next s => if s.trapped.isSome then .next s else complete tf len s
  | .fault f => .fault f
  | .refused r => .refused r

/-! ### Placing an instruction where it is fetched -/

/-- The physical address of a linear address by the page tables alone; `none` where they give none. -/
def fetchPhys (la : Word) (s : State) : Option Word :=
  match physUnder s.pg s.cr3 la s with
  | .ok pa _ => pa
  | .stop _ => none

/-- Bytes stored at the linear addresses from `la` on, where those have a physical address. -/
def placeBytes : List Byte → Word → State → State
  | [], _, s => s
  | b :: bs, la, s =>
    let t := placeBytes bs (la + 1) s
    match fetchPhys la s with
    | some pa => { t with mem := insertCell t.mem pa.toNat b }
    | none => t

end Sys2Proof.Machine
end

