-- ==== Sys2Proof/Machine/Step.lean ====
section
/-!
DEFINITION. One step of the machine (spec/00_scope.md rule R16), and the host's way of placing an
instruction where the next step fetches it.
-/

namespace Sys2Proof.Machine

/-- One step (R16). A raised exception ends the run (R350); virtual-8086 mode is refused (R369); phase 1
needs nothing, no debug condition being pending between steps (R333). Then fetch and decode, the
instruction's rule, and phases 5 and 6. -/
def step (s : State) : Host.Outcome State Fault Refusal :=
  match s.trapped with
  | some t => .fault (.trapped t)
  | none =>
    if s.pe && s.vm then .refused .virtual8086
    else (fetchInstr maxInstrBytes [] s).thenOut fun i t => afterRule s.tf i.length (exec i t)

/-- The state with an instruction, whose bits are `w` as spec/opcode_table.json numbers them, stored at
CS:EIP. Assumption log entry 18. -/
def State.withFetchWord (s : State) (nbits w : Nat) : State :=
  placeBytes (tableBytes nbits w) (s.seg.cs.base + s.eip) s

end Sys2Proof.Machine
end

