-- ==== Sys2Proof/Safety.lean ====
section
/-!
DEFINITION. The terms in which claims about the machine are made: what counts as a safe state, the
invariant of the machine, the states in which an instruction may run, and the frames of the moves.
-/

namespace Sys2Proof.Machine

/-- The machine runs: no exception has ended the run (R350), and it is not in virtual-8086 mode (R369). -/
def Running (s : State) : Prop := s.trapped = none ∧ (s.pe && s.vm) = false

/-- A privileged instruction may run: real mode, or level 0 (R230). -/
def MayRunPrivileged (s : State) : Prop := s.unprivileged = false

/-- A debug register move may run: real mode or level 0, and GD clear (R260). -/
def MayAccessDebug (s : State) : Prop := s.unprivileged = false ∧ s.gd = false

/-- The invariant of the machine between steps. -/
structure Inv (s : State) : Prop where
  /-- Memory keeps its canonical form. -/
  memory : memoryWf s.mem = true
  /-- The TLB holds at most 32 entries (R80, R155). -/
  tlbSize : s.tlb.length ≤ tlbCapacity
  /-- The TLB holds at most one entry for a linear page (R157). -/
  tlbPages : (s.tlb.map TlbEntry.page).Nodup
  /-- No reserved bit of CR0 is stored: a read of one is a free value (R30). -/
  cr0Reserved : s.cr0 &&& ~~~cr0Defined = 0
  /-- No reserved bit of DR6 is stored (R44). -/
  dr6Reserved : s.dr6 &&& ~~~dr6Defined = 0
  /-- No reserved bit of DR7 is stored (R55). -/
  dr7Reserved : s.dr7 &&& ~~~dr7Defined = 0
  /-- No debug condition is pending between steps (R83, R333). -/
  nothingPending : s.pendingDb = 0
  /-- Paging is on only in protected mode: a write of CR0 that would say otherwise is refused (R234). -/
  pagingProtected : s.pg = true → s.pe = true
  /-- PG has changed at most once (R242). -/
  pgOnce : s.pgChanges ≤ 1

/-- Every byte of memory reads in `t` as in `s`. -/
def SameMemory (s t : State) : Prop := ∀ a, t.byteAt a = s.byteAt a

/-- Every byte of memory outside the addresses of a list reads in `t` as in `s`. -/
def SameMemoryBut (stored : List Word) (s t : State) : Prop :=
  ∀ a, (∀ pa ∈ stored, pa.toNat ≠ a) → t.byteAt a = s.byteAt a

/-- No flag but the six status flags differs (R230(b), R260). -/
def StatusFlagsOnly (s t : State) : Prop :=
  t.eflags &&& ~~~statusMask = s.eflags &&& ~~~statusMask

/-- `t` is `s` after a move to the general register `rm` of a value whose bits in `known` are those of
`v`: no other general register, no flag but the status flags and no byte of memory differs, and nothing
else does but the count of free values. -/
def MovedToReg (rm : Reg) (known v : Word) (s t : State) : Prop :=
  t.reg rm &&& known = v &&& known ∧ (∀ r, r ≠ rm → t.reg r = s.reg r) ∧ StatusFlagsOnly s t ∧
    SameMemory s t ∧ t = { s with regs := t.regs, eflags := t.eflags, draws := t.draws }

/-- `t` is `s` after a move to a special register that leaves `u`: no flag but the status flags and no
byte of memory differs from `s`, and `t` is `u` but for them and the count of free values. -/
def MovedToSpecial (u s t : State) : Prop :=
  StatusFlagsOnly s t ∧ SameMemory s t ∧ t = { u with eflags := t.eflags, draws := t.draws }

/-- The bytes `l` stand at CS:EIP, paging is off, and every one lies inside the code segment: what `step`
needs to fetch them (R201). -/
def BytesAtEip (l : List Byte) (s : State) : Prop :=
  s.pg = false ∧ (s.pe = true → s.seg.cs.attr.valid = true) ∧
    ∀ j, j < l.length →
      inLimit s.seg.cs (s.eip + BitVec.ofNat 32 j) 1 = true ∧
        s.byteAt (s.seg.cs.base + (s.eip + BitVec.ofNat 32 j)).toNat = l[j]?

/-- The bytes of the well-formed instruction `i` stand at CS:EIP. -/
def PlacedAtEip (i : Instr) (s : State) : Prop :=
  i.wf s.seg.cs.attr.d = true ∧ BytesAtEip (encode i) s

/-- No execution breakpoint stops the instruction at CS:EIP (R322). -/
def NoExecutionBreakpoint (s : State) : Prop :=
  executionHits s (s.seg.cs.base + s.eip) = 0 ∨ s.rf = true

/-- No breakpoint is enabled (R326). -/
def NoBreakpoints (s : State) : Prop := ∀ i, enabledIn s.dr7 i = false

/-- In protected mode at a level other than 0 the instruction raises GP(0) and does nothing else (R230,
R260). -/
def Guarded (i : Instr) (s : State) : Prop :=
  s.unprivileged = true → exec i s = .next (takeException .gp .fault (.code 0) s)

/-- As `Guarded`; and where it may run privileged but GD is set, the instruction raises the debug fault with
BD and does nothing else (R260, R330). -/
def DebugGuarded (i : Instr) (s : State) : Prop :=
  Guarded i s ∧
    (s.unprivileged = false → s.gd = true → exec i s = .next (debugException .fault bdMask s))

/-! ### Marks in the page tables -/

/-- `a` is the address of the byte that holds A of the directory entry for linear address `la` (R135,
R136). -/
def DirectoryByte (la : Word) (s : State) (a : Nat) : Prop := a = (pdeAddr s.cr3 la).toNat

/-- `a` is the address of the byte that holds A and D of the page table entry for linear address `la`: the
directory entry that memory holds names the table (R138, R139). -/
def TableByte (la : Word) (s : State) (a : Nat) : Prop :=
  ∃ pde, physRead32 (pdeAddr s.cr3 la) s = .ok pde s ∧ a = (pteAddr pde la).toNat

/-- Paging is on in `s`, and the byte at `a` belongs to a page table entry for one of the linear addresses
`las`; `t` holds there what `s` does with A set, or, where `dirty` allows it and the entry is one of a page
table, with A and D set (R143, R144). -/
def Marked (las : Word → Prop) (dirty : Bool) (s t : State) (a : Nat) : Prop :=
  s.pg = true ∧ ∃ la b, las la ∧ s.byteAt a = some b ∧
    ((DirectoryByte la s a ∨ TableByte la s a) ∧ t.byteAt a = some (b ||| 0x20) ∨
      dirty = true ∧ TableByte la s a ∧ t.byteAt a = some (b ||| 0x60))

/-- Every byte of memory reads in `t` as in `s`, but for A and D in the page table entries for the linear
addresses `las`. -/
def TablesMarked (las : Word → Prop) (dirty : Bool) (s t : State) : Prop :=
  ∀ a, t.byteAt a = s.byteAt a ∨ Marked las dirty s t a

/-! ### Operands -/

/-- The registers whose sum is the base of a 16-bit operand (R207). -/
def base16Registers : Base16 → List Reg
  | .bxSi => [.ebx, .esi]
  | .bxDi => [.ebx, .edi]
  | .bpSi => [.ebp, .esi]
  | .bpDi => [.ebp, .edi]
  | .si => [.esi]
  | .di => [.edi]
  | .bp => [.ebp]
  | .bx => [.ebx]

/-- A 16-bit operand's displacement as a number: a `disp8` is signed (R207). -/
def disp16Number : Disp16 → Int
  | .none => 0
  | .d8 d => d.toInt
  | .d16 d => d.toNat

/-- A 32-bit operand's displacement as a number: a `disp8` is signed (R205). -/
def disp32Number : Disp32 → Int
  | .none => 0
  | .d8 d => d.toInt
  | .d32 d => d.toNat

/-- The index of a SIB byte as a number: none for 100B, else the register times 1, 2, 4 or 8 (R206). -/
def indexNumber (scale : BitVec 2) (index : Reg) (s : State) : Int :=
  if index = .esp then 0 else (s.reg index).toNat * 2 ^ scale.toNat

/-- An operand of `n` bytes at offset `off` of segment register `r` passes the tests of segment translation
for an access of kind `k` in protected mode (R128). -/
def OperandInside (r : SegReg) (off : Word) (n : Nat) (k : AccessKind) (s : State) : Prop :=
  s.pe = true ∧ (s.seg.get r).attr.valid = true ∧ kindAllowed (s.seg.get r).attr.typ k = true ∧
    inLimit (s.seg.get r) off n = true

/-- The linear address of a memory operand: the base of its segment plus its offset (R128). -/
def operandLinear (p : Prefixes) (m : MemOperand) (s : State) : Word :=
  (s.seg.get (operandSegment p m)).base + effectiveAddress m s

/-- The tables give linear address `la` the translation that the TLB entry `e` holds: both entries are
present, the directory's A is set, and frame, U/S and R/W are the entry's (R148, R158, R160). -/
def EntryMatchesTables (e : TlbEntry) (la : Word) (s : State) : Prop :=
  ∃ pde pte, physRead32 (pdeAddr s.cr3 la) s = .ok pde s ∧ entryP pde = true ∧ entryA pde = true ∧
    physRead32 (pteAddr pde la) s = .ok pte s ∧ entryP pte = true ∧ e.frame = pte.extractLsb' 12 20 ∧
      e.us = (entryUs pde && entryUs pte) ∧ e.rw = (entryRw pde && entryRw pte)

/-- Breakpoint `i` is enabled and its data condition occurs for an access of kind `k` to `n` bytes at `la`
(R321, R324). -/
def DataBreakpointHit (s : State) (k : AccessKind) (la : Word) (n : Nat) (i : Fin 4) : Prop :=
  enabledIn s.dr7 i = true ∧ (rwIn s.dr7 i = 1 ∧ k = .write ∨ rwIn s.dr7 i = 3) ∧
    ∃ field, bpField (lenIn s.dr7 i) (s.breakpoint i) = some field ∧ ∃ a ∈ span la n, a ∈ field

/-- No enabled breakpoint has an undefined RW or LEN (R50, R51, R266). -/
def BreakpointsDefined (s : State) : Prop :=
  ∀ i, enabledIn s.dr7 i = true → rwIn s.dr7 i ≠ 2 ∧ lenIn s.dr7 i ≠ 2

/-- The step fetched an instruction that `p` describes, and ran it. -/
def StepRan (p : Instr → Prop) (s : State) : Prop :=
  ∃ i u, fetchInstr maxInstrBytes [] s = .ok i u ∧ p i

end Sys2Proof.Machine
end

