-- ==== Sys2Proof/Certificates/Slice0/Obligations.lean ====
section
/-!
DEFINITION. What is claimed of the machine: one statement per definition, for the provers.
-/

section Statements

open Sys2Proof Sys2Proof.Machine

/-- Decoding inverts encoding, for all instructions and every value of every operand (R210). -/
def Obligations.DecodeInvertsEncode : Prop :=
  ∀ (d : Bool) (i : Instr) (rest : List Byte), i.wf d = true → decode d (encode i ++ rest) = .instr i

/-- The decoder answers well-formed instructions only (R205 to R210). -/
def Obligations.DecodedInstructionIsWellFormed : Prop :=
  ∀ (d : Bool) (bytes : List Byte) (i : Instr), decode d bytes = .instr i → i.wf d = true

/-- Before its last byte an instruction is incomplete (R210, R218). -/
def Obligations.DecodeAsksForEveryByteOfTheInstruction : Prop :=
  ∀ (d : Bool) (i : Instr) (k : Nat), i.wf d = true → k < i.length → decode d ((encode i).take k) = .more

/-- The decoder's answer is final, and comes within twelve bytes: four prefixes at most (LOCK among them),
two opcode bytes, ModRM, SIB and four displacement bytes (R208, R210, R218). That a second LOCK is refused
is the model's reading: log entry 3. -/
def Obligations.DecodeIsSettledByTwelveBytes : Prop :=
  (∀ (d : Bool) (a b : List Byte), decode d a ≠ .more → decode d (a ++ b) = decode d a) ∧
    ∀ (d : Bool) (bytes : List Byte), 12 ≤ bytes.length → decode d bytes ≠ .more

/-- R214: "no byte sequence matches two rows". -/
def Obligations.OpcodeRowsAreDisjoint : Prop :=
  (∀ bytes : List Byte, (opcodeTable.filter fun r => r.matches bytes).length ≤ 1) ∧
    ∀ op2 ∈ ([0x20, 0x21, 0x22, 0x23, 0x24, 0x26] : List Byte), ∀ (mm : Byte) (rest : List Byte),
      field76 mm = 3 → (opcodeTable.filter fun r => r.matches (0x0F :: op2 :: mm :: rest)).length = 1

/-- The decoder and the match and mask columns of the table name the same row (R210, R214). -/
def Obligations.DecodeAgreesWithOpcodeTable : Prop :=
  ∀ (d : Bool) (bytes : List Byte) (i : Instr), decode d bytes = .instr i →
    (opcodeTable.filter fun r => r.matches (bytes.drop i.prefixes.length)).map OpcodeRow.mnemonic =
      [i.mnemonic]

/-- F0H is not valid with any instruction in scope (R208, R210). For the refused rows and ESC this is the
model's reading: log entry 19. -/
def Obligations.LockPrefixIsInvalidOpcode : Prop :=
  ∀ (d : Bool) (i : Instr) (rest : List Byte), i.wf d = true →
    decode d (0xF0 :: (encode i ++ rest)) = .lockInvalid

/-- R208: a prefix is "one byte before the opcode, in any order". -/
def Obligations.PrefixOrderDoesNotMatter : Prop :=
  ∀ (d : Bool) (p : Prefixes) (l rest : List Byte), l.Perm p.bytes →
    decode d (l ++ rest) = decode d (p.bytes ++ rest)

/-- A few words of V30 and V32. -/
def Obligations.SpecWordsDecode : Prop :=
  decode true [0x0F, 0x06] = .instr (.clts {}) ∧
    decode true [0x0F, 0x20, 0xDA] = .instr (.movR32Cr3 {} .edx) ∧
      decode true [0x0F, 0x23, 0xFF] = .instr (.movDr7R32 {} .edi) ∧
        decode true [0x0F, 0x01, 0x63, 0xFE] = .instr (.smsw {} (.mem (.base32 .ebx (.d8 0xFE)))) ∧
          decode true [0x0F, 0x01, 0x64, 0x8D, 0x04] =
              .instr (.smsw {} (.mem (.sib 2 .ecx .ebp (.d8 4)))) ∧
            decode true [0xDB] = .instr (.esc {} 3)

/-- A step runs the instruction whose bytes stand at CS:EIP (R16). -/
def Obligations.StepRunsThePlacedInstruction : Prop :=
  ∀ (s : State) (i : Instr), Running s → PlacedAtEip i s → NoExecutionBreakpoint s →
    step s = afterRule s.tf i.length (exec i s)

/-- A step runs the instruction its fetch answers, in the state the fetch leaves (R16, R201). -/
def Obligations.StepRunsTheFetchedInstruction : Prop :=
  ∀ (s t : State) (i : Instr), fetchInstr maxInstrBytes [] s = .ok i t →
    i.wf s.seg.cs.attr.d = true ∧ t = { s with mem := t.mem, tlb := t.tlb, draws := t.draws } ∧
      TablesMarked (· ∈ span (s.seg.cs.base + s.eip) i.length) false s t ∧
        (s.pg = false → t = s) ∧ (Running s → step s = afterRule s.tf i.length (exec i t))

/-- Phases 5 and 6 of a step (R16, R22). -/
def Obligations.CompletionAdvancesEip : Prop :=
  ∀ (tf : Bool) (len : Nat) (s : State),
    (s.trapped = none → s.eip.toNat + len < 0x100000000 →
      afterRule tf len (.next s) = .next (reportTraps tf { s with eip := s.eip + BitVec.ofNat 32 len })) ∧
      (s.trapped = none → 0x100000000 ≤ s.eip.toNat + len →
        afterRule tf len (.next s) = .refused .eipWraps) ∧
        (s.trapped.isSome = true → afterRule tf len (.next s) = .next s)

/-- Phase 6 of a step (R333). That the pending conditions are a word is the model's choice: log entry 26. -/
def Obligations.DebugTrapsAreReportedAtTheEnd : Prop :=
  ∀ (tf : Bool) (s : State),
    (tf = false ∧ s.pendingDb = 0 → reportTraps tf s = { s with eflags := s.eflags &&& ~~~rfMask }) ∧
      (tf = true ∨ s.pendingDb ≠ 0 →
        (reportTraps tf s).trapped = some { exc := .db, cls := .trap, err := .none } ∧
          (reportTraps tf s).dr6 &&& s.pendingDb = s.pendingDb ∧
            (tf = true → (reportTraps tf s).dr6.getLsbD 14 = true) ∧ (reportTraps tf s).pendingDb = 0 ∧
              (reportTraps tf s).rf = false ∧ (reportTraps tf s).tf = false ∧
                (reportTraps tf s).gd = false ∧ (reportTraps tf s).eip = s.eip)

/-- The Trapped outcome (R350). That the outcome Trapped is a next state is the model's choice: log entry 4.
-/
def Obligations.TakingAnExceptionRecordsIt : Prop :=
  ∀ (x : Exc) (c : ExcClass) (e : ErrorCode) (s : State),
    (takeException x c e s).trapped = some { exc := x, cls := c, err := e } ∧
      (takeException x c e s).eip = s.eip ∧ (takeException x c e s).tf = false ∧
        (takeException x c e s).eflags &&& ~~~0x100#32 = s.eflags &&& ~~~0x100#32 ∧
          takeException x c e s =
            { s with
              eflags := (takeException x c e s).eflags
              pendingDb := 0
              trapped := (takeException x c e s).trapped }

/-- The debug exception (R327, R330, R331). -/
def Obligations.DebugExceptionRecordsItsCauses : Prop :=
  ∀ (c : ExcClass) (b : Word) (s : State),
    (∀ j, (s.dr6 ||| b).getLsbD j = true → (debugException c b s).dr6.getLsbD j = true) ∧
      (∀ j, (debugException c b s).dr6.getLsbD j = true →
        (s.dr6 ||| b).getLsbD j = true ∨ ∃ i : Fin 4, i.val = j ∧ enabledIn s.dr7 i = false) ∧
        (debugException c b s).dr7 = s.dr7 &&& ~~~0x2000#32 ∧
          (debugException c b s).eflags = s.eflags &&& ~~~0x100#32 ∧
            (debugException c b s).trapped = some { exc := .db, cls := c, err := .none } ∧
              debugException c b s =
                { s with
                  dr6 := (debugException c b s).dr6
                  dr7 := (debugException c b s).dr7
                  eflags := (debugException c b s).eflags
                  pendingDb := 0
                  trapped := (debugException c b s).trapped
                  draws := s.draws + 1 }

/-- Trapped is final (R350); virtual-8086 mode is refused (R369). That the step after Trapped is a fault is
the model's choice: log entry 4. -/
def Obligations.StepStopsWhereTheMachineDoesNotRun : Prop :=
  (∀ (s : State) (x : Trap), s.trapped = some x → step s = .fault (.trapped x)) ∧
    ∀ s : State, s.trapped = none → s.pe = true → s.vm = true → step s = .refused .virtual8086

/-- The order of the checks on the first byte (R322, R345). -/
def Obligations.FirstByteChecksComeInOrder : Prop :=
  ∀ s : State,
    (Running s → (s.pe = true → s.seg.cs.attr.valid = true) →
      (inLimit s.seg.cs s.eip 1 = false → step s = .next (takeException .gp .fault (.code 0) s)) ∧
        (inLimit s.seg.cs s.eip 1 = true → executionHits s (s.seg.cs.base + s.eip) ≠ 0 → s.rf = false →
          step s = .next (debugException .fault (executionHits s (s.seg.cs.base + s.eip)) s))) ∧
      ∀ (la : Word) (i : Fin 4),
        (executionHits s la).getLsbD i.val =
          (enabledIn s.dr7 i && rwIn s.dr7 i == 0 && s.breakpoint i == la)

/-- Invalid opcode (R316). For the refused rows and ESC this is the model's reading: log entry 19. -/
def Obligations.LockedInstructionRaisesInvalidOpcode : Prop :=
  ∀ (s : State) (i : Instr), Running s → i.wf s.seg.cs.attr.d = true →
    BytesAtEip (0xF0 :: encode i) s → NoExecutionBreakpoint s →
      step s = .next (takeException .ud .fault .none s)

/-- CLTS (R240). -/
def Obligations.ClearTaskSwitchedFlag : Prop :=
  ∀ (p : Prefixes) (s : State),
    Guarded (.clts p) s ∧
      (MayRunPrivileged s →
        ∃ t, exec (.clts p) s = .next t ∧ t.ts = false ∧
          (∀ j, j ≠ 3 → t.cr0.getLsbD j = s.cr0.getLsbD j) ∧ SameMemory s t ∧
            t = { s with cr0 := t.cr0 })

/-- MOV r32, CR0 (R231). The reserved bits are free values. -/
def Obligations.MoveFromCr0ReadsTheDefinedBits : Prop :=
  ∀ (p : Prefixes) (rm : Reg) (s : State),
    Guarded (.movR32Cr0 p rm) s ∧
      (MayRunPrivileged s →
        ∃ t, exec (.movR32Cr0 p rm) s = .next t ∧ MovedToReg rm 0x8000001F s.cr0 s t)

/-- MOV r32, CR2 and MOV r32, CR3 (R232, R233). The flag of zero low bits is the model's own: log entry 13.
-/
def Obligations.MovesFromCr2AndCr3ReadThem : Prop :=
  ∀ (p : Prefixes) (rm : Reg) (s : State),
    (Guarded (.movR32Cr2 p rm) s ∧
      (MayRunPrivileged s →
        ∃ t, exec (.movR32Cr2 p rm) s = .next t ∧ MovedToReg rm 0xFFFFFFFF s.cr2 s t)) ∧
      Guarded (.movR32Cr3 p rm) s ∧
        (MayRunPrivileged s →
          ∃ t, exec (.movR32Cr3 p rm) s = .next t ∧ MovedToReg rm 0xFFFFF000 s.cr3 s t ∧
            (s.cr3LowZero = true → t.reg rm &&& 0xFFF = 0))

/-- MOV CR0, r32 where it is not refused (R234). -/
def Obligations.MoveToCr0WritesTheDefinedBits : Prop :=
  ∀ (p : Prefixes) (rm : Reg) (s : State),
    Guarded (.movCr0R32 p rm) s ∧
      (MayRunPrivileged s →
        ((s.reg rm).getLsbD 31 = true → (s.reg rm).getLsbD 0 = true) →
        ((s.reg rm).getLsbD 31 = s.pg ∨
          s.pgChanges = 0 ∧
            fetchWindowStable (movLength p) s.pg s.cr3 ((s.reg rm).getLsbD 31) s.cr3 s = .ok true s) →
        (s.pe = true ∨ (s.reg rm).getLsbD 0 = false ∨ s.seg.cs.sel.extractLsb' 0 2 = 0) →
        ∃ t, exec (.movCr0R32 p rm) s = .next t ∧
          MovedToSpecial
            { s with
              cr0 := s.reg rm &&& 0x8000001F
              pgChanges := if (s.reg rm).getLsbD 31 = s.pg then s.pgChanges else s.pgChanges + 1 } s t)

/-- The refusals of R234, R241 and R242. -/
def Obligations.MoveToCr0Refusals : Prop :=
  ∀ (p : Prefixes) (rm : Reg) (s : State), MayRunPrivileged s →
    ((s.reg rm).getLsbD 31 = true → (s.reg rm).getLsbD 0 = false →
      exec (.movCr0R32 p rm) s = .refused .pagingWithoutProtection) ∧
      (((s.reg rm).getLsbD 31 = true → (s.reg rm).getLsbD 0 = true) →
        ((s.reg rm).getLsbD 31 ≠ s.pg → 1 ≤ s.pgChanges →
          exec (.movCr0R32 p rm) s = .refused .pgChangedTwice) ∧
          ((s.reg rm).getLsbD 31 ≠ s.pg → s.pgChanges = 0 →
            fetchWindowStable (movLength p) s.pg s.cr3 ((s.reg rm).getLsbD 31) s.cr3 s = .ok false s →
              exec (.movCr0R32 p rm) s = .refused .codeMappingChanges) ∧
            ((s.reg rm).getLsbD 31 = s.pg → s.pe = false → (s.reg rm).getLsbD 0 = true →
              s.seg.cs.sel.extractLsb' 0 2 ≠ 0 → exec (.movCr0R32 p rm) s = .refused .cplAfterPeSet))

/-- MOV CR2, r32 (R235). -/
def Obligations.MoveToCr2StoresTheValue : Prop :=
  ∀ (p : Prefixes) (rm : Reg) (s : State),
    Guarded (.movCr2R32 p rm) s ∧
      (MayRunPrivileged s →
        ∃ t, exec (.movCr2R32 p rm) s = .next t ∧ MovedToSpecial { s with cr2 := s.reg rm } s t)

/-- MOV CR3, r32 (R236). The flag of zero low bits is the model's own: log entry 13. -/
def Obligations.MoveToCr3EmptiesTheTlb : Prop :=
  ∀ (p : Prefixes) (rm : Reg) (s : State),
    Guarded (.movCr3R32 p rm) s ∧
      (MayRunPrivileged s →
        (s.pg = false ∨ fetchWindowStable (movLength p) true s.cr3 true (s.reg rm) s = .ok true s) →
        ∃ t, exec (.movCr3R32 p rm) s = .next t ∧ t.cr3 &&& 0xFFFFF000 = s.reg rm &&& 0xFFFFF000 ∧
          (s.reg rm &&& 0xFFF = 0 → t.cr3 = s.reg rm ∧ t.cr3LowZero = true) ∧
            (s.reg rm &&& 0xFFF ≠ 0 → t.cr3LowZero = false) ∧ t.tlb = [] ∧
              MovedToSpecial { s with cr3 := t.cr3, cr3LowZero := t.cr3LowZero, tlb := [] } s t) ∧
        (MayRunPrivileged s → s.pg = true →
          fetchWindowStable (movLength p) true s.cr3 true (s.reg rm) s = .ok false s →
            exec (.movCr3R32 p rm) s = .refused .codeMappingChanges)

/-- LMSW (R238). -/
def Obligations.LoadMswWritesFourBits : Prop :=
  ∀ (p : Prefixes) (o : RM16) (s u : State) (src : Half),
    Guarded (.lmsw p o) s ∧
      (∀ r, readRm16 p (.reg r) s = .ok ((s.reg r).extractLsb' 0 16) s) ∧
        (MayRunPrivileged s → readRm16 p o s = .ok src u →
          (s.pe = true ∨ src.getLsbD 0 = false ∨ s.seg.cs.sel.extractLsb' 0 2 = 0) →
          ∃ t, exec (.lmsw p o) s = .next t ∧ t.pe = (s.pe || src.getLsbD 0) ∧
            t.mp = src.getLsbD 1 ∧ t.em = src.getLsbD 2 ∧ t.ts = src.getLsbD 3 ∧
              (∀ j, 4 ≤ j → t.cr0.getLsbD j = s.cr0.getLsbD j) ∧ SameMemory u t ∧
                t = { u with cr0 := t.cr0 } ∧
                  u = { s with mem := u.mem, tlb := u.tlb, draws := u.draws, pendingDb := u.pendingDb } ∧
                    (s.pg = false → SameMemory s u) ∧
                      ∀ m, o = .mem m → TablesMarked (· ∈ span (operandLinear p m s) 2) false s u)

/-- Memory operands (R205 to R208), and the memory form of LMSW (R11, R238). -/
def Obligations.LoadMswReadsItsOperandBytes : Prop :=
  (∀ (s : State) (d : Half), (effectiveAddress (.direct16 d) s).toNat = d.toNat) ∧
    (∀ (s : State) (b : Base16) (d : Disp16),
      ((effectiveAddress (.base16 b d) s).toNat : Int) =
        (((base16Registers b).map fun r => ((s.reg r).toNat : Int)).sum + disp16Number d) % 65536) ∧
      (∀ (s : State) (d : Word), effectiveAddress (.direct32 d) s = d) ∧
        (∀ (s : State) (b : Reg) (d : Disp32),
          ((effectiveAddress (.base32 b d) s).toNat : Int) =
            ((s.reg b).toNat + disp32Number d) % 4294967296) ∧
          (∀ (s : State) (sc : BitVec 2) (ix b : Reg) (d : Disp32),
            ((effectiveAddress (.sib sc ix b d) s).toNat : Int) =
              ((s.reg b).toNat + indexNumber sc ix s + disp32Number d) % 4294967296) ∧
            (∀ (s : State) (sc : BitVec 2) (ix : Reg) (d : Word),
              ((effectiveAddress (.sibDirect sc ix d) s).toNat : Int) =
                (d.toNat + indexNumber sc ix s) % 4294967296) ∧
    ((∀ d, defaultSegment (.direct16 d) = .ds) ∧
      (∀ b d, defaultSegment (.base16 b d) = if .ebp ∈ base16Registers b then .ss else .ds) ∧
        (∀ d, defaultSegment (.direct32 d) = .ds) ∧
          (∀ b d, b ≠ .esp → defaultSegment (.base32 b d) = if b = .ebp then .ss else .ds) ∧
            (∀ sc ix b d,
              defaultSegment (.sib sc ix b d) = if b = .esp ∨ b = .ebp then .ss else .ds) ∧
              (∀ sc ix d, defaultSegment (.sibDirect sc ix d) = .ds) ∧
                ∀ (p : Prefixes) (m : MemOperand),
                  (p.seg = none → operandSegment p m = defaultSegment m) ∧
                    ∀ r, p.seg = some r → operandSegment p m = r) ∧
    ∀ (p : Prefixes) (m : MemOperand) (s : State) (b0 b1 : Byte), MayRunPrivileged s →
      OperandInside (operandSegment p m) (effectiveAddress m s) 2 .read s → s.pg = false →
        NoBreakpoints s → s.byteAt (operandLinear p m s).toNat = some b0 →
          s.byteAt (operandLinear p m s + 1).toNat = some b1 →
            ∃ t, exec (.lmsw p (.mem m)) s = .next t ∧ t.pe = true ∧ t.mp = b0.getLsbD 1 ∧
              t.em = b0.getLsbD 2 ∧ t.ts = b0.getLsbD 3 ∧
                (∀ j, 4 ≤ j → t.cr0.getLsbD j = s.cr0.getLsbD j) ∧ SameMemory s t ∧
                  t = { s with cr0 := t.cr0 }

/-- The register form of SMSW (R239). -/
def Obligations.StoreMswToRegister : Prop :=
  ∀ (p : Prefixes) (r : Reg) (s : State),
    ∃ t, exec (.smsw p (.reg r)) s = .next t ∧
      (t.reg r).extractLsb' 0 5 = s.cr0.extractLsb' 0 5 ∧
        (s.seg.cs.attr.d = p.opsize → (t.reg r).extractLsb' 16 16 = (s.reg r).extractLsb' 16 16) ∧
          (∀ q, q ≠ r → t.reg q = s.reg q) ∧ SameMemory s t ∧
            t = { s with regs := t.regs, draws := t.draws }

/-- The memory form of SMSW (R239). The addresses are those that linTranslate gives the instruction itself.
Where the test of R183 stands is the model's reading: log entry 15. -/
def Obligations.StoreMswToMemory : Prop :=
  ∀ (p : Prefixes) (m : MemOperand) (s w u : State) (pas : List Word),
    OperandInside (operandSegment p m) (effectiveAddress m s) 2 .write s →
      dataBreakpoints .write (operandLinear p m s) 2 s.afterDraw = .ok () w →
        linTranslate (operandLinear p m s) 2 (operandAccess .write s) w = .ok pas u →
          intoStream (groupLength p (.mem m)) (operandLinear p m s) 2 s = false →
            (∀ pa ∈ pas, s.isRam pa.toNat = true) →
              ∃ t lo hi, exec (.smsw p (.mem m)) s = .next t ∧ pas = [lo, hi] ∧
                (∃ b, t.byteAt lo.toNat = some b ∧ b.extractLsb' 0 5 = s.cr0.extractLsb' 0 5) ∧
                  (∃ b, t.byteAt hi.toNat = some b) ∧ SameMemoryBut pas u t ∧
                    t = { s with mem := t.mem, tlb := t.tlb, draws := t.draws, pendingDb := w.pendingDb } ∧
                      TablesMarked (· ∈ span (operandLinear p m s) 2) true s u ∧
                        (s.pg = false → SameMemoryBut pas s t)

/-- The exceptions and refusals of R238 and R239 for memory operands (R128, R131, R183). Where the test of
R183 stands is the model's reading: log entry 15. -/
def Obligations.MemoryOperandsThatStop : Prop :=
  ∀ (p : Prefixes) (m : MemOperand) (s : State),
    (s.pe = false →
      exec (.smsw p (.mem m)) s = .refused .realModeOperand ∧
        exec (.lmsw p (.mem m)) s = .refused .realModeOperand) ∧
      (∀ (i : Instr) (k : AccessKind),
        (i = .smsw p (.mem m) ∧ k = .write ∨ i = .lmsw p (.mem m) ∧ k = .read ∧ MayRunPrivileged s) →
          s.pe = true →
            ((s.seg.get (operandSegment p m)).attr.valid = false →
              ∃ t, exec i s = .next t ∧ t.regs = s.regs ∧ t.cr0 = s.cr0 ∧ SameMemory s t ∧
                t.trapped = some { exc := .gp, cls := .fault, err := .code 0 }) ∧
              ((s.seg.get (operandSegment p m)).attr.valid = true →
                (kindAllowed (s.seg.get (operandSegment p m)).attr.typ k = false ∨
                  inLimit (s.seg.get (operandSegment p m)) (effectiveAddress m s) 2 = false) →
                ∃ t, exec i s = .next t ∧ t.regs = s.regs ∧ t.cr0 = s.cr0 ∧ SameMemory s t ∧
                  t.trapped =
                    some { exc := if operandSegment p m = .ss then .ss else .gp, cls := .fault,
                           err := .code 0 })) ∧
        (∀ (w u : State) (pas : List Word),
          OperandInside (operandSegment p m) (effectiveAddress m s) 2 .write s →
            dataBreakpoints .write (operandLinear p m s) 2 s.afterDraw = .ok () w →
              linTranslate (operandLinear p m s) 2 (operandAccess .write s) w = .ok pas u →
                intoStream (groupLength p (.mem m)) (operandLinear p m s) 2 s = true →
                  exec (.smsw p (.mem m)) s = .refused .storeIntoStream) ∧
          ∀ r, s.pe = false → (s.reg r).getLsbD 0 = true → s.seg.cs.sel.extractLsb' 0 2 ≠ 0 →
            exec (.lmsw p (.reg r)) s = .refused .cplAfterPeSet

/-- MOV r32, DR0 to DR3 (R261). -/
def Obligations.MovesFromBreakpointAddressRegisters : Prop :=
  ∀ (p : Prefixes) (rm : Reg) (s : State),
    (DebugGuarded (.movR32Dr0 p rm) s ∧ DebugGuarded (.movR32Dr1 p rm) s ∧
      DebugGuarded (.movR32Dr2 p rm) s ∧ DebugGuarded (.movR32Dr3 p rm) s) ∧
      (MayAccessDebug s →
        (∃ t, exec (.movR32Dr0 p rm) s = .next t ∧ MovedToReg rm 0xFFFFFFFF s.dr0 s t) ∧
          (∃ t, exec (.movR32Dr1 p rm) s = .next t ∧ MovedToReg rm 0xFFFFFFFF s.dr1 s t) ∧
            (∃ t, exec (.movR32Dr2 p rm) s = .next t ∧ MovedToReg rm 0xFFFFFFFF s.dr2 s t) ∧
              ∃ t, exec (.movR32Dr3 p rm) s = .next t ∧ MovedToReg rm 0xFFFFFFFF s.dr3 s t)

/-- MOV r32, DR6 and MOV r32, DR7 (R262, R263). The reserved bits are free values. -/
def Obligations.MovesFromDebugStatusAndControl : Prop :=
  ∀ (p : Prefixes) (rm : Reg) (s : State),
    (DebugGuarded (.movR32Dr6 p rm) s ∧ DebugGuarded (.movR32Dr7 p rm) s) ∧
      (MayAccessDebug s →
        (∃ t, exec (.movR32Dr6 p rm) s = .next t ∧ MovedToReg rm 0x0000E00F s.dr6 s t) ∧
          ∃ t, exec (.movR32Dr7 p rm) s = .next t ∧ MovedToReg rm 0xFFFF23FF s.dr7 s t)

/-- MOV DR0 to DR3, r32 (R264). -/
def Obligations.MovesToBreakpointAddressRegisters : Prop :=
  ∀ (p : Prefixes) (rm : Reg) (s : State),
    (DebugGuarded (.movDr0R32 p rm) s ∧ DebugGuarded (.movDr1R32 p rm) s ∧
      DebugGuarded (.movDr2R32 p rm) s ∧ DebugGuarded (.movDr3R32 p rm) s) ∧
      (MayAccessDebug s →
        (∃ t, exec (.movDr0R32 p rm) s = .next t ∧ MovedToSpecial { s with dr0 := s.reg rm } s t) ∧
          (∃ t, exec (.movDr1R32 p rm) s = .next t ∧ MovedToSpecial { s with dr1 := s.reg rm } s t) ∧
            (∃ t, exec (.movDr2R32 p rm) s = .next t ∧ MovedToSpecial { s with dr2 := s.reg rm } s t) ∧
              ∃ t, exec (.movDr3R32 p rm) s = .next t ∧ MovedToSpecial { s with dr3 := s.reg rm } s t)

/-- MOV DR6, r32 (R265). -/
def Obligations.MoveToDebugStatus : Prop :=
  ∀ (p : Prefixes) (rm : Reg) (s : State),
    DebugGuarded (.movDr6R32 p rm) s ∧
      (MayAccessDebug s →
        ∃ t, exec (.movDr6R32 p rm) s = .next t ∧
          MovedToSpecial { s with dr6 := s.reg rm &&& 0x0000E00F } s t)

/-- MOV DR7, r32 (R266). -/
def Obligations.MoveToDebugControl : Prop :=
  ∀ (p : Prefixes) (rm : Reg) (s : State),
    DebugGuarded (.movDr7R32 p rm) s ∧
      (MayAccessDebug s →
        (∀ i, enabledIn (s.reg rm) i = true →
          lenIn (s.reg rm) i ≠ 2 ∧ rwIn (s.reg rm) i ≠ 2 ∧
            (rwIn (s.reg rm) i = 0 → lenIn (s.reg rm) i = 0)) →
        ∃ t, exec (.movDr7R32 p rm) s = .next t ∧
          MovedToSpecial { s with dr7 := s.reg rm &&& 0xFFFF23FF } s t) ∧
        (MayAccessDebug s →
          (∃ i, enabledIn (s.reg rm) i = true ∧
            (lenIn (s.reg rm) i = 2 ∨ rwIn (s.reg rm) i = 2 ∨
              rwIn (s.reg rm) i = 0 ∧ lenIn (s.reg rm) i ≠ 0)) →
          ∃ r ∈ [Refusal.undefinedLen, .undefinedRw, .executionLength],
            exec (.movDr7R32 p rm) s = .refused r)

/-- ESC (R310): taking this exception is the instruction's own effect. -/
def Obligations.CoprocessorOpcodeNeedsEmulation : Prop :=
  ∀ (p : Prefixes) (low : BitVec 3) (s : State),
    (s.em = true → exec (.esc p low) s = .next (takeException .nm .fault .none s)) ∧
      (s.em = false → exec (.esc p low) s = .refused .coprocessor)

/-- The refused rows behind the checks of R230, R260 and R367 (R237, R267, R270 to R274). That the checks
come before the refusal is the model's reading: log entry 17. -/
def Obligations.ReservedRegisterMovesAreRefused : Prop :=
  ∀ (p : Prefixes) (rm : Reg) (s : State),
    ((∀ i ∈ [Instr.movR32Cr1 p rm, .movCr1R32 p rm, .movR32Tr6 p rm, .movR32Tr7 p rm, .movTr6R32 p rm,
        .movTr7R32 p rm], Guarded i s) ∧
      (∀ n, ∀ i ∈ [Instr.movR32Cr4to7 p n rm, .movCr4to7R32 p n rm, .movR32Tr0to3 p n rm,
        .movTr0to3R32 p n rm], Guarded i s) ∧
        ∀ n, Guarded (.movR32Tr4to5 p n rm) s ∧ Guarded (.movTr4to5R32 p n rm) s ∧
          DebugGuarded (.movR32Dr4to5 p n rm) s ∧ DebugGuarded (.movDr4to5R32 p n rm) s) ∧
      (MayRunPrivileged s →
        (exec (.movR32Cr1 p rm) s = .refused .reservedControlRegister ∧
          exec (.movCr1R32 p rm) s = .refused .reservedControlRegister ∧
            ∀ n, exec (.movR32Cr4to7 p n rm) s = .refused .reservedControlRegister ∧
              exec (.movCr4to7R32 p n rm) s = .refused .reservedControlRegister) ∧
          (exec (.movR32Tr6 p rm) s = .refused .tlbTestRegisters ∧
            exec (.movR32Tr7 p rm) s = .refused .tlbTestRegisters ∧
              exec (.movTr6R32 p rm) s = .refused .tlbTestRegisters ∧
                exec (.movTr7R32 p rm) s = .refused .tlbTestRegisters) ∧
            (∀ n, exec (.movR32Tr0to3 p n rm) s = .refused .reservedTestRegister ∧
              exec (.movTr0to3R32 p n rm) s = .refused .reservedTestRegister) ∧
              ∀ n, exec (.movR32Tr4to5 p n rm) s = .refused .reservedTestRegister ∧
                exec (.movTr4to5R32 p n rm) s = .refused .reservedTestRegister) ∧
        (MayAccessDebug s →
          ∀ n, exec (.movR32Dr4to5 p n rm) s = .refused .reservedDebugRegister ∧
            exec (.movDr4to5R32 p n rm) s = .refused .reservedDebugRegister)

/-- The protection table (R147). -/
def Obligations.PagePermissionTable : Prop :=
  ∀ (us rw : Bool) (acc : Access),
    (acc.user = false → permitted us rw acc = true) ∧
      (acc.user = true → us = false → permitted us rw acc = false) ∧
        (acc.user = true → us = true → acc.kind = .write → permitted us rw acc = rw) ∧
          (acc.user = true → us = true → acc.kind ≠ .write → permitted us rw acc = true)

/-- PdeAddr and PteAddr (R135, R138). -/
def Obligations.PageEntryAddresses : Prop :=
  ∀ cr3 pde la : Word,
    (pdeAddr cr3 la).toNat = cr3.toNat / 4096 * 4096 + la.toNat / 4194304 * 4 ∧
      (pteAddr pde la).toNat = pde.toNat / 4096 * 4096 + la.toNat / 4096 % 1024 * 4

/-- R103: "pa = la". -/
def Obligations.PagingOffIsTheIdentity : Prop :=
  ∀ (s : State) (la : Word) (n : Nat) (acc : Access), s.pg = false → n ≤ 8 →
    linTranslate la n acc s = .ok (span la n) s

/-- The walk (R141). That the entry is in the TLB right after the walk is R158 as log entry 11 reads it. -/
def Obligations.SuccessfulWalkMarksAndFills : Prop :=
  ∀ (s s1 : State) (la pde pte : Word) (acc : Access),
    physRead32 (pdeAddr s.cr3 la) s = .ok pde s → entryP pde = true →
      setPdeA (pdeAddr s.cr3 la) pde s = .ok () s1 → physRead32 (pteAddr pde la) s1 = .ok pte s1 →
        entryP pte = true →
          permitted (entryUs pde && entryUs pte) (entryRw pde && entryRw pte) acc = true →
            ∃ t, walk la acc s = .ok (pte.extractLsb' 12 20) t ∧
              physRead32 (pteAddr pde la) t =
                  .ok (pte ||| 0x20 ||| (if acc.kind = .write then 0x40 else 0)) t ∧
                (pteAddr pde la ≠ pdeAddr s.cr3 la →
                  physRead32 (pdeAddr s.cr3 la) t = .ok (pde ||| 0x20) t) ∧
                  (∃ e, tlbFind t.tlb (pageOf la) = some e ∧ e.frame = pte.extractLsb' 12 20 ∧
                    e.us = (entryUs pde && entryUs pte) ∧ e.rw = (entryRw pde && entryRw pte) ∧
                      e.d = (pte.getLsbD 6 || decide (acc.kind = .write))) ∧
                    SameMemoryBut (span (pdeAddr s.cr3 la) 4 ++ span (pteAddr pde la) 4) s t ∧
                      t = { s with mem := t.mem, tlb := t.tlb, draws := t.draws }

/-- The page fault (R150, R305, R306). Whether A of the directory entry was written is open: log entry 12.
-/
def Obligations.PageFaultsAreRaisedAndRecorded : Prop :=
  (∀ (s : State) (la pde : Word) (acc : Access), s.pg = true → tlbFind s.tlb (pageOf la) = none →
    physRead32 (pdeAddr s.cr3 la) s = .ok pde s →
      (entryP pde = false →
        pageTranslate la acc s = .stop (.next (pageFault la acc false s))) ∧
        ∀ (s1 : State) (pte : Word), entryP pde = true →
          setPdeA (pdeAddr s.cr3 la) pde s = .ok () s1 → physRead32 (pteAddr pde la) s1 = .ok pte s1 →
            (entryP pte = false ∨
              permitted (entryUs pde && entryUs pte) (entryRw pde && entryRw pte) acc = false) →
              ∃ t, pageTranslate la acc s = .stop (.next t) ∧
                t.trapped =
                  some { exc := .pf, cls := .fault,
                         err := .page (entryP pte) (decide (acc.kind = .write)) acc.user }) ∧
    ∀ (s t : State) (la : Word) (acc : Access), pageTranslate la acc s = .stop (.next t) →
      s.pg = true ∧ t.cr2 = la ∧
        (∃ p, t.trapped =
          some { exc := .pf, cls := .fault, err := .page p (decide (acc.kind = .write)) acc.user }) ∧
          (∀ e ∈ t.tlb, e ∈ s.tlb) ∧
            (∀ a, t.byteAt a = s.byteAt a ∨
              a = (pdeAddr s.cr3 la).toNat ∧
                ∃ b, s.byteAt a = some b ∧ t.byteAt a = some (b ||| 0x20)) ∧
              t =
                { s with
                  mem := t.mem
                  tlb := t.tlb
                  draws := t.draws
                  cr2 := la
                  eflags := s.eflags &&& ~~~0x100#32
                  pendingDb := 0
                  trapped := t.trapped }

/-- R160: "the same answer whether or not any given entry is present". Whether the entry is used is a free
value: log entry 11. -/
def Obligations.TlbHitAgreesWithTheTables : Prop :=
  ∀ (s : State) (la : Word) (acc : Access) (e : TlbEntry), s.pg = true →
    tlbFind s.tlb (pageOf la) = some e → EntryMatchesTables e la s →
      (permitted e.us e.rw acc = true → ∃ t, pageTranslate la acc s = .ok e.frame t) ∧
        (permitted e.us e.rw acc = false →
          ∃ t, pageTranslate la acc s = .stop (.next t) ∧ t.cr2 = la ∧
            t.trapped =
              some { exc := .pf, cls := .fault,
                     err := .page true (decide (acc.kind = .write)) acc.user })

/-- R140: a fault on the second piece leaves memory unwritten by the access. SMSW is the store that can
cross a page. -/
def Obligations.SplitStoreFaultsBeforeItWrites : Prop :=
  ∀ (p : Prefixes) (m : MemOperand) (s w u t : State) (frame : BitVec 20),
    OperandInside (operandSegment p m) (effectiveAddress m s) 2 .write s →
      dataBreakpoints .write (operandLinear p m s) 2 s.afterDraw = .ok () w →
        offsetOf (operandLinear p m s) = 0xFFF →
          pageTranslate (operandLinear p m s) (operandAccess .write s) w = .ok frame u →
            pageTranslate (operandLinear p m s + 1) (operandAccess .write s) u = .stop (.next t) →
              exec (.smsw p (.mem m)) s = .next t ∧ t.cr2 = operandLinear p m s + 1 ∧
                t.cr2.toNat % 4096 = 0 ∧
                  (∃ pr, t.trapped = some { exc := .pf, cls := .fault, err := .page pr true s.user }) ∧
                    TablesMarked (· ∈ span (operandLinear p m s) 2) true s t ∧ t.regs = s.regs ∧
                      t.cr0 = s.cr0 ∧ t.eip = s.eip

/-- R116: an address range outside the descriptor is not addressable (R128, R129). -/
def Obligations.SegmentAccessesStayInside : Prop :=
  ∀ (r : SegReg) (off la : Word) (n : Nat) (k : AccessKind) (s t : State), 1 ≤ n →
    segTranslate r off n k s = .ok la t →
      t = s ∧ la = (s.seg.get r).base + off ∧
        ((typeCode (s.seg.get r).attr.typ = true ∨ typeEC (s.seg.get r).attr.typ = false) →
          off.toNat + n ≤ (s.seg.get r).limit.toNat + 1) ∧
          (typeCode (s.seg.get r).attr.typ = false → typeEC (s.seg.get r).attr.typ = true →
            (s.seg.get r).limit.toNat < off.toNat ∧
              off.toNat + n ≤ if (s.seg.get r).attr.d = true then 0x100000000 else 0x10000) ∧
            (s.pe = true →
              (s.seg.get r).attr.valid = true ∧
                (k = .write →
                  typeCode (s.seg.get r).attr.typ = false ∧ typeRW (s.seg.get r).attr.typ = true) ∧
                  (k = .read →
                    typeCode (s.seg.get r).attr.typ = false ∨ typeRW (s.seg.get r).attr.typ = true))

/-- Descriptor fetch and layout (R106, R109, R123). No step performs it: log entry 21. -/
def Obligations.DescriptorsAreFetchedAndLaidOut : Prop :=
  (∀ (sel : Half) (s : State),
    (selTi sel = true → s.ldtr.valid = false →
      fetchDescriptor sel s = .stop (.next (takeException .gp .fault (.code (sel &&& 0xFFFC)) s))) ∧
      ∀ (base : Word) (limit : Half),
        (selTi sel = false ∧ base = s.gdtr.base ∧ limit = s.gdtr.limit ∨
          selTi sel = true ∧ s.ldtr.valid = true ∧ base = s.ldtr.base ∧ limit = s.ldtr.limit) →
          (limit.toNat < sel.toNat / 8 * 8 + 7 →
            fetchDescriptor sel s = .stop (.next (takeException .gp .fault (.code (sel &&& 0xFFFC)) s))) ∧
            (sel.toNat / 8 * 8 + 7 ≤ limit.toNat → s.pg = false →
              ∀ bs : List Byte, bs.length = 8 →
                (∀ j, j < 8 → s.byteAt (base + BitVec.ofNat 32 (sel.toNat / 8 * 8 + j)).toNat = bs[j]?) →
                  fetchDescriptor sel s = .ok (BitVec.ofNat 64 (leNat bs)) s)) ∧
    (∀ b0 b1 b2 b3 b4 b5 b6 b7 : Byte,
      let d := BitVec.ofNat 64 (leNat [b0, b1, b2, b3, b4, b5, b6, b7])
      descBase d = b7 ++ b4 ++ b3 ++ b2 ∧ descLimit d = b6.extractLsb' 0 4 ++ b1 ++ b0 ∧
        descG d = b6.getLsbD 7 ∧ descD d = b6.getLsbD 6 ∧ descP d = b5.getLsbD 7 ∧
          descDpl d = b5.extractLsb' 5 2 ∧ descS d = b5.getLsbD 4 ∧ descType d = b5.extractLsb' 1 3 ∧
            descA d = b5.getLsbD 0) ∧
      ∀ l : BitVec 20,
        (effLimit l false).toNat = l.toNat ∧ (effLimit l true).toNat = l.toNat * 4096 + 4095

/-- LoadSeg (R127) and LoadLDTR (R124). No step performs it: log entry 21. -/
def Obligations.SegmentLoadKeepsItsPrivilegeRules : Prop :=
  (∀ (r : SegReg) (sel : Half) (s t : State), loadSeg r sel s = .ok () t →
    r ≠ .cs ∧ s.pe = true ∧ (t.seg.get r).sel = sel ∧ (∀ q, q ≠ r → t.seg.get q = s.seg.get q) ∧
      t = { s with mem := t.mem, tlb := t.tlb, draws := t.draws, seg := t.seg } ∧
        (selNull sel = true → r ≠ .ss ∧ (t.seg.get r).attr.valid = false ∧ t.mem = s.mem) ∧
          (selNull sel = false →
            (∃ d u, fetchDescriptor sel s = .ok d u ∧ descP d = true ∧ descS d = true ∧
              (t.seg.get r).base = descBase d ∧ (t.seg.get r).limit = effLimit (descLimit d) (descG d) ∧
                (t.seg.get r).attr.dpl = descDpl d ∧ (t.seg.get r).attr.d = descD d ∧
                  (t.seg.get r).attr.typ = descType d) ∧
              (t.seg.get r).attr.valid = true ∧ (t.seg.get r).attr.p = true ∧
                (t.seg.get r).attr.s = true ∧
                (r = .ss →
                  typeCode (t.seg.get r).attr.typ = false ∧ typeRW (t.seg.get r).attr.typ = true ∧
                    (t.seg.get r).attr.dpl = s.cpl ∧ selRpl sel = s.cpl) ∧
                  (r ≠ .ss →
                    (typeCode (t.seg.get r).attr.typ = false ∨ typeRW (t.seg.get r).attr.typ = true) ∧
                      (typeCode (t.seg.get r).attr.typ = true ∧ typeEC (t.seg.get r).attr.typ = true ∨
                        max s.cpl.toNat (selRpl sel).toNat ≤ (t.seg.get r).attr.dpl.toNat)))) ∧
    ∀ (sel : Half) (s : State),
      (selNull sel = true →
        ∃ t, loadLdtr sel s = .ok () t ∧ t.ldtr.sel = sel ∧ t.ldtr.valid = false ∧
          t = { s with ldtr := t.ldtr }) ∧
        (selNull sel = false → selTi sel = true →
          loadLdtr sel s = .stop (.next (takeException .gp .fault (.code (sel &&& 0xFFFC)) s))) ∧
          ∀ (d : BitVec 64) (u : State), selNull sel = false → selTi sel = false →
            fetchDescriptor sel s = .ok d u →
              ((descS d = true ∨ descSystemType d ≠ 2) →
                loadLdtr sel s = .stop (.next (takeException .gp .fault (.code (sel &&& 0xFFFC)) u))) ∧
                (descS d = false → descSystemType d = 2 → descP d = false →
                  loadLdtr sel s = .stop (.next (takeException .np .fault (.code (sel &&& 0xFFFC)) u))) ∧
                  (descS d = false → descSystemType d = 2 → descP d = true →
                    loadLdtr sel s =
                      .ok ()
                        { u with
                          ldtr :=
                            { sel := sel, base := descBase d,
                              limit := (effLimit (descLimit d) (descG d)).extractLsb' 0 16,
                              valid := true } })

/-- BpField (R56). -/
def Obligations.BreakpointFieldIsAligned : Prop :=
  ∀ dr : Word,
    (∃ f, bpField 0 dr = some f ∧ ∀ a, a ∈ f ↔ a = dr) ∧
      (∃ f, bpField 1 dr = some f ∧ ∀ a, a ∈ f ↔ a >>> 1 = dr >>> 1) ∧
        (∃ f, bpField 3 dr = some f ∧ ∀ a, a ∈ f ↔ a >>> 2 = dr >>> 2) ∧ bpField 2 dr = none

/-- The data breakpoint check (R324, R325). That the pending conditions are a word is the model's choice:
log entry 26. -/
def Obligations.DataBreakpointsAreRecorded : Prop :=
  ∀ (s : State) (k : AccessKind) (la : Word) (n : Nat), k ≠ .fetch → BreakpointsDefined s →
    (s.exact = true →
      ∃ t, dataBreakpoints k la n s = .ok () t ∧ t = { s with pendingDb := t.pendingDb } ∧
        (∀ i : Fin 4, t.pendingDb.getLsbD i.val = true ↔
          s.pendingDb.getLsbD i.val = true ∨ DataBreakpointHit s k la n i) ∧
          ∀ j, 4 ≤ j → t.pendingDb.getLsbD j = s.pendingDb.getLsbD j) ∧
      (s.exact = false →
        ((∃ i, DataBreakpointHit s k la n i) →
          dataBreakpoints k la n s = .stop (.refused .inexactDataBreakpoint)) ∧
          ((∀ i, ¬DataBreakpointHit s k la n i) → dataBreakpoints k la n s = .ok () s))

/-- Physical memory (R96, R170, R176, R180). -/
def Obligations.PhysicalMemoryReadsAndWrites : Prop :=
  (∀ (pa v : Word) (s t : State), physWrite32 pa v s = .ok () t →
    physRead32 pa t = .ok v t ∧ SameMemoryBut (span pa 4) s t ∧ t = { s with mem := t.mem }) ∧
    (∀ (pa : Word) (s : State) (b0 b1 b2 b3 : Byte), s.byteAt pa.toNat = some b0 →
      s.byteAt (pa + 1).toNat = some b1 → s.byteAt (pa + 2).toNat = some b2 →
        s.byteAt (pa + 3).toNat = some b3 → physRead32 pa s = .ok (b3 ++ b2 ++ b1 ++ b0) s) ∧
      ∀ (pa : Word) (s : State),
        (s.isRam pa.toNat = true → s.byteAt pa.toNat = none →
          physReadByte pa s = .stop (.fault (.unwritten pa.toNat))) ∧
          (s.isRam pa.toNat = false → physReadByte pa s = .stop (.refused (.notMemory pa.toNat)))

/-- The multitasking hooks (R360 to R363). The operation is the model's own, and no step performs it: log
entry 22. -/
def Obligations.TaskSwitchEffectsOnRegisters : Prop :=
  ∀ (b : Bool) (s : State),
    (taskSwitchRegisters b s).cr0 = s.cr0 ||| 8 ∧
      (taskSwitchRegisters b s).dr7 = s.dr7 &&& ~~~0x155#32 ∧
        (taskSwitchRegisters b s).pendingDb = (if b then s.pendingDb ||| 0x8000 else s.pendingDb) ∧
          taskSwitchRegisters b s =
            { s with
              cr0 := (taskSwitchRegisters b s).cr0
              dr7 := (taskSwitchRegisters b s).dr7
              pendingDb := (taskSwitchRegisters b s).pendingDb } ∧
            taskSwitch s = .refused .taskSwitch

/-- Reset (R90, R95, R401 to R403). That the open RESET parameters have their suggested values, and the
registers that R95 leaves unspecified zero, is the model's choice: log entries 5 to 9. -/
def Obligations.ResetStateMeetsTheInvariant : Prop :=
  (∀ r : ResetParams,
    (resetWith r).regs = r.regs ∧ (resetWith r).eip = r.eip ∧ (resetWith r).eflags = r.eflags ∧
      (resetWith r).pe = r.pe ∧ (resetWith r).mp = r.mp ∧ (resetWith r).em = r.em ∧
        (resetWith r).ts = r.ts ∧ (resetWith r).et = r.et ∧ (resetWith r).pg = r.pg ∧
          (resetWith r).cr2 = r.cr2 ∧ (resetWith r).cr3 = r.cr3 ∧
            (∀ i, (resetWith r).breakpoint i =
              match i with | 0 => r.dr0 | 1 => r.dr1 | 2 => r.dr2 | 3 => r.dr3) ∧
              (resetWith r).dr6 = r.dr6 ∧ (resetWith r).dr7 = r.dr7 ∧ (resetWith r).tr6 = r.tr6 ∧
                (resetWith r).tr7 = r.tr7 ∧ (resetWith r).gdtr = r.gdtr ∧ (resetWith r).idtr = r.idtr ∧
                  (resetWith r).ldtr = r.ldtr ∧ (resetWith r).tr = r.tr ∧ (resetWith r).seg = r.seg ∧
                    (resetWith r).tlb = r.tlb ∧ (resetWith r).mem = r.mem ∧
                      (resetWith r).platform = r.platform ∧ (resetWith r).pgChanges = 0 ∧
                        (resetWith r).pendingDb = 0 ∧ (resetWith r).trapped = none ∧
      (memoryWf r.mem = true → r.tlb.length ≤ tlbCapacity → (r.tlb.map TlbEntry.page).Nodup →
        r.dr6 &&& ~~~dr6Defined = 0 → r.dr7 &&& ~~~dr7Defined = 0 → (r.pg = true → r.pe = true) →
          Inv (resetWith r))) ∧
    Inv State.reset ∧ Running State.reset ∧ State.reset.pe = false ∧ State.reset.pg = false ∧
      State.reset.eflags = 2 ∧ State.reset.seg.cs.base + State.reset.eip = 0xFFFFFFF0 ∧
        State.reset.seg.cs.sel = 0xF000 ∧ State.reset.seg.cs.attr.d = false ∧
          State.reset.idtr = { base := 0, limit := 0x3FF } ∧ State.reset.dr7 = 0 ∧
            State.reset.reg .eax = 0 ∧ (State.reset.reg .edx).extractLsb' 8 8 = 3

/-- The invariant of the machine is inductive. That reserved bits are stored as 0 is the model's choice: log
entry 14. -/
def Obligations.StepKeepsTheInvariant : Prop :=
  ∀ s t : State, Inv s → step s = .next t → Inv t

/-- R368: the privilege level is fixed for the whole run, since no instruction in scope loads CS. -/
def Obligations.StepKeepsSegmentsAndTableRegisters : Prop :=
  ∀ s t : State, step s = .next t →
    t.seg = s.seg ∧ t.gdtr = s.gdtr ∧ t.idtr = s.idtr ∧ t.ldtr = s.ldtr ∧ t.tr = s.tr ∧
      t.tr6 = s.tr6 ∧ t.tr7 = s.tr7 ∧ t.platform = s.platform ∧ (t.pe = s.pe → t.cpl = s.cpl)

/-- What an unprivileged program cannot do (R230, R260, R367). -/
def Obligations.UnprivilegedStepsAreConfined : Prop :=
  ∀ s t : State, s.unprivileged = true → step s = .next t →
    t.cr0 = s.cr0 ∧ t.cr3 = s.cr3 ∧ t.cr3LowZero = s.cr3LowZero ∧ t.pgChanges = s.pgChanges ∧
      t.dr0 = s.dr0 ∧ t.dr1 = s.dr1 ∧ t.dr2 = s.dr2 ∧ t.dr3 = s.dr3 ∧
        (t.cr2 = s.cr2 ∨ ∃ e, t.trapped = some { exc := .pf, cls := .fault, err := e }) ∧
          (t.dr6 = s.dr6 ∧ t.dr7 = s.dr7 ∨
            (∃ c, t.trapped = some { exc := .db, cls := c, err := .none }) ∧
              (∀ j, s.dr6.getLsbD j = true → t.dr6.getLsbD j = true) ∧
                t.dr7 = s.dr7 &&& ~~~0x2000#32) ∧
            (t.regs = s.regs ∨ StepRan (fun i => ∃ p o, i = .smsw p o) s)

/-- Precision (R352). The record of the exception is in the next state: log entry 4. -/
def Obligations.FaultsArePrecise : Prop :=
  ∀ (s t : State) (x : Trap), step s = .next t → t.trapped = some x →
    (x.cls = .fault →
      t.eip = s.eip ∧ t.regs = s.regs ∧ t.cr0 = s.cr0 ∧ t.cr3 = s.cr3 ∧
        (t.dr0 = s.dr0 ∧ t.dr1 = s.dr1 ∧ t.dr2 = s.dr2 ∧ t.dr3 = s.dr3) ∧
          t.pgChanges = s.pgChanges ∧ t.eflags = s.eflags &&& ~~~0x100#32 ∧
            (x.exc ≠ .pf → t.cr2 = s.cr2) ∧ (x.exc ≠ .db → t.dr6 = s.dr6 ∧ t.dr7 = s.dr7) ∧
              (s.pg = false → SameMemory s t)) ∧
      t.pendingDb = 0 ∧ (x.cls = .trap → x.exc = .db ∧ x.err = .none)

/-- Who writes PG, PE and TS (R33, R35, R368). -/
def Obligations.ControlBitsHaveTheirWriters : Prop :=
  ∀ s t : State, step s = .next t →
    (t.pg ≠ s.pg →
      StepRan (fun i => ∃ p rm, i = .movCr0R32 p rm) s ∧ s.pgChanges = 0 ∧ t.pgChanges = 1) ∧
      (s.pe = true → t.pe = false → StepRan (fun i => ∃ p rm, i = .movCr0R32 p rm) s) ∧
        (s.pe = false → t.pe = true →
          StepRan (fun i => (∃ p rm, i = .movCr0R32 p rm) ∨ ∃ p o, i = .lmsw p o) s) ∧
          (t.ts ≠ s.ts →
            StepRan
              (fun i => (∃ p, i = .clts p) ∨ (∃ p rm, i = .movCr0R32 p rm) ∨ ∃ p o, i = .lmsw p o) s)

/-- DR6 is sticky (R331); LE changes only by MOV DR7 (R420). -/
def Obligations.DebugRegistersHaveTheirWriters : Prop :=
  ∀ s t : State, step s = .next t →
    (∀ j, s.dr6.getLsbD j = true → t.dr6.getLsbD j = false →
      StepRan (fun i => ∃ p rm, i = .movDr6R32 p rm) s) ∧
      (∀ j, j ≠ 13 → t.dr7.getLsbD j ≠ s.dr7.getLsbD j →
        StepRan (fun i => ∃ p rm, i = .movDr7R32 p rm) s) ∧
        (s.gd = false → t.gd = true → StepRan (fun i => ∃ p rm, i = .movDr7R32 p rm) s) ∧
          (s.gd = true → t.gd = false →
            ∃ c, t.trapped = some { exc := .db, cls := c, err := .none })

/-- R37: the processor writes CR2 when it raises a page fault and at no other time. -/
def Obligations.PageFaultAddressHasItsWriters : Prop :=
  ∀ s t : State, step s = .next t → t.cr2 ≠ s.cr2 →
    (∃ e, t.trapped = some { exc := .pf, cls := .fault, err := e }) ∨
      StepRan (fun i => ∃ p rm, i = .movCr2R32 p rm) s

/-- SMSW is the only instruction in scope that writes memory (R239); the processor itself writes A and D
(R143, R144). -/
def Obligations.OnlySmswStores : Prop :=
  ∀ s t : State, step s = .next t →
    (∀ a, t.byteAt a = s.byteAt a ∨ Marked (fun _ => True) true s t a ∨
      ∃ p m u w v lo hi, fetchInstr maxInstrBytes [] s = .ok (.smsw p (.mem m)) u ∧
        OperandInside (operandSegment p m) (effectiveAddress m u) 2 .write u ∧
          dataBreakpoints .write (operandLinear p m u) 2 u.afterDraw = .ok () w ∧
            linTranslate (operandLinear p m u) 2 (operandAccess .write u) w = .ok [lo, hi] v ∧
              (a = lo.toNat ∨ a = hi.toNat)) ∧
      (s.pg = false → SameMemory s t ∨ StepRan (fun i => ∃ p m, i = .smsw p (.mem m)) s)

end Statements
end

