-- ==== Sys2Proof/Laws/Bits.lean ====
section
/-!
SUPPORT. The bit fields: what `insertBits` and the masks do to a bit.
-/

namespace Sys2Proof.Machine

/-- A bit of `insertBits` comes from the new value inside the mask and from the old one outside it. -/
theorem getLsbD_insertBits (mask old new : Word) (i : Nat) :
    (insertBits mask old new).getLsbD i = if mask.getLsbD i then new.getLsbD i else old.getLsbD i := by
  by_cases h : i < 32
  · simp only [insertBits, BitVec.getLsbD_or, BitVec.getLsbD_and, BitVec.getLsbD_not, h, decide_true,
      Bool.true_and]
    cases mask.getLsbD i <;> simp
  · simp [BitVec.getLsbD_of_ge _ _ (Nat.le_of_not_lt h)]

/-- Inside the mask the new value stands. -/
theorem insertBits_and_mask (mask old new : Word) : insertBits mask old new &&& mask = new &&& mask := by
  apply BitVec.eq_of_getLsbD_eq
  intro i h
  simp only [BitVec.getLsbD_and, getLsbD_insertBits]
  cases mask.getLsbD i <;> simp

/-- Outside the mask the old value stands. -/
theorem insertBits_and_not_mask (mask old new : Word) :
    insertBits mask old new &&& ~~~mask = old &&& ~~~mask := by
  apply BitVec.eq_of_getLsbD_eq
  intro i h
  simp only [BitVec.getLsbD_and, BitVec.getLsbD_not, getLsbD_insertBits]
  cases mask.getLsbD i <;> simp

/-- Two words that agree inside a mask and outside it are equal. -/
theorem eq_of_and_mask {mask a b : Word} (h : a &&& mask = b &&& mask)
    (h' : a &&& ~~~mask = b &&& ~~~mask) : a = b := by
  apply BitVec.eq_of_getLsbD_eq
  intro i hi
  have e := congrArg (·.getLsbD i) h
  have e' := congrArg (·.getLsbD i) h'
  simp only [BitVec.getLsbD_and, BitVec.getLsbD_not, hi, decide_true, Bool.true_and] at e e'
  cases hm : mask.getLsbD i <;> simp_all

/-- Masking a word leaves no bit outside the mask. -/
theorem and_and_not_self (a mask : Word) : a &&& mask &&& ~~~mask = 0 := by
  rw [BitVec.and_assoc, BitVec.and_not_self]; simp

end Sys2Proof.Machine
end

