-- ==== Sys2Proof/Laws/Decode.lean ====
section
/-!
SUPPORT. Once for the decoder: it reads no byte beyond the length of the instruction it answers.
-/

namespace Sys2Proof

theorem decodeDisp32_take {mod : BitVec 2} {rest : List Byte} {x : Disp32}
    (h : decodeDisp32 mod rest = some x) : decodeDisp32 mod (rest.take x.length) = some x := by
  unfold decodeDisp32 at h
  split at h <;> cases h <;> simp_all [decodeDisp32, Disp32.length]

theorem decodeMem16_take {mod : BitVec 2} {rm : BitVec 3} {rest : List Byte} {x : MemOperand}
    (h : decodeMem16 mod rm rest = some x) : decodeMem16 mod rm (rest.take x.length) = some x := by
  unfold decodeMem16 at h
  split at h
  · split at h
    · split at h
      · cases h; simp_all [decodeMem16, MemOperand.length]
      · cases h
    · cases h; simp_all [decodeMem16, MemOperand.length]
  · cases h; simp_all [decodeMem16, MemOperand.length, Disp16.length]
  · cases h; simp_all [decodeMem16, MemOperand.length, Disp16.length]
  · cases h

theorem decodeSib_take {mod : BitVec 2} {sib : Byte} {rest : List Byte} {x : MemOperand}
    (h : decodeSib mod sib rest = some x) :
    ∃ k, x.length = 1 + k ∧ decodeSib mod sib (rest.take k) = some x := by
  unfold decodeSib at h
  split at h
  · split at h
    · cases h; exact ⟨4, rfl, by simp_all [decodeSib]⟩
    · cases h
  · rename_i hc
    cases hd : decodeDisp32 mod rest with
    | none => simp [hd] at h
    | some y =>
      rw [hd] at h
      cases h
      exact ⟨y.length, rfl, by unfold decodeSib; rw [if_neg hc, decodeDisp32_take hd]; rfl⟩

theorem decodeMem32_take {mod : BitVec 2} {rm : BitVec 3} {rest : List Byte} {x : MemOperand}
    (h : decodeMem32 mod rm rest = some x) : decodeMem32 mod rm (rest.take x.length) = some x := by
  unfold decodeMem32 at h
  split at h
  · rename_i hr
    split at h
    · obtain ⟨k, e, hk⟩ := decodeSib_take h
      rw [e, Nat.add_comm, List.take_succ_cons]
      simp [decodeMem32, hr, hk]
    · cases h
  · rename_i hr
    split at h
    · split at h
      · cases h; simp_all [decodeMem32, MemOperand.length]
      · cases h
    · rename_i hc
      cases hd : decodeDisp32 mod rest with
      | none => simp [hd] at h
      | some y =>
        rw [hd] at h
        cases h
        change decodeMem32 mod rm (rest.take y.length) = _
        unfold decodeMem32; rw [if_neg hr, if_neg hc, decodeDisp32_take hd]; rfl

theorem decodeRm16_take {a : Bool} {m : Byte} {rest : List Byte} {o : RM16} (p : Prefixes)
    (h : decodeRm16 a m rest = some o) :
    ∃ k, groupLength p o = p.length + 3 + k ∧ decodeRm16 a m (rest.take k) = some o := by
  unfold decodeRm16 at h
  split at h
  · cases h; exact ⟨0, rfl, by simp_all [decodeRm16]⟩
  · rename_i hm
    split at h
    · cases hd : decodeMem32 (field76 m) (field20 m) rest with
      | none => simp [hd] at h
      | some y =>
        rw [hd] at h
        cases h
        exact ⟨y.length, rfl, by simp_all [decodeRm16, decodeMem32_take hd]⟩
    · cases hd : decodeMem16 (field76 m) (field20 m) rest with
      | none => simp [hd] at h
      | some y =>
        rw [hd] at h
        cases h
        exact ⟨y.length, rfl, by simp_all [decodeRm16, decodeMem16_take hd]⟩

theorem decodeGroup7_take {d : Bool} {p : Prefixes} {m : Byte} {rest : List Byte} {i : Instr}
    (h : decodeGroup7 d p false m rest = .instr i) :
    ∃ k, i.length = p.length + 3 + k ∧ decodeGroup7 d p false m (rest.take k) = .instr i := by
  unfold decodeGroup7 at h
  split at h
  · rename_i h4
    split at h
    · rename_i o ho
      cases h
      obtain ⟨k, e, hk⟩ := decodeRm16_take p ho
      exact ⟨k, e, by simp [decodeGroup7, h4, hk, finish]⟩
    · cases h
  · rename_i h4
    split at h
    · rename_i h6
      split at h
      · rename_i o ho
        cases h
        obtain ⟨k, e, hk⟩ := decodeRm16_take p ho
        exact ⟨k, e, by simp [decodeGroup7, h6, hk, finish]⟩
      · cases h
    · cases h

/-- Every register move has two opcode bytes and ModRM. -/
theorem movSpecial_length {op2 : Byte} {f : Prefixes → BitVec 3 → Reg → Instr} (h : movSpecial op2 = some f)
    (p : Prefixes) (n : BitVec 3) (rm : Reg) : (f p n rm).length = p.length + 3 := by
  unfold movSpecial at h
  split at h <;> cases h
  · unfold movFromCr; split <;> rfl
  · unfold movFromDr; split <;> rfl
  · unfold movToCr; split <;> rfl
  · unfold movToDr; split <;> rfl
  · unfold movFromTr; split <;> rfl
  · unfold movToTr; split <;> rfl

theorem decodeTwoByte_take {d : Bool} {p : Prefixes} {op2 : Byte} {rest : List Byte} {i : Instr}
    (h : decodeTwoByte d p false op2 rest = .instr i) :
    ∃ k, i.length = p.length + 2 + k ∧ decodeTwoByte d p false op2 (rest.take k) = .instr i := by
  unfold decodeTwoByte at h
  split at h
  · cases h; exact ⟨0, rfl, by simp_all [decodeTwoByte, finish]⟩
  · rename_i hc
    split at h
    · cases h
    · rename_i f m rest' hf
      split at h
      · rename_i hm
        cases h
        exact ⟨1, by rw [movSpecial_length hf], by unfold decodeTwoByte; rw [if_neg hc, hf]; simp [hm, finish]⟩
      · cases h
    · rename_i rest' hf
      split at h
      · rename_i h1
        split at h
        · cases h
        · rename_i m rest''
          obtain ⟨k, e, hk⟩ := decodeGroup7_take h
          refine ⟨k + 1, by rw [e]; omega, ?_⟩
          rw [List.take_succ_cons]
          unfold decodeTwoByte
          rw [if_neg hc, hf]
          simp only [h1, if_true]
          exact hk
      · cases h

theorem decodeOpcode_take {d : Bool} {p : Prefixes} {b : Byte} {rest : List Byte} {i : Instr}
    (h : decodeOpcode d p false b rest = .instr i) :
    ∃ k, i.length = p.length + 1 + k ∧ decodeOpcode d p false b (rest.take k) = .instr i := by
  unfold decodeOpcode at h
  split at h
  · cases h; exact ⟨0, rfl, by simp_all [decodeOpcode, finish]⟩
  · rename_i hc
    split at h
    · rename_i hb
      split at h
      · cases h
      · obtain ⟨k, e, hk⟩ := decodeTwoByte_take h
        refine ⟨k + 1, by rw [e]; omega, ?_⟩
        rw [List.take_succ_cons]
        simp only [decodeOpcode, hb, if_true]
        exact hk
    · cases h

/-- With LOCK the decoder answers no instruction. -/
theorem decodeOpcode_lock {d : Bool} {p : Prefixes} {b : Byte} {rest : List Byte} {i : Instr} :
    decodeOpcode d p true b rest ≠ .instr i := by
  unfold decodeOpcode decodeTwoByte decodeGroup7 finish
  repeat' split
  all_goals simp_all

theorem decodeFrom_lock {d : Bool} {p : Prefixes} {l : List Byte} {i : Instr} :
    decodeFrom d p true l ≠ .instr i := by
  induction l generalizing p with
  | nil => simp [decodeFrom]
  | cons b rest ih =>
    unfold decodeFrom
    repeat' split
    all_goals first | exact decodeOpcode_lock | exact ih | simp

theorem decodeFrom_take {d : Bool} {p : Prefixes} {l : List Byte} {i : Instr}
    (h : decodeFrom d p false l = .instr i) :
    ∃ k, i.length = p.length + k ∧ decodeFrom d p false (l.take k) = .instr i := by
  induction l generalizing p with
  | nil => simp [decodeFrom] at h
  | cons b rest ih =>
    unfold decodeFrom at h
    split at h
    · rename_i hp
      obtain ⟨k, e, hk⟩ := decodeOpcode_take h
      refine ⟨k + 1, by omega, ?_⟩
      rw [List.take_succ_cons, decodeFrom, hp]
      exact hk
    · cases h
    · rename_i hp
      split at h
      · cases h
      · rename_i hs
        obtain ⟨k, e, hk⟩ := ih h
        refine ⟨k + 1, ?_, ?_⟩
        · simp only [Prefixes.length, hs] at e ⊢; simp at e ⊢; omega
        · rw [List.take_succ_cons, decodeFrom, hp]; simp only [if_neg hs]; exact hk
    · rename_i hp
      split at h
      · cases h
      · rename_i hs
        obtain ⟨k, e, hk⟩ := ih h
        refine ⟨k + 1, ?_, ?_⟩
        · simp only [Prefixes.length, hs] at e ⊢; simp at e ⊢; omega
        · rw [List.take_succ_cons, decodeFrom, hp]; simp only [if_neg hs]; exact hk
    · rename_i s hp
      split at h
      · cases h
      · rename_i hs
        obtain ⟨k, e, hk⟩ := ih h
        refine ⟨k + 1, ?_, ?_⟩
        · simp only [Prefixes.length, hs] at e ⊢; simp at e ⊢; omega
        · rw [List.take_succ_cons, decodeFrom, hp]; simp only [if_neg hs]; exact hk
    · simp only [Bool.false_eq_true, if_false] at h
      exact absurd h decodeFrom_lock

/-- The decoder's answer rests on as many bytes as the instruction is long (R210, R218). -/
theorem decode_take {d : Bool} {l : List Byte} {i : Instr} (h : decode d l = .instr i) :
    decode d (l.take i.length) = .instr i := by
  obtain ⟨k, e, hk⟩ := decodeFrom_take h
  rw [show i.length = k by simpa [Prefixes.length] using e]
  exact hk

end Sys2Proof
end

