-- ==== Sys2Proof/Laws/State.lean ====
section
/-!
SUPPORT. What each update of the state does to each field: one lemma per field per update, all true by
`rfl`, so that no proof unfolds a record update.
-/

namespace Sys2Proof.Machine

@[simp] theorem setReg_regs (s : State) (r : Reg) (v : Word) :
    (s.setReg r v).regs = s.regs.set r v := rfl
@[simp] theorem setReg_eip (s : State) (r : Reg) (v : Word) : (s.setReg r v).eip = s.eip := rfl
@[simp] theorem setReg_eflags (s : State) (r : Reg) (v : Word) :
    (s.setReg r v).eflags = s.eflags := rfl
@[simp] theorem setReg_cr0 (s : State) (r : Reg) (v : Word) : (s.setReg r v).cr0 = s.cr0 := rfl
@[simp] theorem setReg_cr2 (s : State) (r : Reg) (v : Word) : (s.setReg r v).cr2 = s.cr2 := rfl
@[simp] theorem setReg_cr3 (s : State) (r : Reg) (v : Word) : (s.setReg r v).cr3 = s.cr3 := rfl
@[simp] theorem setReg_cr3LowZero (s : State) (r : Reg) (v : Word) :
    (s.setReg r v).cr3LowZero = s.cr3LowZero := rfl
@[simp] theorem setReg_dr0 (s : State) (r : Reg) (v : Word) : (s.setReg r v).dr0 = s.dr0 := rfl
@[simp] theorem setReg_dr1 (s : State) (r : Reg) (v : Word) : (s.setReg r v).dr1 = s.dr1 := rfl
@[simp] theorem setReg_dr2 (s : State) (r : Reg) (v : Word) : (s.setReg r v).dr2 = s.dr2 := rfl
@[simp] theorem setReg_dr3 (s : State) (r : Reg) (v : Word) : (s.setReg r v).dr3 = s.dr3 := rfl
@[simp] theorem setReg_dr6 (s : State) (r : Reg) (v : Word) : (s.setReg r v).dr6 = s.dr6 := rfl
@[simp] theorem setReg_dr7 (s : State) (r : Reg) (v : Word) : (s.setReg r v).dr7 = s.dr7 := rfl
@[simp] theorem setReg_tr6 (s : State) (r : Reg) (v : Word) : (s.setReg r v).tr6 = s.tr6 := rfl
@[simp] theorem setReg_tr7 (s : State) (r : Reg) (v : Word) : (s.setReg r v).tr7 = s.tr7 := rfl
@[simp] theorem setReg_gdtr (s : State) (r : Reg) (v : Word) : (s.setReg r v).gdtr = s.gdtr := rfl
@[simp] theorem setReg_idtr (s : State) (r : Reg) (v : Word) : (s.setReg r v).idtr = s.idtr := rfl
@[simp] theorem setReg_ldtr (s : State) (r : Reg) (v : Word) : (s.setReg r v).ldtr = s.ldtr := rfl
@[simp] theorem setReg_tr (s : State) (r : Reg) (v : Word) : (s.setReg r v).tr = s.tr := rfl
@[simp] theorem setReg_seg (s : State) (r : Reg) (v : Word) : (s.setReg r v).seg = s.seg := rfl
@[simp] theorem setReg_tlb (s : State) (r : Reg) (v : Word) : (s.setReg r v).tlb = s.tlb := rfl
@[simp] theorem setReg_pgChanges (s : State) (r : Reg) (v : Word) :
    (s.setReg r v).pgChanges = s.pgChanges := rfl
@[simp] theorem setReg_pendingDb (s : State) (r : Reg) (v : Word) :
    (s.setReg r v).pendingDb = s.pendingDb := rfl
@[simp] theorem setReg_mem (s : State) (r : Reg) (v : Word) : (s.setReg r v).mem = s.mem := rfl
@[simp] theorem setReg_platform (s : State) (r : Reg) (v : Word) :
    (s.setReg r v).platform = s.platform := rfl
@[simp] theorem setReg_trapped (s : State) (r : Reg) (v : Word) :
    (s.setReg r v).trapped = s.trapped := rfl
@[simp] theorem setReg_draws (s : State) (r : Reg) (v : Word) :
    (s.setReg r v).draws = s.draws := rfl

@[simp] theorem setSeg_regs (s : State) (r : SegReg) (v : Segment) :
    (s.setSeg r v).regs = s.regs := rfl
@[simp] theorem setSeg_eip (s : State) (r : SegReg) (v : Segment) :
    (s.setSeg r v).eip = s.eip := rfl
@[simp] theorem setSeg_eflags (s : State) (r : SegReg) (v : Segment) :
    (s.setSeg r v).eflags = s.eflags := rfl
@[simp] theorem setSeg_cr0 (s : State) (r : SegReg) (v : Segment) :
    (s.setSeg r v).cr0 = s.cr0 := rfl
@[simp] theorem setSeg_cr2 (s : State) (r : SegReg) (v : Segment) :
    (s.setSeg r v).cr2 = s.cr2 := rfl
@[simp] theorem setSeg_cr3 (s : State) (r : SegReg) (v : Segment) :
    (s.setSeg r v).cr3 = s.cr3 := rfl
@[simp] theorem setSeg_cr3LowZero (s : State) (r : SegReg) (v : Segment) :
    (s.setSeg r v).cr3LowZero = s.cr3LowZero := rfl
@[simp] theorem setSeg_dr0 (s : State) (r : SegReg) (v : Segment) :
    (s.setSeg r v).dr0 = s.dr0 := rfl
@[simp] theorem setSeg_dr1 (s : State) (r : SegReg) (v : Segment) :
    (s.setSeg r v).dr1 = s.dr1 := rfl
@[simp] theorem setSeg_dr2 (s : State) (r : SegReg) (v : Segment) :
    (s.setSeg r v).dr2 = s.dr2 := rfl
@[simp] theorem setSeg_dr3 (s : State) (r : SegReg) (v : Segment) :
    (s.setSeg r v).dr3 = s.dr3 := rfl
@[simp] theorem setSeg_dr6 (s : State) (r : SegReg) (v : Segment) :
    (s.setSeg r v).dr6 = s.dr6 := rfl
@[simp] theorem setSeg_dr7 (s : State) (r : SegReg) (v : Segment) :
    (s.setSeg r v).dr7 = s.dr7 := rfl
@[simp] theorem setSeg_tr6 (s : State) (r : SegReg) (v : Segment) :
    (s.setSeg r v).tr6 = s.tr6 := rfl
@[simp] theorem setSeg_tr7 (s : State) (r : SegReg) (v : Segment) :
    (s.setSeg r v).tr7 = s.tr7 := rfl
@[simp] theorem setSeg_gdtr (s : State) (r : SegReg) (v : Segment) :
    (s.setSeg r v).gdtr = s.gdtr := rfl
@[simp] theorem setSeg_idtr (s : State) (r : SegReg) (v : Segment) :
    (s.setSeg r v).idtr = s.idtr := rfl
@[simp] theorem setSeg_ldtr (s : State) (r : SegReg) (v : Segment) :
    (s.setSeg r v).ldtr = s.ldtr := rfl
@[simp] theorem setSeg_tr (s : State) (r : SegReg) (v : Segment) : (s.setSeg r v).tr = s.tr := rfl
@[simp] theorem setSeg_seg (s : State) (r : SegReg) (v : Segment) :
    (s.setSeg r v).seg = s.seg.set r v := rfl
@[simp] theorem setSeg_tlb (s : State) (r : SegReg) (v : Segment) :
    (s.setSeg r v).tlb = s.tlb := rfl
@[simp] theorem setSeg_pgChanges (s : State) (r : SegReg) (v : Segment) :
    (s.setSeg r v).pgChanges = s.pgChanges := rfl
@[simp] theorem setSeg_pendingDb (s : State) (r : SegReg) (v : Segment) :
    (s.setSeg r v).pendingDb = s.pendingDb := rfl
@[simp] theorem setSeg_mem (s : State) (r : SegReg) (v : Segment) :
    (s.setSeg r v).mem = s.mem := rfl
@[simp] theorem setSeg_platform (s : State) (r : SegReg) (v : Segment) :
    (s.setSeg r v).platform = s.platform := rfl
@[simp] theorem setSeg_trapped (s : State) (r : SegReg) (v : Segment) :
    (s.setSeg r v).trapped = s.trapped := rfl
@[simp] theorem setSeg_draws (s : State) (r : SegReg) (v : Segment) :
    (s.setSeg r v).draws = s.draws := rfl

@[simp] theorem afterDraw_regs (s : State) : s.afterDraw.regs = s.regs := rfl
@[simp] theorem afterDraw_eip (s : State) : s.afterDraw.eip = s.eip := rfl
@[simp] theorem afterDraw_eflags (s : State) : s.afterDraw.eflags = s.eflags := rfl
@[simp] theorem afterDraw_cr0 (s : State) : s.afterDraw.cr0 = s.cr0 := rfl
@[simp] theorem afterDraw_cr2 (s : State) : s.afterDraw.cr2 = s.cr2 := rfl
@[simp] theorem afterDraw_cr3 (s : State) : s.afterDraw.cr3 = s.cr3 := rfl
@[simp] theorem afterDraw_cr3LowZero (s : State) : s.afterDraw.cr3LowZero = s.cr3LowZero := rfl
@[simp] theorem afterDraw_dr0 (s : State) : s.afterDraw.dr0 = s.dr0 := rfl
@[simp] theorem afterDraw_dr1 (s : State) : s.afterDraw.dr1 = s.dr1 := rfl
@[simp] theorem afterDraw_dr2 (s : State) : s.afterDraw.dr2 = s.dr2 := rfl
@[simp] theorem afterDraw_dr3 (s : State) : s.afterDraw.dr3 = s.dr3 := rfl
@[simp] theorem afterDraw_dr6 (s : State) : s.afterDraw.dr6 = s.dr6 := rfl
@[simp] theorem afterDraw_dr7 (s : State) : s.afterDraw.dr7 = s.dr7 := rfl
@[simp] theorem afterDraw_tr6 (s : State) : s.afterDraw.tr6 = s.tr6 := rfl
@[simp] theorem afterDraw_tr7 (s : State) : s.afterDraw.tr7 = s.tr7 := rfl
@[simp] theorem afterDraw_gdtr (s : State) : s.afterDraw.gdtr = s.gdtr := rfl
@[simp] theorem afterDraw_idtr (s : State) : s.afterDraw.idtr = s.idtr := rfl
@[simp] theorem afterDraw_ldtr (s : State) : s.afterDraw.ldtr = s.ldtr := rfl
@[simp] theorem afterDraw_tr (s : State) : s.afterDraw.tr = s.tr := rfl
@[simp] theorem afterDraw_seg (s : State) : s.afterDraw.seg = s.seg := rfl
@[simp] theorem afterDraw_tlb (s : State) : s.afterDraw.tlb = s.tlb := rfl
@[simp] theorem afterDraw_pgChanges (s : State) : s.afterDraw.pgChanges = s.pgChanges := rfl
@[simp] theorem afterDraw_pendingDb (s : State) : s.afterDraw.pendingDb = s.pendingDb := rfl
@[simp] theorem afterDraw_mem (s : State) : s.afterDraw.mem = s.mem := rfl
@[simp] theorem afterDraw_platform (s : State) : s.afterDraw.platform = s.platform := rfl
@[simp] theorem afterDraw_trapped (s : State) : s.afterDraw.trapped = s.trapped := rfl
@[simp] theorem afterDraw_draws (s : State) : s.afterDraw.draws = s.draws + 1 := rfl

@[simp] theorem undefineStatus_regs (s : State) : s.undefineStatus.regs = s.regs := rfl
@[simp] theorem undefineStatus_eip (s : State) : s.undefineStatus.eip = s.eip := rfl
@[simp] theorem undefineStatus_eflags (s : State) :
    s.undefineStatus.eflags = insertBits statusMask s.eflags s.drawn := rfl
@[simp] theorem undefineStatus_cr0 (s : State) : s.undefineStatus.cr0 = s.cr0 := rfl
@[simp] theorem undefineStatus_cr2 (s : State) : s.undefineStatus.cr2 = s.cr2 := rfl
@[simp] theorem undefineStatus_cr3 (s : State) : s.undefineStatus.cr3 = s.cr3 := rfl
@[simp] theorem undefineStatus_cr3LowZero (s : State) :
    s.undefineStatus.cr3LowZero = s.cr3LowZero := rfl
@[simp] theorem undefineStatus_dr0 (s : State) : s.undefineStatus.dr0 = s.dr0 := rfl
@[simp] theorem undefineStatus_dr1 (s : State) : s.undefineStatus.dr1 = s.dr1 := rfl
@[simp] theorem undefineStatus_dr2 (s : State) : s.undefineStatus.dr2 = s.dr2 := rfl
@[simp] theorem undefineStatus_dr3 (s : State) : s.undefineStatus.dr3 = s.dr3 := rfl
@[simp] theorem undefineStatus_dr6 (s : State) : s.undefineStatus.dr6 = s.dr6 := rfl
@[simp] theorem undefineStatus_dr7 (s : State) : s.undefineStatus.dr7 = s.dr7 := rfl
@[simp] theorem undefineStatus_tr6 (s : State) : s.undefineStatus.tr6 = s.tr6 := rfl
@[simp] theorem undefineStatus_tr7 (s : State) : s.undefineStatus.tr7 = s.tr7 := rfl
@[simp] theorem undefineStatus_gdtr (s : State) : s.undefineStatus.gdtr = s.gdtr := rfl
@[simp] theorem undefineStatus_idtr (s : State) : s.undefineStatus.idtr = s.idtr := rfl
@[simp] theorem undefineStatus_ldtr (s : State) : s.undefineStatus.ldtr = s.ldtr := rfl
@[simp] theorem undefineStatus_tr (s : State) : s.undefineStatus.tr = s.tr := rfl
@[simp] theorem undefineStatus_seg (s : State) : s.undefineStatus.seg = s.seg := rfl
@[simp] theorem undefineStatus_tlb (s : State) : s.undefineStatus.tlb = s.tlb := rfl
@[simp] theorem undefineStatus_pgChanges (s : State) :
    s.undefineStatus.pgChanges = s.pgChanges := rfl
@[simp] theorem undefineStatus_pendingDb (s : State) :
    s.undefineStatus.pendingDb = s.pendingDb := rfl
@[simp] theorem undefineStatus_mem (s : State) : s.undefineStatus.mem = s.mem := rfl
@[simp] theorem undefineStatus_platform (s : State) : s.undefineStatus.platform = s.platform := rfl
@[simp] theorem undefineStatus_trapped (s : State) : s.undefineStatus.trapped = s.trapped := rfl
@[simp] theorem undefineStatus_draws (s : State) : s.undefineStatus.draws = s.draws + 1 := rfl

@[simp] theorem clearRf_regs (s : State) : s.clearRf.regs = s.regs := rfl
@[simp] theorem clearRf_eip (s : State) : s.clearRf.eip = s.eip := rfl
@[simp] theorem clearRf_eflags (s : State) : s.clearRf.eflags = s.eflags &&& ~~~rfMask := rfl
@[simp] theorem clearRf_cr0 (s : State) : s.clearRf.cr0 = s.cr0 := rfl
@[simp] theorem clearRf_cr2 (s : State) : s.clearRf.cr2 = s.cr2 := rfl
@[simp] theorem clearRf_cr3 (s : State) : s.clearRf.cr3 = s.cr3 := rfl
@[simp] theorem clearRf_cr3LowZero (s : State) : s.clearRf.cr3LowZero = s.cr3LowZero := rfl
@[simp] theorem clearRf_dr0 (s : State) : s.clearRf.dr0 = s.dr0 := rfl
@[simp] theorem clearRf_dr1 (s : State) : s.clearRf.dr1 = s.dr1 := rfl
@[simp] theorem clearRf_dr2 (s : State) : s.clearRf.dr2 = s.dr2 := rfl
@[simp] theorem clearRf_dr3 (s : State) : s.clearRf.dr3 = s.dr3 := rfl
@[simp] theorem clearRf_dr6 (s : State) : s.clearRf.dr6 = s.dr6 := rfl
@[simp] theorem clearRf_dr7 (s : State) : s.clearRf.dr7 = s.dr7 := rfl
@[simp] theorem clearRf_tr6 (s : State) : s.clearRf.tr6 = s.tr6 := rfl
@[simp] theorem clearRf_tr7 (s : State) : s.clearRf.tr7 = s.tr7 := rfl
@[simp] theorem clearRf_gdtr (s : State) : s.clearRf.gdtr = s.gdtr := rfl
@[simp] theorem clearRf_idtr (s : State) : s.clearRf.idtr = s.idtr := rfl
@[simp] theorem clearRf_ldtr (s : State) : s.clearRf.ldtr = s.ldtr := rfl
@[simp] theorem clearRf_tr (s : State) : s.clearRf.tr = s.tr := rfl
@[simp] theorem clearRf_seg (s : State) : s.clearRf.seg = s.seg := rfl
@[simp] theorem clearRf_tlb (s : State) : s.clearRf.tlb = s.tlb := rfl
@[simp] theorem clearRf_pgChanges (s : State) : s.clearRf.pgChanges = s.pgChanges := rfl
@[simp] theorem clearRf_pendingDb (s : State) : s.clearRf.pendingDb = s.pendingDb := rfl
@[simp] theorem clearRf_mem (s : State) : s.clearRf.mem = s.mem := rfl
@[simp] theorem clearRf_platform (s : State) : s.clearRf.platform = s.platform := rfl
@[simp] theorem clearRf_trapped (s : State) : s.clearRf.trapped = s.trapped := rfl
@[simp] theorem clearRf_draws (s : State) : s.clearRf.draws = s.draws := rfl

@[simp] theorem takeException_regs (x : Exc) (c : ExcClass) (e : ErrorCode) (s : State) :
    (takeException x c e s).regs = s.regs := rfl
@[simp] theorem takeException_eip (x : Exc) (c : ExcClass) (e : ErrorCode) (s : State) :
    (takeException x c e s).eip = s.eip := rfl
@[simp] theorem takeException_eflags (x : Exc) (c : ExcClass) (e : ErrorCode) (s : State) :
    (takeException x c e s).eflags = s.eflags &&& ~~~tfMask := rfl
@[simp] theorem takeException_cr0 (x : Exc) (c : ExcClass) (e : ErrorCode) (s : State) :
    (takeException x c e s).cr0 = s.cr0 := rfl
@[simp] theorem takeException_cr2 (x : Exc) (c : ExcClass) (e : ErrorCode) (s : State) :
    (takeException x c e s).cr2 = s.cr2 := rfl
@[simp] theorem takeException_cr3 (x : Exc) (c : ExcClass) (e : ErrorCode) (s : State) :
    (takeException x c e s).cr3 = s.cr3 := rfl
@[simp] theorem takeException_cr3LowZero (x : Exc) (c : ExcClass) (e : ErrorCode) (s : State) :
    (takeException x c e s).cr3LowZero = s.cr3LowZero := rfl
@[simp] theorem takeException_dr0 (x : Exc) (c : ExcClass) (e : ErrorCode) (s : State) :
    (takeException x c e s).dr0 = s.dr0 := rfl
@[simp] theorem takeException_dr1 (x : Exc) (c : ExcClass) (e : ErrorCode) (s : State) :
    (takeException x c e s).dr1 = s.dr1 := rfl
@[simp] theorem takeException_dr2 (x : Exc) (c : ExcClass) (e : ErrorCode) (s : State) :
    (takeException x c e s).dr2 = s.dr2 := rfl
@[simp] theorem takeException_dr3 (x : Exc) (c : ExcClass) (e : ErrorCode) (s : State) :
    (takeException x c e s).dr3 = s.dr3 := rfl
@[simp] theorem takeException_dr6 (x : Exc) (c : ExcClass) (e : ErrorCode) (s : State) :
    (takeException x c e s).dr6 = s.dr6 := rfl
@[simp] theorem takeException_dr7 (x : Exc) (c : ExcClass) (e : ErrorCode) (s : State) :
    (takeException x c e s).dr7 = s.dr7 := rfl
@[simp] theorem takeException_tr6 (x : Exc) (c : ExcClass) (e : ErrorCode) (s : State) :
    (takeException x c e s).tr6 = s.tr6 := rfl
@[simp] theorem takeException_tr7 (x : Exc) (c : ExcClass) (e : ErrorCode) (s : State) :
    (takeException x c e s).tr7 = s.tr7 := rfl
@[simp] theorem takeException_gdtr (x : Exc) (c : ExcClass) (e : ErrorCode) (s : State) :
    (takeException x c e s).gdtr = s.gdtr := rfl
@[simp] theorem takeException_idtr (x : Exc) (c : ExcClass) (e : ErrorCode) (s : State) :
    (takeException x c e s).idtr = s.idtr := rfl
@[simp] theorem takeException_ldtr (x : Exc) (c : ExcClass) (e : ErrorCode) (s : State) :
    (takeException x c e s).ldtr = s.ldtr := rfl
@[simp] theorem takeException_tr (x : Exc) (c : ExcClass) (e : ErrorCode) (s : State) :
    (takeException x c e s).tr = s.tr := rfl
@[simp] theorem takeException_seg (x : Exc) (c : ExcClass) (e : ErrorCode) (s : State) :
    (takeException x c e s).seg = s.seg := rfl
@[simp] theorem takeException_tlb (x : Exc) (c : ExcClass) (e : ErrorCode) (s : State) :
    (takeException x c e s).tlb = s.tlb := rfl
@[simp] theorem takeException_pgChanges (x : Exc) (c : ExcClass) (e : ErrorCode) (s : State) :
    (takeException x c e s).pgChanges = s.pgChanges := rfl
@[simp] theorem takeException_pendingDb (x : Exc) (c : ExcClass) (e : ErrorCode) (s : State) :
    (takeException x c e s).pendingDb = 0 := rfl
@[simp] theorem takeException_mem (x : Exc) (c : ExcClass) (e : ErrorCode) (s : State) :
    (takeException x c e s).mem = s.mem := rfl
@[simp] theorem takeException_platform (x : Exc) (c : ExcClass) (e : ErrorCode) (s : State) :
    (takeException x c e s).platform = s.platform := rfl
@[simp] theorem takeException_trapped (x : Exc) (c : ExcClass) (e : ErrorCode) (s : State) :
    (takeException x c e s).trapped = some { exc := x, cls := c, err := e } := rfl
@[simp] theorem takeException_draws (x : Exc) (c : ExcClass) (e : ErrorCode) (s : State) :
    (takeException x c e s).draws = s.draws := rfl

@[simp] theorem tlbStore_regs (e : TlbEntry) (s : State) : (tlbStore e s).regs = s.regs := rfl
@[simp] theorem tlbStore_eip (e : TlbEntry) (s : State) : (tlbStore e s).eip = s.eip := rfl
@[simp] theorem tlbStore_eflags (e : TlbEntry) (s : State) : (tlbStore e s).eflags = s.eflags := rfl
@[simp] theorem tlbStore_cr0 (e : TlbEntry) (s : State) : (tlbStore e s).cr0 = s.cr0 := rfl
@[simp] theorem tlbStore_cr2 (e : TlbEntry) (s : State) : (tlbStore e s).cr2 = s.cr2 := rfl
@[simp] theorem tlbStore_cr3 (e : TlbEntry) (s : State) : (tlbStore e s).cr3 = s.cr3 := rfl
@[simp] theorem tlbStore_cr3LowZero (e : TlbEntry) (s : State) :
    (tlbStore e s).cr3LowZero = s.cr3LowZero := rfl
@[simp] theorem tlbStore_dr0 (e : TlbEntry) (s : State) : (tlbStore e s).dr0 = s.dr0 := rfl
@[simp] theorem tlbStore_dr1 (e : TlbEntry) (s : State) : (tlbStore e s).dr1 = s.dr1 := rfl
@[simp] theorem tlbStore_dr2 (e : TlbEntry) (s : State) : (tlbStore e s).dr2 = s.dr2 := rfl
@[simp] theorem tlbStore_dr3 (e : TlbEntry) (s : State) : (tlbStore e s).dr3 = s.dr3 := rfl
@[simp] theorem tlbStore_dr6 (e : TlbEntry) (s : State) : (tlbStore e s).dr6 = s.dr6 := rfl
@[simp] theorem tlbStore_dr7 (e : TlbEntry) (s : State) : (tlbStore e s).dr7 = s.dr7 := rfl
@[simp] theorem tlbStore_tr6 (e : TlbEntry) (s : State) : (tlbStore e s).tr6 = s.tr6 := rfl
@[simp] theorem tlbStore_tr7 (e : TlbEntry) (s : State) : (tlbStore e s).tr7 = s.tr7 := rfl
@[simp] theorem tlbStore_gdtr (e : TlbEntry) (s : State) : (tlbStore e s).gdtr = s.gdtr := rfl
@[simp] theorem tlbStore_idtr (e : TlbEntry) (s : State) : (tlbStore e s).idtr = s.idtr := rfl
@[simp] theorem tlbStore_ldtr (e : TlbEntry) (s : State) : (tlbStore e s).ldtr = s.ldtr := rfl
@[simp] theorem tlbStore_tr (e : TlbEntry) (s : State) : (tlbStore e s).tr = s.tr := rfl
@[simp] theorem tlbStore_seg (e : TlbEntry) (s : State) : (tlbStore e s).seg = s.seg := rfl
@[simp] theorem tlbStore_tlb (e : TlbEntry) (s : State) :
    (tlbStore e s).tlb = tlbInsert s.tlb e s.drawn := rfl
@[simp] theorem tlbStore_pgChanges (e : TlbEntry) (s : State) :
    (tlbStore e s).pgChanges = s.pgChanges := rfl
@[simp] theorem tlbStore_pendingDb (e : TlbEntry) (s : State) :
    (tlbStore e s).pendingDb = s.pendingDb := rfl
@[simp] theorem tlbStore_mem (e : TlbEntry) (s : State) : (tlbStore e s).mem = s.mem := rfl
@[simp] theorem tlbStore_platform (e : TlbEntry) (s : State) :
    (tlbStore e s).platform = s.platform := rfl
@[simp] theorem tlbStore_trapped (e : TlbEntry) (s : State) :
    (tlbStore e s).trapped = s.trapped := rfl
@[simp] theorem tlbStore_draws (e : TlbEntry) (s : State) :
    (tlbStore e s).draws = s.draws + 1 := rfl

@[simp] theorem pageFault_regs (la : Word) (acc : Access) (p : Bool) (s : State) :
    (pageFault la acc p s).regs = s.regs := rfl
@[simp] theorem pageFault_eip (la : Word) (acc : Access) (p : Bool) (s : State) :
    (pageFault la acc p s).eip = s.eip := rfl
@[simp] theorem pageFault_eflags (la : Word) (acc : Access) (p : Bool) (s : State) :
    (pageFault la acc p s).eflags = s.eflags &&& ~~~tfMask := rfl
@[simp] theorem pageFault_cr0 (la : Word) (acc : Access) (p : Bool) (s : State) :
    (pageFault la acc p s).cr0 = s.cr0 := rfl
@[simp] theorem pageFault_cr2 (la : Word) (acc : Access) (p : Bool) (s : State) :
    (pageFault la acc p s).cr2 = la := rfl
@[simp] theorem pageFault_cr3 (la : Word) (acc : Access) (p : Bool) (s : State) :
    (pageFault la acc p s).cr3 = s.cr3 := rfl
@[simp] theorem pageFault_cr3LowZero (la : Word) (acc : Access) (p : Bool) (s : State) :
    (pageFault la acc p s).cr3LowZero = s.cr3LowZero := rfl
@[simp] theorem pageFault_dr0 (la : Word) (acc : Access) (p : Bool) (s : State) :
    (pageFault la acc p s).dr0 = s.dr0 := rfl
@[simp] theorem pageFault_dr1 (la : Word) (acc : Access) (p : Bool) (s : State) :
    (pageFault la acc p s).dr1 = s.dr1 := rfl
@[simp] theorem pageFault_dr2 (la : Word) (acc : Access) (p : Bool) (s : State) :
    (pageFault la acc p s).dr2 = s.dr2 := rfl
@[simp] theorem pageFault_dr3 (la : Word) (acc : Access) (p : Bool) (s : State) :
    (pageFault la acc p s).dr3 = s.dr3 := rfl
@[simp] theorem pageFault_dr6 (la : Word) (acc : Access) (p : Bool) (s : State) :
    (pageFault la acc p s).dr6 = s.dr6 := rfl
@[simp] theorem pageFault_dr7 (la : Word) (acc : Access) (p : Bool) (s : State) :
    (pageFault la acc p s).dr7 = s.dr7 := rfl
@[simp] theorem pageFault_tr6 (la : Word) (acc : Access) (p : Bool) (s : State) :
    (pageFault la acc p s).tr6 = s.tr6 := rfl
@[simp] theorem pageFault_tr7 (la : Word) (acc : Access) (p : Bool) (s : State) :
    (pageFault la acc p s).tr7 = s.tr7 := rfl
@[simp] theorem pageFault_gdtr (la : Word) (acc : Access) (p : Bool) (s : State) :
    (pageFault la acc p s).gdtr = s.gdtr := rfl
@[simp] theorem pageFault_idtr (la : Word) (acc : Access) (p : Bool) (s : State) :
    (pageFault la acc p s).idtr = s.idtr := rfl
@[simp] theorem pageFault_ldtr (la : Word) (acc : Access) (p : Bool) (s : State) :
    (pageFault la acc p s).ldtr = s.ldtr := rfl
@[simp] theorem pageFault_tr (la : Word) (acc : Access) (p : Bool) (s : State) :
    (pageFault la acc p s).tr = s.tr := rfl
@[simp] theorem pageFault_seg (la : Word) (acc : Access) (p : Bool) (s : State) :
    (pageFault la acc p s).seg = s.seg := rfl
@[simp] theorem pageFault_tlb (la : Word) (acc : Access) (p : Bool) (s : State) :
    (pageFault la acc p s).tlb = s.tlb := rfl
@[simp] theorem pageFault_pgChanges (la : Word) (acc : Access) (p : Bool) (s : State) :
    (pageFault la acc p s).pgChanges = s.pgChanges := rfl
@[simp] theorem pageFault_pendingDb (la : Word) (acc : Access) (p : Bool) (s : State) :
    (pageFault la acc p s).pendingDb = 0 := rfl
@[simp] theorem pageFault_mem (la : Word) (acc : Access) (p : Bool) (s : State) :
    (pageFault la acc p s).mem = s.mem := rfl
@[simp] theorem pageFault_platform (la : Word) (acc : Access) (p : Bool) (s : State) :
    (pageFault la acc p s).platform = s.platform := rfl
@[simp] theorem pageFault_trapped (la : Word) (acc : Access) (p : Bool) (s : State) :
    (pageFault la acc p s).trapped = some { exc := .pf, cls := .fault, err := .page p (acc.kind = .write) acc.user } := rfl
@[simp] theorem pageFault_draws (la : Word) (acc : Access) (p : Bool) (s : State) :
    (pageFault la acc p s).draws = s.draws := rfl

@[simp] theorem debugException_regs (c : ExcClass) (b : Word) (s : State) :
    (debugException c b s).regs = s.regs := rfl
@[simp] theorem debugException_eip (c : ExcClass) (b : Word) (s : State) :
    (debugException c b s).eip = s.eip := rfl
@[simp] theorem debugException_eflags (c : ExcClass) (b : Word) (s : State) :
    (debugException c b s).eflags = s.eflags &&& ~~~tfMask := rfl
@[simp] theorem debugException_cr0 (c : ExcClass) (b : Word) (s : State) :
    (debugException c b s).cr0 = s.cr0 := rfl
@[simp] theorem debugException_cr2 (c : ExcClass) (b : Word) (s : State) :
    (debugException c b s).cr2 = s.cr2 := rfl
@[simp] theorem debugException_cr3 (c : ExcClass) (b : Word) (s : State) :
    (debugException c b s).cr3 = s.cr3 := rfl
@[simp] theorem debugException_cr3LowZero (c : ExcClass) (b : Word) (s : State) :
    (debugException c b s).cr3LowZero = s.cr3LowZero := rfl
@[simp] theorem debugException_dr0 (c : ExcClass) (b : Word) (s : State) :
    (debugException c b s).dr0 = s.dr0 := rfl
@[simp] theorem debugException_dr1 (c : ExcClass) (b : Word) (s : State) :
    (debugException c b s).dr1 = s.dr1 := rfl
@[simp] theorem debugException_dr2 (c : ExcClass) (b : Word) (s : State) :
    (debugException c b s).dr2 = s.dr2 := rfl
@[simp] theorem debugException_dr3 (c : ExcClass) (b : Word) (s : State) :
    (debugException c b s).dr3 = s.dr3 := rfl
@[simp] theorem debugException_dr6 (c : ExcClass) (b : Word) (s : State) :
    (debugException c b s).dr6 = s.dr6 ||| b ||| (s.drawn &&& disabledMask s.dr7) := rfl
@[simp] theorem debugException_dr7 (c : ExcClass) (b : Word) (s : State) :
    (debugException c b s).dr7 = s.dr7 &&& ~~~gdMask := rfl
@[simp] theorem debugException_tr6 (c : ExcClass) (b : Word) (s : State) :
    (debugException c b s).tr6 = s.tr6 := rfl
@[simp] theorem debugException_tr7 (c : ExcClass) (b : Word) (s : State) :
    (debugException c b s).tr7 = s.tr7 := rfl
@[simp] theorem debugException_gdtr (c : ExcClass) (b : Word) (s : State) :
    (debugException c b s).gdtr = s.gdtr := rfl
@[simp] theorem debugException_idtr (c : ExcClass) (b : Word) (s : State) :
    (debugException c b s).idtr = s.idtr := rfl
@[simp] theorem debugException_ldtr (c : ExcClass) (b : Word) (s : State) :
    (debugException c b s).ldtr = s.ldtr := rfl
@[simp] theorem debugException_tr (c : ExcClass) (b : Word) (s : State) :
    (debugException c b s).tr = s.tr := rfl
@[simp] theorem debugException_seg (c : ExcClass) (b : Word) (s : State) :
    (debugException c b s).seg = s.seg := rfl
@[simp] theorem debugException_tlb (c : ExcClass) (b : Word) (s : State) :
    (debugException c b s).tlb = s.tlb := rfl
@[simp] theorem debugException_pgChanges (c : ExcClass) (b : Word) (s : State) :
    (debugException c b s).pgChanges = s.pgChanges := rfl
@[simp] theorem debugException_pendingDb (c : ExcClass) (b : Word) (s : State) :
    (debugException c b s).pendingDb = 0 := rfl
@[simp] theorem debugException_mem (c : ExcClass) (b : Word) (s : State) :
    (debugException c b s).mem = s.mem := rfl
@[simp] theorem debugException_platform (c : ExcClass) (b : Word) (s : State) :
    (debugException c b s).platform = s.platform := rfl
@[simp] theorem debugException_trapped (c : ExcClass) (b : Word) (s : State) :
    (debugException c b s).trapped = some { exc := .db, cls := c, err := .none } := rfl
@[simp] theorem debugException_draws (c : ExcClass) (b : Word) (s : State) :
    (debugException c b s).draws = s.draws + 1 := rfl

@[simp] theorem writeCr0_regs (v : Word) (s : State) : (writeCr0 v s).regs = s.regs := rfl
@[simp] theorem writeCr0_eip (v : Word) (s : State) : (writeCr0 v s).eip = s.eip := rfl
@[simp] theorem writeCr0_eflags (v : Word) (s : State) : (writeCr0 v s).eflags = s.eflags := rfl
@[simp] theorem writeCr0_cr0 (v : Word) (s : State) : (writeCr0 v s).cr0 = v &&& cr0Defined := rfl
@[simp] theorem writeCr0_cr2 (v : Word) (s : State) : (writeCr0 v s).cr2 = s.cr2 := rfl
@[simp] theorem writeCr0_cr3 (v : Word) (s : State) : (writeCr0 v s).cr3 = s.cr3 := rfl
@[simp] theorem writeCr0_cr3LowZero (v : Word) (s : State) :
    (writeCr0 v s).cr3LowZero = s.cr3LowZero := rfl
@[simp] theorem writeCr0_dr0 (v : Word) (s : State) : (writeCr0 v s).dr0 = s.dr0 := rfl
@[simp] theorem writeCr0_dr1 (v : Word) (s : State) : (writeCr0 v s).dr1 = s.dr1 := rfl
@[simp] theorem writeCr0_dr2 (v : Word) (s : State) : (writeCr0 v s).dr2 = s.dr2 := rfl
@[simp] theorem writeCr0_dr3 (v : Word) (s : State) : (writeCr0 v s).dr3 = s.dr3 := rfl
@[simp] theorem writeCr0_dr6 (v : Word) (s : State) : (writeCr0 v s).dr6 = s.dr6 := rfl
@[simp] theorem writeCr0_dr7 (v : Word) (s : State) : (writeCr0 v s).dr7 = s.dr7 := rfl
@[simp] theorem writeCr0_tr6 (v : Word) (s : State) : (writeCr0 v s).tr6 = s.tr6 := rfl
@[simp] theorem writeCr0_tr7 (v : Word) (s : State) : (writeCr0 v s).tr7 = s.tr7 := rfl
@[simp] theorem writeCr0_gdtr (v : Word) (s : State) : (writeCr0 v s).gdtr = s.gdtr := rfl
@[simp] theorem writeCr0_idtr (v : Word) (s : State) : (writeCr0 v s).idtr = s.idtr := rfl
@[simp] theorem writeCr0_ldtr (v : Word) (s : State) : (writeCr0 v s).ldtr = s.ldtr := rfl
@[simp] theorem writeCr0_tr (v : Word) (s : State) : (writeCr0 v s).tr = s.tr := rfl
@[simp] theorem writeCr0_seg (v : Word) (s : State) : (writeCr0 v s).seg = s.seg := rfl
@[simp] theorem writeCr0_tlb (v : Word) (s : State) : (writeCr0 v s).tlb = s.tlb := rfl
@[simp] theorem writeCr0_pgChanges (v : Word) (s : State) :
    (writeCr0 v s).pgChanges = if v.getLsbD 31 = s.pg then s.pgChanges else s.pgChanges + 1 := rfl
@[simp] theorem writeCr0_pendingDb (v : Word) (s : State) :
    (writeCr0 v s).pendingDb = s.pendingDb := rfl
@[simp] theorem writeCr0_mem (v : Word) (s : State) : (writeCr0 v s).mem = s.mem := rfl
@[simp] theorem writeCr0_platform (v : Word) (s : State) :
    (writeCr0 v s).platform = s.platform := rfl
@[simp] theorem writeCr0_trapped (v : Word) (s : State) : (writeCr0 v s).trapped = s.trapped := rfl
@[simp] theorem writeCr0_draws (v : Word) (s : State) : (writeCr0 v s).draws = s.draws := rfl

@[simp] theorem writeMsw_regs (v : Half) (s : State) : (writeMsw v s).regs = s.regs := rfl
@[simp] theorem writeMsw_eip (v : Half) (s : State) : (writeMsw v s).eip = s.eip := rfl
@[simp] theorem writeMsw_eflags (v : Half) (s : State) : (writeMsw v s).eflags = s.eflags := rfl
@[simp] theorem writeMsw_cr0 (v : Half) (s : State) :
    (writeMsw v s).cr0 = insertBits lmswMask s.cr0 (v.zeroExtend 32) ||| (v.zeroExtend 32 &&& 1) := rfl
@[simp] theorem writeMsw_cr2 (v : Half) (s : State) : (writeMsw v s).cr2 = s.cr2 := rfl
@[simp] theorem writeMsw_cr3 (v : Half) (s : State) : (writeMsw v s).cr3 = s.cr3 := rfl
@[simp] theorem writeMsw_cr3LowZero (v : Half) (s : State) :
    (writeMsw v s).cr3LowZero = s.cr3LowZero := rfl
@[simp] theorem writeMsw_dr0 (v : Half) (s : State) : (writeMsw v s).dr0 = s.dr0 := rfl
@[simp] theorem writeMsw_dr1 (v : Half) (s : State) : (writeMsw v s).dr1 = s.dr1 := rfl
@[simp] theorem writeMsw_dr2 (v : Half) (s : State) : (writeMsw v s).dr2 = s.dr2 := rfl
@[simp] theorem writeMsw_dr3 (v : Half) (s : State) : (writeMsw v s).dr3 = s.dr3 := rfl
@[simp] theorem writeMsw_dr6 (v : Half) (s : State) : (writeMsw v s).dr6 = s.dr6 := rfl
@[simp] theorem writeMsw_dr7 (v : Half) (s : State) : (writeMsw v s).dr7 = s.dr7 := rfl
@[simp] theorem writeMsw_tr6 (v : Half) (s : State) : (writeMsw v s).tr6 = s.tr6 := rfl
@[simp] theorem writeMsw_tr7 (v : Half) (s : State) : (writeMsw v s).tr7 = s.tr7 := rfl
@[simp] theorem writeMsw_gdtr (v : Half) (s : State) : (writeMsw v s).gdtr = s.gdtr := rfl
@[simp] theorem writeMsw_idtr (v : Half) (s : State) : (writeMsw v s).idtr = s.idtr := rfl
@[simp] theorem writeMsw_ldtr (v : Half) (s : State) : (writeMsw v s).ldtr = s.ldtr := rfl
@[simp] theorem writeMsw_tr (v : Half) (s : State) : (writeMsw v s).tr = s.tr := rfl
@[simp] theorem writeMsw_seg (v : Half) (s : State) : (writeMsw v s).seg = s.seg := rfl
@[simp] theorem writeMsw_tlb (v : Half) (s : State) : (writeMsw v s).tlb = s.tlb := rfl
@[simp] theorem writeMsw_pgChanges (v : Half) (s : State) :
    (writeMsw v s).pgChanges = s.pgChanges := rfl
@[simp] theorem writeMsw_pendingDb (v : Half) (s : State) :
    (writeMsw v s).pendingDb = s.pendingDb := rfl
@[simp] theorem writeMsw_mem (v : Half) (s : State) : (writeMsw v s).mem = s.mem := rfl
@[simp] theorem writeMsw_platform (v : Half) (s : State) :
    (writeMsw v s).platform = s.platform := rfl
@[simp] theorem writeMsw_trapped (v : Half) (s : State) : (writeMsw v s).trapped = s.trapped := rfl
@[simp] theorem writeMsw_draws (v : Half) (s : State) : (writeMsw v s).draws = s.draws := rfl

theorem writeCr3_cr3 (v : Word) (s : State) :
    (writeCr3 v s).cr3 = if v.extractLsb' 0 12 = 0 then v else insertBits 0xFFF v s.drawn := by
  unfold writeCr3; split <;> rfl
theorem writeCr3_cr3LowZero (v : Word) (s : State) :
    (writeCr3 v s).cr3LowZero = decide (v.extractLsb' 0 12 = 0) := by
  unfold writeCr3; split <;> simp_all
@[simp] theorem writeCr3_tlb (v : Word) (s : State) : (writeCr3 v s).tlb = [] := by
  unfold writeCr3; split <;> rfl
/-- A write of CR3 changes CR3, the flag of its low bits and the TLB, and may draw a free value. -/
theorem writeCr3_frame (v : Word) (s : State) :
    writeCr3 v s = { s with
      cr3 := (writeCr3 v s).cr3, cr3LowZero := (writeCr3 v s).cr3LowZero, tlb := [],
      draws := (writeCr3 v s).draws } := by
  unfold writeCr3; split <;> rfl

@[simp] theorem get_set_same (g : Regs) (r : Reg) (v : Word) : (g.set r v).get r = v := by
  cases r <;> rfl
theorem get_set_other (g : Regs) {r q : Reg} (v : Word) (h : q ≠ r) : (g.set r v).get q = g.get q := by
  cases r <;> cases q <;> first | rfl | exact absurd rfl h
@[simp] theorem reg_setReg_same (s : State) (r : Reg) (v : Word) : (s.setReg r v).reg r = v :=
  get_set_same _ _ _
theorem reg_setReg_other (s : State) {r q : Reg} (v : Word) (h : q ≠ r) :
    (s.setReg r v).reg q = s.reg q :=
  get_set_other _ _ h
@[simp] theorem segGet_set_same (g : Segments) (r : SegReg) (v : Segment) : (g.set r v).get r = v := by
  cases r <;> rfl
theorem segGet_set_other (g : Segments) {r q : SegReg} (v : Segment) (h : q ≠ r) :
    (g.set r v).get q = g.get q := by
  cases r <;> cases q <;> first | rfl | exact absurd rfl h

/-- An operation after another ends well only where both do. -/
theorem bind_eq_ok {α β : Type} {r : Res α} {f : α → State → Res β} {b : β} {t : State}
    (h : r.bind f = .ok b t) : ∃ a s, r = .ok a s ∧ f a s = .ok b t := by
  cases r with
  | ok a s => exact ⟨a, s, rfl, h⟩
  | stop o => cases h

/-- An operation after another ends the instruction where the first or the second does. -/
theorem bind_eq_stop {α β : Type} {r : Res α} {f : α → State → Res β} {o : Out}
    (h : r.bind f = .stop o) : r = .stop o ∨ ∃ a s, r = .ok a s ∧ f a s = .stop o := by
  cases r with
  | ok a s => exact .inr ⟨a, s, rfl, h⟩
  | stop o' => exact .inl (by cases h; rfl)

@[simp] theorem bind_ok {α β : Type} (a : α) (s : State) (f : α → State → Res β) :
    (Res.ok a s).bind f = f a s := rfl
@[simp] theorem bind_stop {α β : Type} (o : Out) (f : α → State → Res β) :
    (Res.stop o : Res α).bind f = .stop o := rfl
@[simp] theorem thenOut_ok {α : Type} (a : α) (s : State) (f : α → State → Out) :
    (Res.ok a s).thenOut f = f a s := rfl
@[simp] theorem thenOut_stop {α : Type} (o : Out) (f : α → State → Out) :
    (Res.stop o : Res α).thenOut f = o := rfl

/-- Where an instruction ends with an operation, its outcome is the operation's or what follows it. -/
theorem thenOut_cases {α : Type} {r : Res α} {f : α → State → Out} {o : Out} (h : r.thenOut f = o) :
    r = .stop o ∨ ∃ a s, r = .ok a s ∧ f a s = o := by
  cases r with
  | ok a s => exact .inr ⟨a, s, rfl, h⟩
  | stop o' => exact .inl (by cases h; rfl)

end Sys2Proof.Machine
end

