-- ==== Sys2Proof/Laws/Memory.lean ====
section
/-!
SUPPORT. Physical memory: a read after a write, the canonical form, and what the reads and writes of
bytes can answer.
-/

namespace Sys2Proof.Machine

/-- A read after a write to the same address gives the value written. -/
theorem lookupCell_insertCell_same (m : List Host.Cell) (a : Nat) (b : Byte) :
    lookupCell (insertCell m a b) a = some b := by
  induction m with
  | nil => simp [insertCell, lookupCell]
  | cons c m ih =>
    obtain ⟨k, c⟩ := c
    simp only [insertCell]
    split
    · simp [lookupCell]
    · split
      · simp [lookupCell]
      · rename_i h1 h2
        have : ¬k = a := fun h => h2 h.symm
        simp [lookupCell, this, ih]

/-- A write leaves every other address alone. -/
theorem lookupCell_insertCell_other (m : List Host.Cell) {a a' : Nat} (b : Byte) (h : a' ≠ a) :
    lookupCell (insertCell m a b) a' = lookupCell m a' := by
  induction m with
  | nil => simp [insertCell, lookupCell, Ne.symm h]
  | cons c m ih =>
    obtain ⟨k, c⟩ := c
    simp only [insertCell]
    split
    · simp [lookupCell, Ne.symm h]
    · split
      · rename_i h1 h2
        subst h2
        simp [lookupCell, Ne.symm h]
      · by_cases hk : k = a' <;> simp [lookupCell, hk, ih]

/-- Every address a write leaves listed was listed before, or is the one written. -/
theorem mem_insertCell {m : List Host.Cell} {a : Nat} {b : Byte} {c : Host.Cell}
    (h : c ∈ insertCell m a b) : c = (a, b) ∨ c ∈ m := by
  induction m with
  | nil => simpa [insertCell] using h
  | cons x m ih =>
    obtain ⟨k, d⟩ := x
    simp only [insertCell] at h
    split at h
    · simp only [List.mem_cons] at h ⊢; tauto
    · split at h
      · simp only [List.mem_cons] at h ⊢; tauto
      · simp only [List.mem_cons] at h ⊢
        rcases h with h | h
        · exact .inr (.inl h)
        · exact (ih h).imp id .inr

/-- A write below 2^32 keeps memory's canonical form. -/
theorem memoryWf_insertCell {m : List Host.Cell} (a : Nat) (b : Byte) (ha : a < 0x100000000)
    (h : memoryWf m = true) : memoryWf (insertCell m a b) = true := by
  simp only [memoryWf, Bool.and_eq_true, decide_eq_true_eq, List.all_eq_true] at h ⊢
  refine ⟨?_, fun c hc => ?_⟩
  · obtain ⟨hs, -⟩ := h
    induction m with
    | nil => simp [insertCell]
    | cons x m ih =>
      obtain ⟨k, d⟩ := x
      rw [List.pairwise_cons] at hs
      simp only [insertCell]
      split
      · rename_i hk
        refine List.pairwise_cons.2 ⟨fun c hc => ?_, List.pairwise_cons.2 hs⟩
        rcases List.mem_cons.1 hc with rfl | hc
        · exact hk
        · exact lt_trans hk (hs.1 c hc)
      · split
        · rename_i h1 h2
          subst h2
          exact List.pairwise_cons.2 hs
        · refine List.pairwise_cons.2 ⟨fun c hc => ?_, ih hs.2⟩
          rcases mem_insertCell hc with rfl | hc
          · simp only; omega
          · exact hs.1 c hc
  · rcases mem_insertCell hc with rfl | hc
    · exact ha
    · exact h.2 c hc

/-- Reset memory has the canonical form. -/
theorem memoryWf_reset : memoryWf State.reset.mem = true := rfl

/-- A read of a byte that answers is the byte memory holds there, and changes nothing. -/
theorem physReadByte_ok {pa : Word} {s t : State} {b : Byte} (h : physReadByte pa s = .ok b t) :
    t = s ∧ s.byteAt pa.toNat = some b := by
  unfold physReadByte at h
  split at h
  · split at h
    · cases h; simp_all [State.byteAt]
    · cases h
  · cases h

/-- A byte that memory holds is read. -/
theorem physReadByte_of_byteAt {pa : Word} {s : State} {b : Byte} (h : s.byteAt pa.toNat = some b) :
    physReadByte pa s = .ok b s := by
  unfold State.byteAt at h
  split at h
  · simp [physReadByte, *]
  · cases h

/-- A read of a byte raises no exception. -/
theorem physReadByte_ne_next (pa : Word) (s t : State) : physReadByte pa s ≠ .stop (.next t) := by
  unfold physReadByte; split
  · split <;> simp
  · simp

/-- A write of a byte that answers changes memory alone. -/
theorem physWriteByte_ok {pa : Word} {b : Byte} {s t : State} {u : Unit}
    (h : physWriteByte pa b s = .ok u t) :
    s.isRam pa.toNat = true ∧ t = { s with mem := insertCell s.mem pa.toNat b } := by
  unfold physWriteByte at h
  split at h
  · cases h; exact ⟨by assumption, rfl⟩
  · cases h

/-- A write of a byte raises no exception. -/
theorem physWriteByte_ne_next (pa : Word) (b : Byte) (s t : State) :
    physWriteByte pa b s ≠ .stop (.next t) := by
  unfold physWriteByte; split <;> simp

/-- Reads of bytes that answer change nothing, and answer as many bytes as there are addresses. -/
theorem physReadBytes_ok {pas : List Word} {s t : State} {bs : List Byte}
    (h : physReadBytes pas s = .ok bs t) : t = s ∧ pas.map (fun pa => s.byteAt pa.toNat) = bs.map some := by
  induction pas generalizing s t bs with
  | nil => cases h; exact ⟨rfl, rfl⟩
  | cons pa pas ih =>
    obtain ⟨b, u, h1, h2⟩ := bind_eq_ok h
    obtain ⟨cs, v, h3, h4⟩ := bind_eq_ok h2
    obtain ⟨rfl, hb⟩ := physReadByte_ok h1
    obtain ⟨rfl, hc⟩ := ih h3
    cases h4
    exact ⟨rfl, by simp [hb, hc]⟩

/-- Bytes that memory holds are read. -/
theorem physReadBytes_of_byteAt {pas : List Word} {s : State} {bs : List Byte}
    (h : pas.map (fun pa => s.byteAt pa.toNat) = bs.map some) : physReadBytes pas s = .ok bs s := by
  induction pas generalizing bs with
  | nil => cases bs <;> simp_all [physReadBytes]
  | cons pa pas ih =>
    cases bs with
    | nil => simp at h
    | cons b bs =>
      simp only [List.map_cons, List.cons.injEq] at h
      simp [physReadBytes, physReadByte_of_byteAt h.1, ih h.2]

/-- Reads of bytes raise no exception. -/
theorem physReadBytes_ne_next (pas : List Word) (s t : State) : physReadBytes pas s ≠ .stop (.next t) := by
  induction pas generalizing s with
  | nil => simp [physReadBytes]
  | cons pa pas ih =>
    intro h
    rcases bind_eq_stop h with h | ⟨b, u, -, h⟩
    · exact physReadByte_ne_next _ _ _ h
    · rcases bind_eq_stop h with h | ⟨bs, v, -, h⟩
      · exact ih _ h
      · cases h

/-- Writes of bytes that answer change memory alone, keep its canonical form, and change no byte at
another address. -/
theorem physWriteBytes_ok {l : List (Word × Byte)} {s t : State} {u : Unit}
    (h : physWriteBytes l s = .ok u t) :
    t = { s with mem := t.mem } ∧ (memoryWf s.mem = true → memoryWf t.mem = true) ∧
      ∀ a, (∀ x ∈ l, x.1.toNat ≠ a) → lookupCell t.mem a = lookupCell s.mem a := by
  induction l generalizing s with
  | nil => cases h; exact ⟨rfl, id, fun _ _ => rfl⟩
  | cons x l ih =>
    obtain ⟨pa, b⟩ := x
    obtain ⟨v, w, h1, h2⟩ := bind_eq_ok h
    obtain ⟨-, rfl⟩ := physWriteByte_ok h1
    obtain ⟨e, hw, hl⟩ := ih h2
    refine ⟨by rw [e], fun hm => hw (memoryWf_insertCell _ _ pa.isLt hm), fun a ha => ?_⟩
    rw [hl a fun x hx => ha x (List.mem_cons_of_mem _ hx)]
    exact lookupCell_insertCell_other _ _ (Ne.symm (ha _ List.mem_cons_self))

/-- Writes of bytes raise no exception. -/
theorem physWriteBytes_ne_next (l : List (Word × Byte)) (s t : State) :
    physWriteBytes l s ≠ .stop (.next t) := by
  induction l generalizing s with
  | nil => simp [physWriteBytes]
  | cons x l ih =>
    obtain ⟨pa, b⟩ := x
    intro h
    rcases bind_eq_stop h with h | ⟨v, w, -, h⟩
    · exact physWriteByte_ne_next _ _ _ _ h
    · exact ih _ h

/-- A read of four bytes that answers changes nothing. -/
theorem physRead32_ok {pa : Word} {s t : State} {v : Word} (h : physRead32 pa s = .ok v t) : t = s := by
  obtain ⟨bs, u, h1, h2⟩ := bind_eq_ok h
  cases h2
  exact (physReadBytes_ok h1).1

/-- A read of four bytes raises no exception. -/
theorem physRead32_ne_next (pa : Word) (s t : State) : physRead32 pa s ≠ .stop (.next t) := by
  intro h
  rcases bind_eq_stop h with h | ⟨bs, u, -, h⟩
  · exact physReadBytes_ne_next _ _ _ h
  · cases h

/-- A write of four bytes that answers changes memory alone and keeps its canonical form. -/
theorem physWrite32_ok {pa v : Word} {s t : State} {u : Unit} (h : physWrite32 pa v s = .ok u t) :
    t = { s with mem := t.mem } ∧ (memoryWf s.mem = true → memoryWf t.mem = true) :=
  ⟨(physWriteBytes_ok h).1, (physWriteBytes_ok h).2.1⟩

/-- A write of four bytes raises no exception. -/
theorem physWrite32_ne_next (pa v : Word) (s t : State) : physWrite32 pa v s ≠ .stop (.next t) :=
  physWriteBytes_ne_next _ _ _

end Sys2Proof.Machine
end

