-- ==== Sys2Proof/Laws/Frames.lean ====
section
/-!
SUPPORT. Once for each shared operation of the memory path, everything it can do: what the state is if it
answers, and what the state is if it raises an exception.
-/

namespace Sys2Proof.Machine

/-- The TLB is in order: at most 32 entries, at most one for a page. -/
def TlbOk (l : List TlbEntry) : Prop := l.length ≤ tlbCapacity ∧ (l.map TlbEntry.page).Nodup

/-- What page translation and physical memory can do to a state: memory, the TLB and the count of free
values; memory and the TLB are in order if they were. -/
structure Walked (s t : State) : Prop where
  eq : t = { s with mem := t.mem, tlb := t.tlb, draws := t.draws }
  mem : memoryWf s.mem = true → memoryWf t.mem = true
  tlb : TlbOk s.tlb → TlbOk t.tlb

/-- What the memory path of an operand can do to a state: as `Walked`, and the conditions B0 to B3 may
become pending. -/
structure Touched (s t : State) : Prop where
  eq : t = { s with mem := t.mem, tlb := t.tlb, draws := t.draws, pendingDb := t.pendingDb }
  mem : memoryWf s.mem = true → memoryWf t.mem = true
  tlb : TlbOk s.tlb → TlbOk t.tlb
  pending : ∃ b : Word, t.pendingDb = s.pendingDb ||| b &&& 0xF

theorem Walked.refl (s : State) : Walked s s := ⟨rfl, id, id⟩

theorem Walked.trans {s t u : State} (h : Walked s t) (k : Walked t u) : Walked s u :=
  ⟨by rw [k.eq, h.eq], k.mem ∘ h.mem, k.tlb ∘ h.tlb⟩

theorem Walked.touched {s t : State} (h : Walked s t) : Touched s t :=
  ⟨by rw [h.eq], h.mem, h.tlb, 0, by rw [h.eq]; simp⟩

theorem Touched.refl (s : State) : Touched s s := (Walked.refl s).touched

theorem Touched.trans {s t u : State} (h : Touched s t) (k : Touched t u) : Touched s u := by
  obtain ⟨b, hb⟩ := h.pending
  obtain ⟨c, hc⟩ := k.pending
  refine ⟨by rw [k.eq, h.eq], k.mem ∘ h.mem, k.tlb ∘ h.tlb, b ||| c, ?_⟩
  rw [hc, hb, BitVec.or_assoc]
  congr 1
  apply BitVec.eq_of_getLsbD_eq
  intro i hi
  simp only [BitVec.getLsbD_or, BitVec.getLsbD_and]
  cases b.getLsbD i <;> cases c.getLsbD i <;> simp

/-- `t` is the state after an exception of the memory path: one of the three kinds it raises, taken in a
state that `s` touches, with CR2 loaded for a page fault and only for one. -/
structure MemoryTrap (s t : State) : Prop where
  ex : ∃ x e u, Touched s u ∧
    ((x = .pf ∧ ∃ la, t = takeException x .fault e { u with cr2 := la }) ∨
      ((x = .gp ∨ x = .ss) ∧ t = takeException x .fault e u))

theorem MemoryTrap.after {s t u : State} (h : Touched s t) (k : MemoryTrap t u) : MemoryTrap s u := by
  obtain ⟨x, e, v, hv, hx⟩ := k.ex
  exact ⟨x, e, v, h.trans hv, hx⟩

/-- What an operation can do that answers in a state related by `R` to its own, and else raises an
exception of the memory path or stops. -/
def Res.Within {α : Type} (R : State → State → Prop) (s : State) : Res α → Prop
  | .ok _ t => R s t
  | .stop (.next t) => MemoryTrap s t
  | .stop (.fault _) => True
  | .stop (.refused _) => True

/-- An operation of page translation or of physical memory. -/
abbrev Res.Quiet {α : Type} (s : State) (r : Res α) : Prop := r.Within Walked s

/-- An operation on an operand. -/
abbrev Res.Checked {α : Type} (s : State) (r : Res α) : Prop := r.Within Touched s

theorem Res.Within.bind {α β : Type} {R : State → State → Prop} (sub : ∀ {a b}, R a b → Touched a b)
    (tr : ∀ {a b c}, R a b → R b c → R a c) {s : State} {r : Res α} {f : α → State → Res β}
    (h : r.Within R s) (k : ∀ a t, r = .ok a t → (f a t).Within R t) : (r.bind f).Within R s := by
  cases r with
  | ok a t =>
    have hk := k a t rfl
    have ht : R s t := h
    simp only [bind_ok]
    generalize f a t = q at hk ⊢
    cases q with
    | ok b u => exact tr ht hk
    | stop o =>
      cases o with
      | next u => exact MemoryTrap.after (sub ht) hk
      | fault => trivial
      | refused => trivial
  | stop o => cases o <;> exact h

theorem Res.Quiet.bind {α β : Type} {s : State} {r : Res α} {f : α → State → Res β} (h : r.Quiet s)
    (k : ∀ a t, r = .ok a t → (f a t).Quiet t) : (r.bind f).Quiet s :=
  Res.Within.bind Walked.touched Walked.trans h k

theorem Res.Checked.bind {α β : Type} {s : State} {r : Res α} {f : α → State → Res β} (h : r.Checked s)
    (k : ∀ a t, r = .ok a t → (f a t).Checked t) : (r.bind f).Checked s :=
  Res.Within.bind id Touched.trans h k

theorem Res.Quiet.checked {α : Type} {s : State} {r : Res α} (h : r.Quiet s) : r.Checked s := by
  cases r with
  | ok a t => exact Walked.touched h
  | stop o => cases o <;> exact h

/-- An operation that answers in a state of its own and raises no exception is quiet. -/
theorem quiet_of {α : Type} {s : State} {r : Res α} (h : ∀ a t, r = .ok a t → Walked s t)
    (k : ∀ t, r ≠ .stop (.next t)) : r.Quiet s := by
  cases r with
  | ok a t => exact h a t rfl
  | stop o =>
    cases o with
    | next u => exact absurd rfl (k u)
    | fault => trivial
    | refused => trivial

theorem physRead32_quiet (pa : Word) (s : State) : (physRead32 pa s).Quiet s :=
  quiet_of (fun _ _ h => by rw [physRead32_ok h]; exact .refl s) (physRead32_ne_next pa s)

theorem physReadBytes_quiet (pas : List Word) (s : State) : (physReadBytes pas s).Quiet s :=
  quiet_of (fun _ _ h => by rw [(physReadBytes_ok h).1]; exact .refl s) (physReadBytes_ne_next pas s)

theorem physWriteBytes_quiet (l : List (Word × Byte)) (s : State) : (physWriteBytes l s).Quiet s := by
  refine quiet_of (fun _ t h => ?_) (physWriteBytes_ne_next l s)
  have e := (physWriteBytes_ok h).1
  exact ⟨by rw [e], (physWriteBytes_ok h).2.1, fun k => by rw [e]; exact k⟩

theorem physWrite32_quiet (pa v : Word) (s : State) : (physWrite32 pa v s).Quiet s :=
  physWriteBytes_quiet _ s

theorem afterDraw_walked (s : State) : Walked s s.afterDraw := ⟨rfl, id, id⟩

/-- Dropping entries keeps the TLB in order. -/
theorem tlbOk_drop {l : List TlbEntry} (p : BitVec 20) (h : TlbOk l) : TlbOk (tlbDrop l p) :=
  ⟨(List.length_filter_le _ _).trans h.1, h.2.sublist (List.filter_sublist.map _)⟩

/-- Storing an entry keeps the TLB in order. -/
theorem tlbOk_insert {l : List TlbEntry} (e : TlbEntry) (pick : Word) (h : TlbOk l) :
    TlbOk (tlbInsert l e pick) := by
  have hd := tlbOk_drop e.page h
  have hp : ∀ x ∈ tlbDrop l e.page, x.page ≠ e.page := fun x hx => by
    simpa using (List.mem_filter.1 hx).2
  unfold tlbInsert
  dsimp only
  split
  · rename_i hl
    refine ⟨by simpa using hl, List.nodup_cons.2 ⟨fun hm => ?_, hd.2⟩⟩
    obtain ⟨x, hx, hxp⟩ := List.mem_map.1 hm
    exact hp x hx hxp
  · have hs : ((tlbDrop l e.page).eraseIdx (pick.toNat % (tlbDrop l e.page).length)).take
        (tlbCapacity - 1) |>.Sublist (tlbDrop l e.page) :=
      (List.take_sublist _ _).trans (List.eraseIdx_sublist _ _)
    refine ⟨?_, List.nodup_cons.2 ⟨fun hm => ?_, hd.2.sublist (hs.map _)⟩⟩
    · simp only [List.length_cons, List.length_take, tlbCapacity]; omega
    · obtain ⟨x, hx, hxp⟩ := List.mem_map.1 hm
      exact hp x (hs.subset hx) hxp

theorem tlbStore_walked (e : TlbEntry) (s : State) : Walked s (tlbStore e s) :=
  ⟨rfl, id, tlbOk_insert e _⟩

/-- A page fault in a state that `s` touches is an exception of the memory path. -/
theorem pageFault_trap {s u : State} (la : Word) (acc : Access) (p : Bool) (h : Walked s u) :
    MemoryTrap s (pageFault la acc p u) :=
  ⟨.pf, _, u, h.touched, .inl ⟨rfl, la, rfl⟩⟩

theorem faultAtPte_trap {s s0 s1 : State} (pde la : Word) (acc : Access) (p : Bool) (h0 : Walked s s0)
    (h1 : Walked s s1) : MemoryTrap s (faultAtPte pde la acc p s0 s1) := by
  unfold faultAtPte
  split
  · exact pageFault_trap la acc p h1
  · refine pageFault_trap la acc p ?_
    split
    · exact h1.trans (afterDraw_walked _)
    · exact h0.trans (afterDraw_walked _)

theorem setPdeA_quiet (pa pde : Word) (s : State) : (setPdeA pa pde s).Quiet s := by
  unfold setPdeA
  split
  · exact Walked.refl s
  · exact physWrite32_quiet _ _ s

theorem finishWalk_quiet (pa2 pde pte la : Word) (acc : Access) (s : State) :
    (finishWalk pa2 pde pte la acc s).Quiet s := by
  unfold finishWalk
  refine Res.Quiet.bind ?_ fun _ t _ => tlbStore_walked _ t
  split
  · exact Walked.refl s
  · exact physWrite32_quiet _ _ s

theorem walk_quiet (la : Word) (acc : Access) (s : State) : (walk la acc s).Quiet s := by
  unfold walk
  refine Res.Quiet.bind (physRead32_quiet _ s) fun pde t h => ?_
  obtain rfl := physRead32_ok h
  split
  · exact pageFault_trap la acc false (.refl _)
  · have hs := setPdeA_quiet (pdeAddr t.cr3 la) pde t
    cases hr : setPdeA (pdeAddr t.cr3 la) pde t with
    | stop o => rw [hr] at hs; cases o <;> exact hs
    | ok a s1 =>
      rw [hr] at hs
      have h1 : Walked t s1 := hs
      simp only [bind_ok]
      have hq : ∀ pte : Word, Res.Quiet t
          (if entryP pte = false then (Res.stop (.next (faultAtPte pde la acc false t s1)) : Res (BitVec 20))
          else if permitted (entryUs pde && entryUs pte) (entryRw pde && entryRw pte) acc = false then
            .stop (.next (faultAtPte pde la acc true t s1))
          else finishWalk (pteAddr pde la) pde pte la acc s1) := by
        intro pte
        split
        · exact faultAtPte_trap pde la acc false (.refl t) h1
        · split
          · exact faultAtPte_trap pde la acc true (.refl t) h1
          · have := Res.Quiet.bind (r := Res.ok () s1) (f := fun _ s => finishWalk (pteAddr pde la) pde pte la acc s)
              (s := t) h1 fun _ u hu => by cases hu; exact finishWalk_quiet _ _ _ _ _ _
            exact this
      cases hp : physRead32 (pteAddr pde la) s1 with
      | stop o =>
        cases o with
        | next u => exact absurd hp (physRead32_ne_next _ _ u)
        | fault => trivial
        | refused => trivial
      | ok pte u =>
        obtain rfl := physRead32_ok hp
        exact hq pte

theorem pageTranslate_quiet (la : Word) (acc : Access) (s : State) : (pageTranslate la acc s).Quiet s := by
  have after : ∀ t : State, Walked s t → (walk la acc t).Quiet s := fun t ht =>
    Res.Quiet.bind (r := Res.ok () t) (f := fun _ t => walk la acc t) ht fun _ u hu => by
      cases hu; exact walk_quiet _ _ _
  unfold pageTranslate
  split
  · exact Walked.refl s
  · split
    · exact walk_quiet la acc s
    · split
      · split
        · exact pageFault_trap la acc true (afterDraw_walked s)
        · split
          · exact after _ (afterDraw_walked s)
          · exact afterDraw_walked s
      · exact after _ ⟨rfl, id, tlbOk_drop _⟩

/-- With paging off a linear address is the physical address, and nothing changes (R103). -/
theorem pageTranslate_paging_off {s : State} (la : Word) (acc : Access) (h : s.pg = false) :
    pageTranslate la acc s = .ok (pageOf la) s := by
  simp [pageTranslate, h]

theorem linTranslate_quiet (la : Word) (n : Nat) (acc : Access) (s : State) :
    (linTranslate la n acc s).Quiet s := by
  unfold linTranslate
  refine Res.Quiet.bind (pageTranslate_quiet la acc s) fun f t _ => ?_
  simp only
  split
  · exact Walked.refl t
  · exact Res.Quiet.bind (pageTranslate_quiet _ acc t) fun f u _ => Walked.refl u

theorem linRead_quiet (la : Word) (n : Nat) (acc : Access) (s : State) : (linRead la n acc s).Quiet s :=
  Res.Quiet.bind (linTranslate_quiet la n acc s) fun _ t _ => physReadBytes_quiet _ t

theorem linWrite_quiet (la : Word) (bs : List Byte) (acc : Access) (s : State) :
    (linWrite la bs acc s).Quiet s :=
  Res.Quiet.bind (linTranslate_quiet la bs.length acc s) fun _ t _ => physWriteBytes_quiet _ t

/-- Segment translation answers the base plus the offset and changes nothing (R128). -/
theorem segTranslate_ok {r : SegReg} {off : Word} {n : Nat} {k : AccessKind} {s t : State} {la : Word}
    (h : segTranslate r off n k s = .ok la t) : t = s ∧ la = (s.seg.get r).base + off := by
  unfold segTranslate raiseFault at h
  split at h
  · cases h
  · split at h
    · cases h
    · split at h
      · cases h
      · split at h
        · cases h
        · cases h; exact ⟨rfl, rfl⟩

theorem segTranslate_checked (r : SegReg) (off : Word) (n : Nat) (k : AccessKind) (s : State) :
    (segTranslate r off n k s).Checked s := by
  have hv : segViolation r = .gp ∨ segViolation r = .ss := by unfold segViolation; split <;> simp
  unfold segTranslate raiseFault
  split
  · trivial
  · split
    · exact ⟨.gp, _, s, .refl s, .inr ⟨.inl rfl, rfl⟩⟩
    · split
      · exact ⟨_, _, s, .refl s, .inr ⟨hv, rfl⟩⟩
      · split
        · exact ⟨_, _, s, .refl s, .inr ⟨hv, rfl⟩⟩
        · exact Touched.refl s

theorem dataBreakpoint_checked (k : AccessKind) (bytes : List Word) (i : Fin 4) (s : State) :
    (dataBreakpoint k bytes i s).Checked s := by
  unfold dataBreakpoint
  split
  · split
    · trivial
    · exact Touched.refl s
    · split
      · refine ⟨rfl, id, id, bitMask i.val, ?_⟩
        fin_cases i <;> rfl
      · trivial
  · exact Touched.refl s

theorem dataBreakpoints_checked (k : AccessKind) (la : Word) (n : Nat) (s : State) :
    (dataBreakpoints k la n s).Checked s :=
  Res.Checked.bind (dataBreakpoint_checked _ _ _ _) fun _ t _ =>
    Res.Checked.bind (dataBreakpoint_checked _ _ _ t) fun _ u _ =>
      Res.Checked.bind (dataBreakpoint_checked _ _ _ u) fun _ v _ => dataBreakpoint_checked _ _ _ v

/-- A data breakpoint check that answers adds to the pending conditions and changes nothing else (R324). -/
theorem dataBreakpoint_ok {k : AccessKind} {bytes : List Word} {i : Fin 4} {s t : State} {u : Unit}
    (h : dataBreakpoint k bytes i s = .ok u t) : t = { s with pendingDb := t.pendingDb } := by
  unfold dataBreakpoint at h
  split at h
  · split at h
    · cases h
    · cases h; rfl
    · split at h
      · cases h; rfl
      · cases h
  · cases h; rfl

/-- The data breakpoint check likewise (R324). -/
theorem dataBreakpoints_ok {k : AccessKind} {la : Word} {n : Nat} {s t : State} {u : Unit}
    (h : dataBreakpoints k la n s = .ok u t) : t = { s with pendingDb := t.pendingDb } := by
  obtain ⟨_, a, k1, h⟩ := bind_eq_ok h
  obtain ⟨_, b, k2, h⟩ := bind_eq_ok h
  obtain ⟨_, c, k3, h⟩ := bind_eq_ok h
  rw [dataBreakpoint_ok h, dataBreakpoint_ok k3, dataBreakpoint_ok k2, dataBreakpoint_ok k1]

/-- Nothing is pending of a breakpoint that is not enabled (R326). -/
theorem dataBreakpoints_of_disabled {k : AccessKind} {la : Word} {n : Nat} {s : State}
    (h : ∀ i, enabledIn s.dr7 i = false) : dataBreakpoints k la n s = .ok () s := by
  simp [dataBreakpoints, dataBreakpoint, h]

theorem memRead_checked (r : SegReg) (off : Word) (n : Nat) (s : State) : (memRead r off n s).Checked s :=
  Res.Checked.bind (segTranslate_checked _ _ _ _ _) fun _ t _ =>
    Res.Checked.bind (dataBreakpoints_checked _ _ _ t) fun _ u _ => (linRead_quiet _ _ _ u).checked

theorem memWrite_checked (len : Nat) (r : SegReg) (off : Word) (bs : List Byte) (s : State) :
    (memWrite len r off bs s).Checked s :=
  Res.Checked.bind (segTranslate_checked _ _ _ _ _) fun _ t _ =>
    Res.Checked.bind (dataBreakpoints_checked _ _ _ t) fun _ u _ =>
      Res.Checked.bind (linTranslate_quiet _ _ _ u).checked fun _ v _ => by
        split
        · trivial
        · exact (physWriteBytes_quiet _ v).checked

/-- The source of LMSW is read from a state that `s` touches, or an exception of the memory path ends it. -/
theorem readRm16_checked (p : Prefixes) (o : RM16) (s : State) : (readRm16 p o s).Checked s := by
  cases o with
  | reg r => exact Touched.refl s
  | mem m => exact Res.Checked.bind (memRead_checked _ _ _ s) fun _ t _ => Touched.refl t

/-- A pure walk that answers changes nothing, and none raises an exception (R416). -/
theorem pureWalk_ok {cr3 la : Word} {s t : State} {x : Option Word} (h : pureWalk cr3 la s = .ok x t) :
    t = s := by
  obtain ⟨pde, u, h1, h2⟩ := bind_eq_ok h
  obtain rfl := physRead32_ok h1
  split at h2
  · cases h2; rfl
  · obtain ⟨pte, v, h3, h4⟩ := bind_eq_ok h2
    obtain rfl := physRead32_ok h3
    split at h4 <;> (cases h4; rfl)

theorem pureWalk_ne_next (cr3 la : Word) (s t : State) : pureWalk cr3 la s ≠ .stop (.next t) := by
  intro h
  rcases bind_eq_stop h with h | ⟨pde, u, -, h⟩
  · exact physRead32_ne_next _ _ _ h
  · split at h
    · cases h
    · rcases bind_eq_stop h with h | ⟨pte, v, -, h⟩
      · exact physRead32_ne_next _ _ _ h
      · split at h <;> cases h

theorem physUnder_ok {pg : Bool} {cr3 la : Word} {s t : State} {x : Option Word}
    (h : physUnder pg cr3 la s = .ok x t) : t = s := by
  unfold physUnder at h
  split at h
  · exact pureWalk_ok h
  · cases h; rfl

theorem physUnder_ne_next (pg : Bool) (cr3 la : Word) (s t : State) :
    physUnder pg cr3 la s ≠ .stop (.next t) := by
  unfold physUnder
  split
  · exact pureWalk_ne_next _ _ _ _
  · simp

theorem stableAt_ok {a b : Bool} {c d la : Word} {s t : State} {x : Bool}
    (h : stableAt a c b d la s = .ok x t) : t = s := by
  obtain ⟨new, u, h1, h2⟩ := bind_eq_ok h
  obtain rfl := physUnder_ok h1
  cases new with
  | none => cases h2; rfl
  | some pa =>
    obtain ⟨old, v, h3, h4⟩ := bind_eq_ok h2
    obtain rfl := physUnder_ok h3
    cases h4; rfl

theorem stableAt_ne_next (a b : Bool) (c d la : Word) (s t : State) :
    stableAt a c b d la s ≠ .stop (.next t) := by
  intro h
  rcases bind_eq_stop h with h | ⟨new, u, -, h⟩
  · exact physUnder_ne_next _ _ _ _ _ h
  · cases new with
    | none => cases h
    | some pa =>
      rcases bind_eq_stop h with h | ⟨old, v, -, h⟩
      · exact physUnder_ne_next _ _ _ _ _ h
      · cases h

/-- The test of the prefetch window changes nothing (R416). -/
theorem allStable_ok {a b : Bool} {c d : Word} {l : List Word} {s t : State} {x : Bool}
    (h : allStable a c b d l s = .ok x t) : t = s := by
  induction l generalizing s with
  | nil => cases h; rfl
  | cons la l ih =>
    obtain ⟨y, u, h1, h2⟩ := bind_eq_ok h
    obtain rfl := stableAt_ok h1
    cases y with
    | true => exact ih h2
    | false => cases h2; rfl

theorem allStable_ne_next (a b : Bool) (c d : Word) (l : List Word) (s t : State) :
    allStable a c b d l s ≠ .stop (.next t) := by
  induction l generalizing s with
  | nil => simp [allStable]
  | cons la l ih =>
    intro h
    rcases bind_eq_stop h with h | ⟨y, u, -, h⟩
    · exact stableAt_ne_next _ _ _ _ _ _ _ h
    · cases y with
      | true => exact ih _ h
      | false => cases h

/-- The test of the prefetch window raises no exception and changes nothing (R416). -/
theorem fetchWindowStable_cases (len : Nat) (a b : Bool) (c d : Word) (s : State) :
    (∃ x, fetchWindowStable len a c b d s = .ok x s) ∨
      (∃ f, fetchWindowStable len a c b d s = .stop (.fault f)) ∨
      ∃ r, fetchWindowStable len a c b d s = .stop (.refused r) := by
  cases h : fetchWindowStable len a c b d s with
  | ok x t => obtain rfl := allStable_ok h; exact .inl ⟨x, rfl⟩
  | stop o =>
    cases o with
    | next t => exact absurd h (allStable_ne_next _ _ _ _ _ _ _)
    | fault f => exact .inr (.inl ⟨f, rfl⟩)
    | refused r => exact .inr (.inr ⟨r, rfl⟩)

end Sys2Proof.Machine
end

