-- ==== Sys2Proof/Laws/Exec.lean ====
section
/-!
SUPPORT. Once for all instructions, everything an instruction can do: the exceptions it can raise, and the
state a completed instruction leaves.
-/

namespace Sys2Proof.Machine

/-- What ends a privileged instruction's check: the exception, or the rest of the instruction. -/
theorem privileged_next {s t : State} {go : Out} (h : privileged s go = .next t) :
    (s.unprivileged = true ∧ t = takeException .gp .fault (.code 0) s) ∨
      (s.unprivileged = false ∧ go = .next t) := by
  unfold privileged at h
  split at h
  · rename_i hu; cases h; exact .inl ⟨hu, rfl⟩
  · rename_i hu; exact .inr ⟨Bool.eq_false_iff.2 hu, h⟩

/-- What ends a debug register access's checks. -/
theorem debugAccess_next {s t : State} {go : Out} (h : debugAccess s go = .next t) :
    (s.unprivileged = true ∧ t = takeException .gp .fault (.code 0) s) ∨
      (s.unprivileged = false ∧ s.gd = true ∧ t = debugException .fault bdMask s) ∨
        (s.unprivileged = false ∧ s.gd = false ∧ go = .next t) := by
  rcases privileged_next h with h | ⟨hp, h⟩
  · exact .inl h
  · split at h
    · rename_i hg; cases h; exact .inr (.inl ⟨hp, hg, rfl⟩)
    · rename_i hg; exact .inr (.inr ⟨hp, Bool.eq_false_iff.2 hg, h⟩)

/-- A completed `MOV CR0, r32`: the tests that it passed, and its write (R234). -/
theorem loadCr0_next {len : Nat} {v : Word} {s t : State} (h : loadCr0 len v s = .next t) :
    (v.getLsbD 31 = true → v.getLsbD 0 = true) ∧ (v.getLsbD 31 = s.pg ∨ s.pgChanges = 0) ∧
      t = (writeCr0 v s).undefineStatus := by
  have fin : ∀ u, finishCr0 v s = .next u → u = (writeCr0 v s).undefineStatus := by
    intro u hu
    unfold finishCr0 at hu
    split at hu
    · cases hu
    · cases hu; rfl
  unfold loadCr0 at h
  split at h
  · cases h
  · rename_i h1
    refine ⟨fun hv => by simpa using fun h0 => h1 ⟨hv, h0⟩, ?_⟩
    split at h
    · exact ⟨.inl ‹_›, fin _ h⟩
    · split at h
      · cases h
      · refine ⟨.inr (by omega), ?_⟩
        rcases fetchWindowStable_cases len s.pg (v.getLsbD 31) s.cr3 s.cr3 s with
          ⟨x, hx⟩ | ⟨f, hx⟩ | ⟨r, hx⟩
        · rw [hx, thenOut_ok] at h
          cases x with
          | true => exact fin _ h
          | false => cases h
        · rw [hx] at h; cases h
        · rw [hx] at h; cases h

/-- A completed `MOV CR3, r32` (R236). -/
theorem loadCr3_next {len : Nat} {v : Word} {s t : State} (h : loadCr3 len v s = .next t) :
    t = (writeCr3 v s).undefineStatus := by
  unfold loadCr3 at h
  split at h
  · rcases fetchWindowStable_cases len true true s.cr3 v s with ⟨x, hx⟩ | ⟨f, hx⟩ | ⟨r, hx⟩
    · rw [hx, thenOut_ok] at h
      cases x with
      | true => cases h; rfl
      | false => cases h
    · rw [hx] at h; cases h
    · rw [hx] at h; cases h
  · cases h; rfl

/-- A completed `MOV DR7, r32` (R266). -/
theorem loadDr7_next {v : Word} {s t : State} (h : loadDr7 v s = .next t) :
    dr7Refusal v = none ∧ t = ({ s with dr7 := v &&& dr7Defined } : State).undefineStatus := by
  unfold loadDr7 at h
  split at h
  · cases h
  · cases h; exact ⟨‹_›, rfl⟩

/-- A completed LMSW: the state after its source was read, and its write (R238). -/
theorem loadMsw_next {p : Prefixes} {o : RM16} {s t : State}
    (h : (readRm16 p o s).thenOut loadMsw = .next t) :
    MemoryTrap s t ∨ ∃ src u, Touched s u ∧ t = writeMsw src u := by
  have hc := readRm16_checked p o s
  cases hr : readRm16 p o s with
  | ok src u =>
    rw [hr, thenOut_ok] at h
    rw [hr] at hc
    unfold loadMsw at h
    split at h
    · cases h
    · cases h; exact .inr ⟨src, u, hc, rfl⟩
  | stop out =>
    rw [hr, thenOut_stop] at h
    subst h
    rw [hr] at hc
    exact .inl hc

/-- A completed SMSW to memory touches memory, the TLB, the count of free values and the pending
conditions (R239). -/
theorem smswMem_next {len : Nat} {r : SegReg} {off : Word} {bs : List Byte} {s t : State}
    (h : (memWrite len r off bs s).thenOut (fun _ s => Host.Outcome.next s) = .next t) :
    MemoryTrap s t ∨ Touched s t := by
  have hc := memWrite_checked len r off bs s
  cases hr : memWrite len r off bs s with
  | ok a u =>
    rw [hr, thenOut_ok] at h
    rw [hr] at hc
    cases h; exact .inr hc
  | stop out =>
    rw [hr, thenOut_stop] at h
    subst h
    rw [hr] at hc
    exact .inl hc

/-- The exceptions an instruction's rule can raise, from the state it started in. -/
inductive ExecTrap (s t : State) : Prop where
  | gp (unpriv : s.unprivileged = true) (eq : t = takeException .gp .fault (.code 0) s)
  | gd (priv : s.unprivileged = false) (gd : s.gd = true) (eq : t = debugException .fault bdMask s)
  | nm (em : s.em = true) (eq : t = takeException .nm .fault .none s)
  | memory (trap : MemoryTrap s t)

/-- A move to a general register: any value, with one free value drawn for it or none. -/
def ToReg (rm : Reg) (s t : State) : Prop :=
  ∃ v u, (u = s ∨ u = s.afterDraw) ∧ t = (u.setReg rm v).undefineStatus

/-- What a completed instruction leaves. -/
def Done : Instr → State → State → Prop
  | .clts _, s, t => t = { s with cr0 := s.cr0 &&& ~~~bitMask 3 }
  | .movR32Cr0 _ rm, s, t => ToReg rm s t
  | .movR32Cr2 _ rm, s, t => ToReg rm s t
  | .movR32Cr3 _ rm, s, t => ToReg rm s t
  | .movCr0R32 _ rm, s, t =>
    ((s.reg rm).getLsbD 31 = true → (s.reg rm).getLsbD 0 = true) ∧
      ((s.reg rm).getLsbD 31 = s.pg ∨ s.pgChanges = 0) ∧ t = (writeCr0 (s.reg rm) s).undefineStatus
  | .movCr2R32 _ rm, s, t => t = ({ s with cr2 := s.reg rm } : State).undefineStatus
  | .movCr3R32 _ rm, s, t => t = (writeCr3 (s.reg rm) s).undefineStatus
  | .movR32Dr0 _ rm, s, t => ToReg rm s t
  | .movR32Dr1 _ rm, s, t => ToReg rm s t
  | .movR32Dr2 _ rm, s, t => ToReg rm s t
  | .movR32Dr3 _ rm, s, t => ToReg rm s t
  | .movR32Dr6 _ rm, s, t => ToReg rm s t
  | .movR32Dr7 _ rm, s, t => ToReg rm s t
  | .movDr0R32 _ rm, s, t => t = ({ s with dr0 := s.reg rm } : State).undefineStatus
  | .movDr1R32 _ rm, s, t => t = ({ s with dr1 := s.reg rm } : State).undefineStatus
  | .movDr2R32 _ rm, s, t => t = ({ s with dr2 := s.reg rm } : State).undefineStatus
  | .movDr3R32 _ rm, s, t => t = ({ s with dr3 := s.reg rm } : State).undefineStatus
  | .movDr6R32 _ rm, s, t => t = ({ s with dr6 := s.reg rm &&& dr6Defined } : State).undefineStatus
  | .movDr7R32 _ rm, s, t => t = ({ s with dr7 := s.reg rm &&& dr7Defined } : State).undefineStatus
  | .smsw p (.reg r), s, t => t = storeMswReg p r s
  | .smsw _ (.mem _), s, t => Touched s t
  | .lmsw _ _, s, t => ∃ src u, Touched s u ∧ t = writeMsw src u
  | .movR32Cr1 _ _, _, _ => False
  | .movR32Cr4to7 _ _ _, _, _ => False
  | .movCr1R32 _ _, _, _ => False
  | .movCr4to7R32 _ _ _, _, _ => False
  | .movR32Dr4to5 _ _ _, _, _ => False
  | .movDr4to5R32 _ _ _, _, _ => False
  | .movR32Tr6 _ _, _, _ => False
  | .movR32Tr7 _ _, _, _ => False
  | .movTr6R32 _ _, _, _ => False
  | .movTr7R32 _ _, _, _ => False
  | .movR32Tr0to3 _ _ _, _, _ => False
  | .movR32Tr4to5 _ _ _, _, _ => False
  | .movTr0to3R32 _ _ _, _, _ => False
  | .movTr4to5R32 _ _ _, _, _ => False
  | .esc _ _, _, _ => False

/-- A move to a special register, behind the privilege check. -/
theorem toSpecial {s t u : State} (h : privileged s (moveDone u) = .next t) :
    ExecTrap s t ∨ (s.unprivileged = false ∧ t = u.undefineStatus) := by
  rcases privileged_next h with ⟨hp, h⟩ | ⟨hp, h⟩
  · exact .inl (.gp hp h)
  · cases h; exact .inr ⟨hp, rfl⟩

/-- A move from a special register, behind the privilege check. -/
theorem fromSpecial {s t u : State} {rm : Reg} {v : Word} (hu : u = s ∨ u = s.afterDraw)
    (h : privileged s (moveToReg rm v u) = .next t) :
    ExecTrap s t ∨ (s.unprivileged = false ∧ ToReg rm s t) := by
  rcases privileged_next h with ⟨hp, h⟩ | ⟨hp, h⟩
  · exact .inl (.gp hp h)
  · cases h; exact .inr ⟨hp, v, u, hu, rfl⟩

/-- A move to a debug register. -/
theorem toDebug {s t : State} {go : Out} {P : Prop} (hgo : go = .next t → P)
    (h : debugAccess s go = .next t) : ExecTrap s t ∨ (s.unprivileged = false ∧ P) := by
  rcases debugAccess_next h with ⟨hp, h⟩ | ⟨hp, hg, h⟩ | ⟨hp, hg, h⟩
  · exact .inl (.gp hp h)
  · exact .inl (.gd hp hg h)
  · exact .inr ⟨hp, hgo h⟩

theorem moveDone_next {s t : State} (h : moveDone s = .next t) : t = s.undefineStatus := by
  cases h; rfl

theorem moveToReg_next {s t u : State} {rm : Reg} {v : Word} (hu : u = s ∨ u = s.afterDraw)
    (h : moveToReg rm v u = .next t) : ToReg rm s t := by
  cases h; exact ⟨v, u, hu, rfl⟩

/-- A move that is refused behind the privilege check answers a next state only by raising GP(0). -/
theorem refusedMove {s t : State} {r : Refusal} (h : privileged s (.refused r) = .next t) : ExecTrap s t := by
  rcases privileged_next h with ⟨hp, h⟩ | ⟨-, h⟩
  · exact .gp hp h
  · cases h

/-- Only SMSW completes where a privileged instruction may not run. -/
def IsSmsw (i : Instr) : Prop := ∃ p o, i = .smsw p o

/-- Everything an instruction can do that answers a next state: it raises an exception, or it completes as
`Done` says, and then it is SMSW or it may run privileged. -/
theorem exec_cases {i : Instr} {s t : State} (h : exec i s = .next t) :
    ExecTrap s t ∨ ((IsSmsw i ∨ s.unprivileged = false) ∧ Done i s t) := by
  have lift : ∀ {P : Prop}, ExecTrap s t ∨ (s.unprivileged = false ∧ P) →
      ExecTrap s t ∨ ((IsSmsw i ∨ s.unprivileged = false) ∧ P) :=
    fun h => h.imp id fun ⟨a, b⟩ => ⟨.inr a, b⟩
  cases i with
  | clts p =>
    refine lift ?_
    rcases privileged_next h with ⟨hp, h⟩ | ⟨hp, h⟩
    · exact .inl (.gp hp h)
    · cases h; exact .inr ⟨hp, rfl⟩
  | movR32Cr0 p rm => exact lift (fromSpecial (.inr rfl) h)
  | movR32Cr2 p rm => exact lift (fromSpecial (.inl rfl) h)
  | movR32Cr3 p rm => exact lift (fromSpecial (.inr rfl) h)
  | movCr0R32 p rm =>
    refine lift ?_
    rcases privileged_next h with ⟨hp, h⟩ | ⟨hp, h⟩
    · exact .inl (.gp hp h)
    · exact .inr ⟨hp, loadCr0_next h⟩
  | movCr2R32 p rm => exact lift (toSpecial h)
  | movCr3R32 p rm =>
    refine lift ?_
    rcases privileged_next h with ⟨hp, h⟩ | ⟨hp, h⟩
    · exact .inl (.gp hp h)
    · exact .inr ⟨hp, loadCr3_next h⟩
  | movR32Dr0 p rm => exact lift (toDebug (moveToReg_next (.inl rfl)) h)
  | movR32Dr1 p rm => exact lift (toDebug (moveToReg_next (.inl rfl)) h)
  | movR32Dr2 p rm => exact lift (toDebug (moveToReg_next (.inl rfl)) h)
  | movR32Dr3 p rm => exact lift (toDebug (moveToReg_next (.inl rfl)) h)
  | movR32Dr6 p rm => exact lift (toDebug (moveToReg_next (.inr rfl)) h)
  | movR32Dr7 p rm => exact lift (toDebug (moveToReg_next (.inr rfl)) h)
  | movDr0R32 p rm => exact lift (toDebug moveDone_next h)
  | movDr1R32 p rm => exact lift (toDebug moveDone_next h)
  | movDr2R32 p rm => exact lift (toDebug moveDone_next h)
  | movDr3R32 p rm => exact lift (toDebug moveDone_next h)
  | movDr6R32 p rm => exact lift (toDebug moveDone_next h)
  | movDr7R32 p rm => exact lift (toDebug (fun h => (loadDr7_next h).2) h)
  | smsw p o =>
    cases o with
    | reg r => cases h; exact .inr ⟨.inl ⟨p, .reg r, rfl⟩, rfl⟩
    | mem m =>
      rcases smswMem_next h with h | h
      · exact .inl (.memory (h.after (afterDraw_walked s).touched))
      · exact .inr ⟨.inl ⟨p, .mem m, rfl⟩, (afterDraw_walked s).touched.trans h⟩
  | lmsw p o =>
    refine lift ?_
    rcases privileged_next h with ⟨hp, h⟩ | ⟨hp, h⟩
    · exact .inl (.gp hp h)
    · rcases loadMsw_next h with h | h
      · exact .inl (.memory h)
      · exact .inr ⟨hp, h⟩
  | esc p low =>
    change (if s.em then _ else _) = _ at h
    split at h
    · cases h; exact .inl (.nm ‹_› rfl)
    · cases h
  | movR32Cr1 p rm => exact .inl (refusedMove h)
  | movR32Cr4to7 p n rm => exact .inl (refusedMove h)
  | movCr1R32 p rm => exact .inl (refusedMove h)
  | movCr4to7R32 p n rm => exact .inl (refusedMove h)
  | movR32Dr4to5 p n rm => exact lift (toDebug (go := .refused .reservedDebugRegister) (P := False) nofun h)
  | movDr4to5R32 p n rm => exact lift (toDebug (go := .refused .reservedDebugRegister) (P := False) nofun h)
  | movR32Tr6 p rm => exact .inl (refusedMove h)
  | movR32Tr7 p rm => exact .inl (refusedMove h)
  | movTr6R32 p rm => exact .inl (refusedMove h)
  | movTr7R32 p rm => exact .inl (refusedMove h)
  | movR32Tr0to3 p n rm => exact .inl (refusedMove h)
  | movR32Tr4to5 p n rm => exact .inl (refusedMove h)
  | movTr0to3R32 p n rm => exact .inl (refusedMove h)
  | movTr4to5R32 p n rm => exact .inl (refusedMove h)

end Sys2Proof.Machine
end

