-- ==== Sys2Proof/Laws/PerInstr.lean ====
section
/-!
SUPPORT. Laws made per instruction: `EncodeLength`, the encoder writes as many bytes as the instruction's
length says (spec/30_encoding.md rule R218).
-/

namespace Sys2Proof.Laws.EncodeLength

/-- The encoding of the instruction has the length that is added to EIP (R210, R218). -/
def Statement (i : Instr) : Prop := (encode i).length = i.length

theorem prefixes_length (p : Prefixes) : p.bytes.length = p.length := by
  obtain ⟨o, a, s⟩ := p
  cases o <;> cases a <;> cases s <;> rfl

theorem mov_length (op2 : Byte) (p : Prefixes) (n : BitVec 3) (rm : Reg) :
    (encodeMov op2 p n rm).length = movLength p := by
  simp [encodeMov, movLength, prefixes_length]

theorem mem_length (digit : BitVec 3) (m : MemOperand) : (encodeMem digit m).length = 1 + m.length := by
  cases m with
  | direct16 d => rfl
  | direct32 d => rfl
  | base16 b d => cases d <;> rfl
  | base32 b d => cases d <;> rfl
  | sib sc ix b d => cases d <;> rfl
  | sibDirect sc ix d => rfl

theorem group_length (digit : BitVec 3) (p : Prefixes) (o : RM16) :
    (p.bytes ++ 0x0F :: 0x01 :: encodeRm16 digit o).length = groupLength p o := by
  cases o with
  | reg r => simp [encodeRm16, groupLength, prefixes_length]
  | mem m => simp [encodeRm16, groupLength, prefixes_length, mem_length]; omega

theorem clts (p : Prefixes) : Statement (.clts p) :=
  by simp [Statement, encode, Instr.length, prefixes_length]

theorem movR32Cr0 (p : Prefixes) (rm : Reg) : Statement (.movR32Cr0 p rm) := mov_length _ p _ rm

theorem movR32Cr2 (p : Prefixes) (rm : Reg) : Statement (.movR32Cr2 p rm) := mov_length _ p _ rm

theorem movR32Cr3 (p : Prefixes) (rm : Reg) : Statement (.movR32Cr3 p rm) := mov_length _ p _ rm

theorem movCr0R32 (p : Prefixes) (rm : Reg) : Statement (.movCr0R32 p rm) := mov_length _ p _ rm

theorem movCr2R32 (p : Prefixes) (rm : Reg) : Statement (.movCr2R32 p rm) := mov_length _ p _ rm

theorem movCr3R32 (p : Prefixes) (rm : Reg) : Statement (.movCr3R32 p rm) := mov_length _ p _ rm

theorem movR32Cr1 (p : Prefixes) (rm : Reg) : Statement (.movR32Cr1 p rm) := mov_length _ p _ rm

theorem movR32Cr4to7 (p : Prefixes) (n : BitVec 2) (rm : Reg) : Statement (.movR32Cr4to7 p n rm) :=
  mov_length _ p _ rm

theorem movCr1R32 (p : Prefixes) (rm : Reg) : Statement (.movCr1R32 p rm) := mov_length _ p _ rm

theorem movCr4to7R32 (p : Prefixes) (n : BitVec 2) (rm : Reg) : Statement (.movCr4to7R32 p n rm) :=
  mov_length _ p _ rm

theorem movR32Dr0 (p : Prefixes) (rm : Reg) : Statement (.movR32Dr0 p rm) := mov_length _ p _ rm

theorem movR32Dr1 (p : Prefixes) (rm : Reg) : Statement (.movR32Dr1 p rm) := mov_length _ p _ rm

theorem movR32Dr2 (p : Prefixes) (rm : Reg) : Statement (.movR32Dr2 p rm) := mov_length _ p _ rm

theorem movR32Dr3 (p : Prefixes) (rm : Reg) : Statement (.movR32Dr3 p rm) := mov_length _ p _ rm

theorem movR32Dr6 (p : Prefixes) (rm : Reg) : Statement (.movR32Dr6 p rm) := mov_length _ p _ rm

theorem movR32Dr7 (p : Prefixes) (rm : Reg) : Statement (.movR32Dr7 p rm) := mov_length _ p _ rm

theorem movDr0R32 (p : Prefixes) (rm : Reg) : Statement (.movDr0R32 p rm) := mov_length _ p _ rm

theorem movDr1R32 (p : Prefixes) (rm : Reg) : Statement (.movDr1R32 p rm) := mov_length _ p _ rm

theorem movDr2R32 (p : Prefixes) (rm : Reg) : Statement (.movDr2R32 p rm) := mov_length _ p _ rm

theorem movDr3R32 (p : Prefixes) (rm : Reg) : Statement (.movDr3R32 p rm) := mov_length _ p _ rm

theorem movDr6R32 (p : Prefixes) (rm : Reg) : Statement (.movDr6R32 p rm) := mov_length _ p _ rm

theorem movDr7R32 (p : Prefixes) (rm : Reg) : Statement (.movDr7R32 p rm) := mov_length _ p _ rm

theorem movR32Dr4to5 (p : Prefixes) (n : BitVec 1) (rm : Reg) : Statement (.movR32Dr4to5 p n rm) :=
  mov_length _ p _ rm

theorem movDr4to5R32 (p : Prefixes) (n : BitVec 1) (rm : Reg) : Statement (.movDr4to5R32 p n rm) :=
  mov_length _ p _ rm

theorem movR32Tr6 (p : Prefixes) (rm : Reg) : Statement (.movR32Tr6 p rm) := mov_length _ p _ rm

theorem movR32Tr7 (p : Prefixes) (rm : Reg) : Statement (.movR32Tr7 p rm) := mov_length _ p _ rm

theorem movTr6R32 (p : Prefixes) (rm : Reg) : Statement (.movTr6R32 p rm) := mov_length _ p _ rm

theorem movTr7R32 (p : Prefixes) (rm : Reg) : Statement (.movTr7R32 p rm) := mov_length _ p _ rm

theorem movR32Tr0to3 (p : Prefixes) (n : BitVec 2) (rm : Reg) : Statement (.movR32Tr0to3 p n rm) :=
  mov_length _ p _ rm

theorem movR32Tr4to5 (p : Prefixes) (n : BitVec 1) (rm : Reg) : Statement (.movR32Tr4to5 p n rm) :=
  mov_length _ p _ rm

theorem movTr0to3R32 (p : Prefixes) (n : BitVec 2) (rm : Reg) : Statement (.movTr0to3R32 p n rm) :=
  mov_length _ p _ rm

theorem movTr4to5R32 (p : Prefixes) (n : BitVec 1) (rm : Reg) : Statement (.movTr4to5R32 p n rm) :=
  mov_length _ p _ rm

theorem smsw (p : Prefixes) (o : RM16) : Statement (.smsw p o) := group_length _ p o

theorem lmsw (p : Prefixes) (o : RM16) : Statement (.lmsw p o) := group_length _ p o

theorem esc (p : Prefixes) (low : BitVec 3) : Statement (.esc p low) :=
  by simp [Statement, encode, Instr.length, prefixes_length]

end Sys2Proof.Laws.EncodeLength
end

