-- ==== Sys2Proof/Laws/Step.lean ====
section
/-!
SUPPORT. Once for the step, everything it can do: the exceptions of the fetch, those of the instruction,
and what follows an instruction that completed.
-/

namespace Sys2Proof.Machine

/-- The bits of `executionHits` are B0 to B3. -/
theorem executionHits_bits (s : State) (la : Word) : executionHits s la &&& ~~~0xF#32 = 0 := by
  have all : ∀ a b c d : Bool,
      ((if a then bitMask 0 else 0) ||| (if b then bitMask 1 else 0) |||
        (if c then bitMask 2 else 0) ||| (if d then bitMask 3 else 0)) &&& ~~~0xF#32 = 0 := by decide
  exact all _ _ _ _

/-- The exceptions of a fetch that started in `s`: those of the memory path, the execution breakpoint and
the invalid opcode of LOCK. -/
inductive FetchTrap (s t : State) : Prop where
  | memory (trap : MemoryTrap s t)
  | lock (u : State) (walked : Walked s u) (eq : t = takeException .ud .fault .none u)
  | breakpoint (b : Word) (u : State) (bits : b &&& ~~~0xF#32 = 0) (walked : Walked s u)
      (eq : t = debugException .fault b u)

theorem FetchTrap.after {s t u : State} (h : Walked s t) (k : FetchTrap t u) : FetchTrap s u := by
  cases k with
  | memory k => exact .memory (k.after h.touched)
  | lock v hv e => exact .lock v (h.trans hv) e
  | breakpoint b v hb hv e => exact .breakpoint b v hb (h.trans hv) e

/-- What a part of the fetch can do. -/
def Res.Fetches {α : Type} (s : State) : Res α → Prop
  | .ok _ t => Walked s t
  | .stop (.next t) => FetchTrap s t
  | .stop (.fault _) => True
  | .stop (.refused _) => True

theorem Res.Fetches.bind {α β : Type} {s : State} {r : Res α} {f : α → State → Res β} (h : r.Fetches s)
    (k : ∀ a t, r = .ok a t → (f a t).Fetches t) : (r.bind f).Fetches s := by
  cases r with
  | ok a t =>
    have hk := k a t rfl
    have ht : Walked s t := h
    simp only [bind_ok]
    generalize f a t = q at hk ⊢
    cases q with
    | ok b u => exact ht.trans hk
    | stop o =>
      cases o with
      | next u => exact FetchTrap.after ht hk
      | fault => trivial
      | refused => trivial
  | stop o => cases o <;> exact h

theorem Res.Quiet.fetches {α : Type} {s : State} {r : Res α} (h : r.Quiet s) : r.Fetches s := by
  cases r with
  | ok a t => exact h
  | stop o =>
    cases o with
    | next t => exact .memory h
    | fault => trivial
    | refused => trivial

theorem segTranslate_fetches (r : SegReg) (off : Word) (n : Nat) (k : AccessKind) (s : State) :
    (segTranslate r off n k s).Fetches s := by
  have h := segTranslate_checked r off n k s
  cases hr : segTranslate r off n k s with
  | ok la t => rw [(segTranslate_ok hr).1]; exact Walked.refl s
  | stop o =>
    rw [hr] at h
    cases o with
    | next t => exact .memory h
    | fault => trivial
    | refused => trivial

theorem instrBreakpoint_fetches (la : Word) (s : State) : (instrBreakpoint la s).Fetches s := by
  unfold instrBreakpoint
  split
  · exact .breakpoint _ s (executionHits_bits s la) (.refl s) rfl
  · exact Walked.refl s

/-- A fetch of a byte changes memory, the TLB and the count of free values alone, and raises no exception
but those of `FetchTrap` (R201). -/
theorem fetchByte_fetches (j : Nat) (s : State) : (fetchByte j s).Fetches s := by
  refine Res.Fetches.bind (segTranslate_fetches _ _ _ _ _) fun la t _ => ?_
  refine Res.Fetches.bind ?_ fun _ u _ => ?_
  · split
    · exact instrBreakpoint_fetches la t
    · exact Walked.refl t
  · refine Res.Fetches.bind (linTranslate_quiet _ _ _ u).fetches fun pas v _ => ?_
    split
    · exact (physRead_fetches v)
    · exact .memory ⟨.gp, _, v, .refl v, .inr ⟨.inl rfl, rfl⟩⟩
where
  physRead_fetches {pa : Word} (v : State) : (physReadByte pa v).Fetches v :=
    (quiet_of (fun _ _ h => by rw [(physReadByte_ok h).1]; exact .refl v)
      (physReadByte_ne_next pa v)).fetches

/-- A fetch of an instruction likewise (R201, R210). -/
theorem fetchInstr_fetches (fuel : Nat) (bytes : List Byte) (s : State) :
    (fetchInstr fuel bytes s).Fetches s := by
  induction fuel generalizing bytes s with
  | zero => exact .memory ⟨.gp, _, s, .refl s, .inr ⟨.inl rfl, rfl⟩⟩
  | succ fuel ih =>
    refine Res.Fetches.bind (fetchByte_fetches _ s) fun b t _ => ?_
    split
    · exact ih _ t
    · exact Walked.refl t
    · exact .lock t (.refl t) rfl
    · trivial

/-- The instruction a fetch answers is the one the bytes it read decode to (R210). -/
theorem fetchInstr_decoded {fuel : Nat} {bytes : List Byte} {s t : State} {i : Instr}
    (h : fetchInstr fuel bytes s = .ok i t) : ∃ l, decode s.seg.cs.attr.d l = .instr i := by
  induction fuel generalizing bytes s with
  | zero => cases h
  | succ fuel ih =>
    obtain ⟨b, u, h1, h2⟩ := bind_eq_ok h
    have hu := fetchByte_fetches bytes.length s
    rw [h1] at hu
    have hs : u.seg = s.seg := by rw [Walked.eq hu]
    rw [hs] at h2
    split at h2
    · obtain ⟨l, hl⟩ := ih h2; exact ⟨l, hs ▸ hl⟩
    · rename_i hd; cases h2; exact ⟨_, hd⟩
    · cases h2
    · cases h2

/-- Everything a step can do that answers a next state: the fetch raises an exception, the instruction
does, or it completes, EIP moves past it and the pending debug conditions are reported (R16). -/
theorem step_cases {s t : State} (h : step s = .next t) :
    Running s ∧
      (FetchTrap s t ∨
        ∃ i u, fetchInstr maxInstrBytes [] s = .ok i u ∧ Walked s u ∧
          ∃ v, exec i u = .next v ∧
            ((v.trapped.isSome = true ∧ t = v) ∨
              (v.trapped = none ∧ v.eip.toNat + i.length < 0x100000000 ∧
                t = reportTraps s.tf { v with eip := v.eip + BitVec.ofNat 32 i.length }))) := by
  unfold step at h
  split at h
  · cases h
  · rename_i hn
    split at h
    · cases h
    · rename_i hv
      refine ⟨⟨hn, by simpa using hv⟩, ?_⟩
      have hf := fetchInstr_fetches maxInstrBytes [] s
      rcases thenOut_cases h with hr | ⟨i, u, hr, h⟩
      · rw [hr] at hf; exact .inl hf
      · rw [hr] at hf
        refine .inr ⟨i, u, hr, hf, ?_⟩
        cases he : exec i u with
        | next v =>
          refine ⟨v, rfl, ?_⟩
          rw [he] at h
          unfold afterRule at h
          split at h
          · rename_i w heq
            obtain rfl : v = w := by injection heq
            split at h
            · cases h; exact .inl ⟨‹_›, rfl⟩
            · rename_i hs
              unfold complete at h
              split at h
              · cases h
              · cases h
                exact .inr ⟨by simpa using hs, by omega, rfl⟩
          · cases h
          · cases h
        | fault f => rw [he] at h; cases h
        | refused r => rw [he] at h; cases h

end Sys2Proof.Machine
end

