-- ==== Sys2Proof/Laws/Tables.lean ====
section
/-!
SUPPORT. Once for the page tables, what an access can do to memory: translation sets A and D in the entries
for its linear addresses and changes no other byte.
-/

namespace Sys2Proof.Machine

/-! ### Dwords at aligned addresses -/

theorem pdeAddr_aligned (cr3 la : Word) : (pdeAddr cr3 la).toNat % 4 = 0 := by
  simp only [pdeAddr, BitVec.toNat_append, BitVec.toNat_ofNat]
  rw [← Nat.shiftLeft_add_eq_or_of_lt (by decide), Nat.shiftLeft_eq]; omega

theorem pteAddr_aligned (pde la : Word) : (pteAddr pde la).toNat % 4 = 0 := by
  simp only [pteAddr, BitVec.toNat_append, BitVec.toNat_ofNat]
  rw [← Nat.shiftLeft_add_eq_or_of_lt (by decide), Nat.shiftLeft_eq]; omega

/-- The bytes of an aligned dword. -/
theorem toNat_add_of_aligned {e : Word} (h : e.toNat % 4 = 0) {j : Nat} (hj : j < 4) :
    (e + BitVec.ofNat 32 j).toNat = e.toNat + j := by
  have := e.isLt
  simp only [BitVec.toNat_add, BitVec.toNat_ofNat]; omega

/-- The four bytes of a dword in memory. -/
def Dword (e : Word) (s : State) (b0 b1 b2 b3 : Byte) : Prop :=
  s.byteAt e.toNat = some b0 ∧ s.byteAt (e.toNat + 1) = some b1 ∧ s.byteAt (e.toNat + 2) = some b2 ∧
    s.byteAt (e.toNat + 3) = some b3

/-- A dword is read exactly where memory holds its four bytes. -/
theorem physRead32_iff {e v : Word} {s : State} (h : e.toNat % 4 = 0) :
    physRead32 e s = .ok v s ↔
      ∃ b0 b1 b2 b3, Dword e s b0 b1 b2 b3 ∧ v = BitVec.ofNat 32 (leNat [b0, b1, b2, b3]) := by
  have hs : (span e 4).map (fun pa => s.byteAt pa.toNat) =
      [s.byteAt e.toNat, s.byteAt (e.toNat + 1), s.byteAt (e.toNat + 2), s.byteAt (e.toNat + 3)] := by
    simp only [span, List.range, List.range.loop, List.map_cons, List.map_nil]
    rw [toNat_add_of_aligned h (j := 0) (by decide), toNat_add_of_aligned h (j := 1) (by decide),
      toNat_add_of_aligned h (j := 2) (by decide), toNat_add_of_aligned h (j := 3) (by decide)]
    simp
  constructor
  · intro hr
    obtain ⟨bs, u, h1, h2⟩ := bind_eq_ok hr
    have h3 := (physReadBytes_ok h1).2
    cases h2
    rw [hs] at h3
    have hl := congrArg List.length h3
    simp only [List.length_map, List.length_cons, List.length_nil] at hl
    obtain ⟨b0, b1, b2, b3, rfl⟩ := List.length_eq_four.1 hl.symm
    simp only [List.map_cons, List.map_nil, List.cons.injEq, and_true] at h3
    exact ⟨b0, b1, b2, b3, h3, rfl⟩
  · rintro ⟨b0, b1, b2, b3, ⟨h0, h1, h2, h3⟩, rfl⟩
    have : physReadBytes (span e 4) s = .ok [b0, b1, b2, b3] s :=
      physReadBytes_of_byteAt (by rw [hs, h0, h1, h2, h3]; rfl)
    simp [physRead32, this]

/-- The upper 20 bits of a dword are not in its lowest byte. -/
theorem upper_of_bytes (b0 c0 b1 b2 b3 : Byte) :
    (BitVec.ofNat 32 (leNat [b0, b1, b2, b3])).extractLsb' 12 20 =
      (BitVec.ofNat 32 (leNat [c0, b1, b2, b3])).extractLsb' 12 20 := by
  apply BitVec.eq_of_toNat_eq
  have := b0.isLt; have := c0.isLt; have := b1.isLt; have := b2.isLt; have := b3.isLt
  simp only [leNat, BitVec.extractLsb'_toNat, BitVec.toNat_ofNat, Nat.shiftRight_eq_div_pow]
  omega

/-- The bytes of a dword with bits of its lowest byte set. -/
theorem leBytes_or (b0 b1 b2 b3 m : Byte) :
    leBytes 4 (BitVec.ofNat 32 (leNat [b0, b1, b2, b3]) ||| m.zeroExtend 32).toNat =
      [b0 ||| m, b1, b2, b3] := by
  have h0 := b0.isLt; have h1 := b1.isLt; have h2 := b2.isLt; have h3 := b3.isLt; have hm := m.isLt
  have hr : (BitVec.ofNat 32 (leNat [b0, b1, b2, b3]) ||| m.zeroExtend 32).toNat =
      leNat [b0, b1, b2, b3] ||| m.toNat := by
    simp only [BitVec.toNat_or, BitVec.toNat_ofNat, BitVec.truncate_eq_setWidth, BitVec.toNat_setWidth]
    rw [Nat.mod_eq_of_lt (by simp only [leNat]; omega), Nat.mod_eq_of_lt (by omega)]
  have hd : (leNat [b0, b1, b2, b3] ||| m.toNat) / 256 = leNat [b1, b2, b3] := by
    rw [show (256 : Nat) = 2 ^ 8 from rfl, ← Nat.shiftRight_eq_div_pow, Nat.shiftRight_or_distrib,
      Nat.shiftRight_eq_div_pow, Nat.shiftRight_eq_div_pow, Nat.div_eq_of_lt hm]
    simp only [leNat, Nat.or_zero]; omega
  have byte : ∀ (b : Byte) (n : Nat), BitVec.ofNat 8 (b.toNat + 256 * n) = b := fun b n => by
    apply BitVec.eq_of_toNat_eq
    have := b.isLt
    simp only [BitVec.toNat_ofNat]; omega
  rw [hr]
  simp only [leBytes, hd]
  refine List.cons_eq_cons.2 ⟨?_, ?_⟩
  · rw [BitVec.ofNat_or, BitVec.ofNat_toNat, BitVec.setWidth_eq]
    congr 1; exact byte _ _
  · have e1 : leNat [b1, b2, b3] / 256 = leNat [b2, b3] := by simp only [leNat]; omega
    have e2 : leNat [b2, b3] / 256 = leNat [b3] := by simp only [leNat]; omega
    rw [e1, e2]
    simp only [leNat]
    rw [byte, byte, show b3.toNat + 256 * 0 = b3.toNat + 256 * 0 from rfl, byte]

/-- The bytes of memory are those of the cells and the memory map. -/
theorem byteAt_congr {s t : State} (hm : t.mem = s.mem) (hp : t.platform = s.platform) (a : Nat) :
    t.byteAt a = s.byteAt a := by
  unfold State.byteAt State.isRam; rw [hm, hp]

/-- A byte after a write of one. -/
theorem byteAt_write {pa : Word} {b : Byte} {s t : State} {u : Unit} (h : physWriteByte pa b s = .ok u t)
    (a : Nat) : t.byteAt a = if a = pa.toNat then some b else s.byteAt a := by
  obtain ⟨hr, rfl⟩ := physWriteByte_ok h
  by_cases ha : a = pa.toNat
  · subst ha
    have : State.isRam { s with mem := insertCell s.mem pa.toNat b } pa.toNat = true := hr
    simp [State.byteAt, this, lookupCell_insertCell_same]
  · rw [if_neg ha]
    unfold State.byteAt State.isRam
    dsimp only
    rw [lookupCell_insertCell_other _ _ ha]

/-- Setting bits in the lowest byte of a dword changes that byte and no other. -/
theorem byteAt_physWrite32_or {e v m : Word} {mb : Byte} {s t : State} {u : Unit} (hm : m = mb.zeroExtend 32)
    (ha : e.toNat % 4 = 0) (hv : physRead32 e s = .ok v s) (h : physWrite32 e (v ||| m) s = .ok u t) :
    ∃ b, s.byteAt e.toNat = some b ∧
      ∀ a, t.byteAt a = if a = e.toNat then some (b ||| mb) else s.byteAt a := by
  obtain ⟨b0, b1, b2, b3, ⟨h0, h1, h2, h3⟩, rfl⟩ := (physRead32_iff ha).1 hv
  refine ⟨b0, h0, fun a => ?_⟩
  subst hm
  rw [physWrite32, leBytes_or] at h
  simp only [span, List.range, List.range.loop, List.map_cons, List.map_nil, List.zip_cons_cons,
    List.zip_nil_right] at h
  obtain ⟨_, s1, w0, h⟩ := bind_eq_ok h
  obtain ⟨_, s2, w1, h⟩ := bind_eq_ok h
  obtain ⟨_, s3, w2, h⟩ := bind_eq_ok h
  obtain ⟨_, s4, w3, h⟩ := bind_eq_ok h
  cases h
  rw [byteAt_write w3, byteAt_write w2, byteAt_write w1, byteAt_write w0,
    toNat_add_of_aligned ha (j := 0) (by decide), toNat_add_of_aligned ha (j := 1) (by decide),
    toNat_add_of_aligned ha (j := 2) (by decide), toNat_add_of_aligned ha (j := 3) (by decide)]
  by_cases e0 : a = e.toNat
  · simp [e0]
  · rw [if_neg e0]
    split
    · rename_i e3; rw [e3, h3]
    · split
      · rename_i e2; rw [e2, h2]
      · split
        · rename_i e1; rw [e1, h1]
        · simp [e0]

/-! ### Marks -/

theorem Marked.aligned {las : Word → Prop} {d : Bool} {s t : State} {a : Nat} (h : Marked las d s t a) :
    a % 4 = 0 := by
  obtain ⟨-, la, b, -, -, ⟨rfl | ⟨pde, -, rfl⟩, -⟩ | ⟨-, ⟨pde, -, rfl⟩, -⟩⟩ := h
  · exact pdeAddr_aligned _ _
  · exact pteAddr_aligned _ _
  · exact pteAddr_aligned _ _

theorem Marked.some {las : Word → Prop} {d : Bool} {s t : State} {a : Nat} (h : Marked las d s t a) :
    (∃ b, s.byteAt a = Option.some b) ∧ ∃ b, t.byteAt a = Option.some b := by
  obtain ⟨-, la, b, -, hb, ⟨-, h⟩ | ⟨-, -, h⟩⟩ := h
  · exact ⟨⟨b, hb⟩, _, h⟩
  · exact ⟨⟨b, hb⟩, _, h⟩

theorem Marked.mono {las las' : Word → Prop} {d d' : Bool} {s t : State} {a : Nat} (h : Marked las d s t a)
    (hl : ∀ la, las la → las' la) (hd : d = true → d' = true) : Marked las' d' s t a := by
  obtain ⟨hp, la, b, ha, hb, h⟩ := h
  exact ⟨hp, la, b, hl la ha, hb, h.imp id fun ⟨x, y⟩ => ⟨hd x, y⟩⟩

/-- What page translation can do to memory, with the registers that say where the tables are kept. -/
structure Marks (las : Word → Prop) (d : Bool) (s t : State) : Prop where
  marked : TablesMarked las d s t
  cr0 : t.cr0 = s.cr0
  cr3 : t.cr3 = s.cr3

theorem Marks.refl (las : Word → Prop) (d : Bool) (s : State) : Marks las d s s :=
  ⟨fun _ => .inl rfl, rfl, rfl⟩

/-- A state that holds the same memory and tables. -/
theorem Marks.of_same {las : Word → Prop} {d : Bool} {s t : State} (hm : t.mem = s.mem)
    (hp : t.platform = s.platform) (h0 : t.cr0 = s.cr0) (h3 : t.cr3 = s.cr3) : Marks las d s t :=
  ⟨fun a => .inl (byteAt_congr hm hp a), h0, h3⟩

theorem Marks.mono {las las' : Word → Prop} {d d' : Bool} {s t : State} (h : Marks las d s t)
    (hl : ∀ la, las la → las' la) (hd : d = true → d' = true) : Marks las' d' s t :=
  ⟨fun a => (h.marked a).imp id (·.mono hl hd), h.cr0, h.cr3⟩

/-- Marks keep every dword of the tables readable, with the frame it holds. -/
theorem Marks.read {las : Word → Prop} {d : Bool} {s t : State} (h : Marks las d s t) {e v : Word}
    (ha : e.toNat % 4 = 0) (hv : physRead32 e t = .ok v t) :
    ∃ w, physRead32 e s = .ok w s ∧ w.extractLsb' 12 20 = v.extractLsb' 12 20 := by
  obtain ⟨b0, b1, b2, b3, ⟨h0, h1, h2, h3⟩, rfl⟩ := (physRead32_iff ha).1 hv
  have keep : ∀ j, j < 4 → 0 < j → s.byteAt (e.toNat + j) = t.byteAt (e.toNat + j) := fun j hj hp => by
    rcases h.marked (e.toNat + j) with k | k
    · exact k.symm
    · have := k.aligned; omega
  have low : ∃ c, s.byteAt e.toNat = some c := by
    rcases h.marked e.toNat with k | k
    · exact ⟨b0, by rw [← k, h0]⟩
    · exact k.some.1
  obtain ⟨c, hc⟩ := low
  exact ⟨_, (physRead32_iff ha).2 ⟨c, b1, b2, b3,
    ⟨hc, by rw [keep 1 (by decide) (by decide), h1], by rw [keep 2 (by decide) (by decide), h2],
      by rw [keep 3 (by decide) (by decide), h3]⟩, rfl⟩, upper_of_bytes _ _ _ _ _⟩

theorem Marks.read_after {las : Word → Prop} {d : Bool} {s t : State} (h : Marks las d s t) {e v : Word}
    (ha : e.toNat % 4 = 0) (hv : physRead32 e s = .ok v s) :
    ∃ w, physRead32 e t = .ok w t ∧ w.extractLsb' 12 20 = v.extractLsb' 12 20 := by
  obtain ⟨b0, b1, b2, b3, ⟨h0, h1, h2, h3⟩, rfl⟩ := (physRead32_iff ha).1 hv
  have keep : ∀ j, j < 4 → 0 < j → t.byteAt (e.toNat + j) = s.byteAt (e.toNat + j) := fun j hj hp => by
    rcases h.marked (e.toNat + j) with k | k
    · exact k
    · have := k.aligned; omega
  have low : ∃ c, t.byteAt e.toNat = some c := by
    rcases h.marked e.toNat with k | k
    · exact ⟨b0, by rw [k, h0]⟩
    · exact k.some.2
  obtain ⟨c, hc⟩ := low
  exact ⟨_, (physRead32_iff ha).2 ⟨c, b1, b2, b3,
    ⟨hc, by rw [keep 1 (by decide) (by decide), h1], by rw [keep 2 (by decide) (by decide), h2],
      by rw [keep 3 (by decide) (by decide), h3]⟩, rfl⟩, upper_of_bytes _ _ _ _ _⟩

theorem pteAddr_congr {x y la : Word} (h : x.extractLsb' 12 20 = y.extractLsb' 12 20) :
    pteAddr x la = pteAddr y la := by simp only [pteAddr, h]

theorem Marks.tableByte {las : Word → Prop} {d : Bool} {s t : State} (h : Marks las d s t) {la : Word}
    {a : Nat} (k : TableByte la t a) : TableByte la s a := by
  obtain ⟨pde, hp, rfl⟩ := k
  rw [h.cr3] at hp
  obtain ⟨w, hw, e⟩ := h.read (pdeAddr_aligned _ _) hp
  exact ⟨w, hw, by rw [pteAddr_congr e]⟩

/-- One translation after another. -/
theorem Marks.trans {las : Word → Prop} {d : Bool} {s t u : State} (h : Marks las d s t)
    (k : Marks las d t u) : Marks las d s u := by
  refine ⟨fun a => ?_, k.cr0.trans h.cr0, k.cr3.trans h.cr3⟩
  rcases k.marked a with ka | ka
  · rcases h.marked a with ha | ha
    · exact .inl (ka.trans ha)
    · obtain ⟨hp, la, b, hl, hb, hh⟩ := ha
      rw [← ka] at hh
      exact .inr ⟨hp, la, b, hl, hb, hh⟩
  · right
    obtain ⟨hp, la, c, hl, hc, hk⟩ := ka
    have hpg : s.pg = true := by rw [← hp]; simp only [State.pg, h.cr0]
    have dir : DirectoryByte la t a → DirectoryByte la s a := fun x => by
      unfold DirectoryByte at x ⊢; rw [x, h.cr3]
    rcases h.marked a with ha | ha
    · rw [hc] at ha
      refine ⟨hpg, la, c, hl, ha.symm, hk.imp ?_ ?_⟩
      · exact fun ⟨x, y⟩ => ⟨x.imp dir h.tableByte, y⟩
      · exact fun ⟨x, y, z⟩ => ⟨x, h.tableByte y, z⟩
    · obtain ⟨-, la', b, hl', hb, hh⟩ := ha
      have o1 : ∀ b : Byte, b ||| 0x20 ||| 0x20 = b ||| 0x20 := by decide
      have o2 : ∀ b : Byte, b ||| 0x60 ||| 0x20 = b ||| 0x60 := by decide
      have o3 : ∀ b : Byte, b ||| 0x20 ||| 0x60 = b ||| 0x60 := by decide
      have o4 : ∀ b : Byte, b ||| 0x60 ||| 0x60 = b ||| 0x60 := by decide
      rcases hh with ⟨hx, hy⟩ | ⟨hd, hx, hy⟩ <;> rw [hc] at hy <;> cases hy <;>
        rcases hk with ⟨kx, ky⟩ | ⟨kd, kx, ky⟩
      · exact ⟨hpg, la', b, hl', hb, .inl ⟨hx, by rw [ky, o1]⟩⟩
      · exact ⟨hpg, la, b, hl, hb, .inr ⟨kd, h.tableByte kx, by rw [ky, o3]⟩⟩
      · exact ⟨hpg, la', b, hl', hb, .inr ⟨hd, hx, by rw [ky, o2]⟩⟩
      · exact ⟨hpg, la', b, hl', hb, .inr ⟨hd, hx, by rw [ky, o4]⟩⟩

/-! ### What translation, fetch and operand accesses do to the tables -/

/-- What a part of an access can do: the state it answers, or the state of the exception it raises, differs in
memory by marks alone. -/
def Res.Marks {α : Type} (las : Word → Prop) (d : Bool) (s : State) : Res α → Prop
  | .ok _ t => Machine.Marks las d s t
  | .stop (.next t) => Machine.Marks las d s t
  | .stop (.fault _) => True
  | .stop (.refused _) => True

section Operations

variable {α β : Type} {las : Word → Prop} {d : Bool}

theorem Res.Marks.after {s t : State} {r : Res α} (h : Machine.Marks las d s t) (k : r.Marks las d t) :
    r.Marks las d s := by
  cases r with
  | ok a u => exact Machine.Marks.trans h k
  | stop o =>
    cases o with
    | next u => exact Machine.Marks.trans h k
    | fault => trivial
    | refused => trivial

theorem Res.Marks.bind {s : State} {r : Res α} {f : α → State → Res β} (h : r.Marks las d s)
    (k : ∀ a t, r = .ok a t → (f a t).Marks las d t) : (r.bind f).Marks las d s := by
  cases r with
  | ok a t => exact Res.Marks.after h (k a t rfl)
  | stop o => cases o <;> exact h

/-- An operation that answers in its own state, or stops without an exception. -/
theorem marks_of {s : State} {r : Res α} (h : ∀ a t, r = .ok a t → t = s)
    (k : ∀ t, r ≠ .stop (.next t)) : r.Marks las d s := by
  cases r with
  | ok a t => exact h a t rfl ▸ .refl las d _
  | stop o =>
    cases o with
    | next t => exact absurd rfl (k t)
    | fault => trivial
    | refused => trivial

theorem takeException_marks (x : Exc) (c : ExcClass) (e : ErrorCode) (s : State) :
    Machine.Marks las d s (takeException x c e s) := .of_same rfl rfl rfl rfl

theorem pageFault_marks (la : Word) (acc : Access) (p : Bool) (s : State) :
    Machine.Marks las d s (pageFault la acc p s) := .of_same rfl rfl rfl rfl

theorem afterDraw_marks (s : State) : Machine.Marks las d s s.afterDraw := .of_same rfl rfl rfl rfl

theorem setPdeA_marks {s : State} {la pde : Word} (hp : s.pg = true) (hl : las la)
    (hv : physRead32 (pdeAddr s.cr3 la) s = .ok pde s) :
    (setPdeA (pdeAddr s.cr3 la) pde s).Marks las d s := by
  have ha := pdeAddr_aligned s.cr3 la
  unfold setPdeA
  split
  · exact .refl las d s
  · cases hw : physWrite32 (pdeAddr s.cr3 la) (pde ||| 0x20) s with
    | stop o =>
      cases o with
      | next t => exact absurd hw (physWrite32_ne_next _ _ _ _)
      | fault => trivial
      | refused => trivial
    | ok u t =>
      obtain ⟨b, hb, hs⟩ := byteAt_physWrite32_or (mb := 0x20) (by rfl) ha hv hw
      have e := (physWrite32_ok hw).1
      refine ⟨fun a => ?_, by rw [e], by rw [e]⟩
      rw [hs a]
      by_cases h : a = (pdeAddr s.cr3 la).toNat
      · subst h
        exact .inr ⟨hp, la, b, hl, hb, .inl ⟨.inl rfl, by rw [hs, if_pos rfl]⟩⟩
      · exact .inl (if_neg h)

theorem finishWalk_marks {s : State} {la pde pte : Word} {acc : Access} (hp : s.pg = true) (hl : las la)
    (hd : acc.kind = .write → d = true) (ht : TableByte la s (pteAddr pde la).toNat)
    (hv : physRead32 (pteAddr pde la) s = .ok pte s) :
    (finishWalk (pteAddr pde la) pde pte la acc s).Marks las d s := by
  have ha := pteAddr_aligned pde la
  unfold finishWalk
  refine Res.Marks.bind ?_ fun _ t _ => .of_same rfl rfl rfl rfl
  split
  · exact .refl las d s
  · cases hw : physWrite32 (pteAddr pde la) (touchedPte pte acc) s with
    | stop o =>
      cases o with
      | next t => exact absurd hw (physWrite32_ne_next _ _ _ _)
      | fault => trivial
      | refused => trivial
    | ok u t =>
      have e := (physWrite32_ok hw).1
      unfold touchedPte at hw
      rw [BitVec.or_assoc] at hw
      by_cases hk : acc.kind = .write
      · rw [if_pos hk] at hw
        obtain ⟨b, hb, hs⟩ := byteAt_physWrite32_or (mb := 0x60) (by rfl) ha hv hw
        refine ⟨fun a => ?_, by rw [e], by rw [e]⟩
        rw [hs a]
        by_cases h : a = (pteAddr pde la).toNat
        · subst h
          exact .inr ⟨hp, la, b, hl, hb, .inr ⟨hd hk, ht, by rw [hs, if_pos rfl]⟩⟩
        · exact .inl (if_neg h)
      · rw [if_neg hk] at hw
        obtain ⟨b, hb, hs⟩ := byteAt_physWrite32_or (mb := 0x20) (by rfl) ha hv hw
        refine ⟨fun a => ?_, by rw [e], by rw [e]⟩
        rw [hs a]
        by_cases h : a = (pteAddr pde la).toNat
        · subst h
          exact .inr ⟨hp, la, b, hl, hb, .inl ⟨.inr ht, by rw [hs, if_pos rfl]⟩⟩
        · exact .inl (if_neg h)

theorem faultAtPte_marks {s s0 s1 : State} (pde la : Word) (acc : Access) (p : Bool)
    (h0 : Machine.Marks las d s s0) (h1 : Machine.Marks las d s s1) :
    Machine.Marks las d s (faultAtPte pde la acc p s0 s1) := by
  unfold faultAtPte
  split
  · exact h1.trans (pageFault_marks _ _ _ _)
  · split
    · exact (h1.trans (afterDraw_marks _)).trans (pageFault_marks _ _ _ _)
    · exact (h0.trans (afterDraw_marks _)).trans (pageFault_marks _ _ _ _)

theorem walk_marks {s : State} {la : Word} {acc : Access} (hp : s.pg = true) (hl : las la)
    (hd : acc.kind = .write → d = true) : (walk la acc s).Marks las d s := by
  unfold walk
  refine Res.Marks.bind (marks_of (fun _ _ h => physRead32_ok h) (physRead32_ne_next _ s)) fun pde t h => ?_
  obtain rfl := physRead32_ok h
  split
  · exact pageFault_marks _ _ _ _
  · have hs := setPdeA_marks (d := d) hp hl h
    cases hr : setPdeA (pdeAddr t.cr3 la) pde t with
    | stop o => rw [hr] at hs; cases o <;> exact hs
    | ok a s1 =>
      rw [hr] at hs
      have h1 : Machine.Marks las d t s1 := hs
      simp only [bind_ok]
      cases hq : physRead32 (pteAddr pde la) s1 with
      | stop o =>
        cases o with
        | next u => exact absurd hq (physRead32_ne_next _ _ u)
        | fault => trivial
        | refused => trivial
      | ok pte u =>
        obtain rfl := physRead32_ok hq
        simp only [bind_ok]
        split
        · exact faultAtPte_marks _ _ _ _ (.refl _ _ _) h1
        · split
          · exact faultAtPte_marks _ _ _ _ (.refl _ _ _) h1
          · refine Res.Marks.after h1 (finishWalk_marks ?_ hl hd ?_ hq)
            · rw [← hp]; simp only [State.pg, h1.cr0]
            · obtain ⟨w, hw, e⟩ := h1.read_after (pdeAddr_aligned _ _) h
              exact ⟨w, by rw [h1.cr3]; exact hw, by rw [pteAddr_congr e]⟩

theorem pageTranslate_marks {s : State} {la : Word} {acc : Access} (hl : las la)
    (hd : acc.kind = .write → d = true) : (pageTranslate la acc s).Marks las d s := by
  unfold pageTranslate
  split
  · exact .refl las d s
  · rename_i hn
    have hp : s.pg = true := by simpa using hn
    split
    · exact walk_marks hp hl hd
    · split
      · split
        · exact (afterDraw_marks s).trans (pageFault_marks _ _ _ _)
        · split
          · exact Res.Marks.after (afterDraw_marks s) (walk_marks hp hl hd)
          · exact afterDraw_marks s
      · exact Res.Marks.after (t := { s.afterDraw with tlb := tlbDrop s.tlb (pageOf la) })
          (.of_same rfl rfl rfl rfl) (walk_marks hp hl hd)

/-- The translation of an access marks the tables for its own linear addresses (R140, R141). -/
theorem linTranslate_marks {s : State} {la : Word} {n : Nat} {acc : Access}
    (hl : ∀ a ∈ span la n, las a) (hn : 1 ≤ n) (hd : acc.kind = .write → d = true) :
    (linTranslate la n acc s).Marks las d s := by
  have at_ : ∀ j, j < n → las (la + BitVec.ofNat 32 j) := fun j hj =>
    hl _ (List.mem_map.2 ⟨j, List.mem_range.2 hj, rfl⟩)
  have h0 : las la := by simpa using at_ 0 hn
  unfold linTranslate
  refine Res.Marks.bind (pageTranslate_marks h0 hd) fun f t _ => ?_
  simp only
  split
  · exact .refl las d t
  · rename_i hf
    have : firstPiece la n < n := by unfold firstPiece at hf ⊢; omega
    exact Res.Marks.bind (pageTranslate_marks (at_ _ this) hd) fun f u _ => .refl las d u

theorem segTranslate_marks (r : SegReg) (off : Word) (n : Nat) (k : AccessKind) (s : State) :
    (segTranslate r off n k s).Marks las d s := by
  unfold segTranslate raiseFault
  split
  · trivial
  · split
    · exact takeException_marks _ _ _ _
    · split
      · exact takeException_marks _ _ _ _
      · split
        · exact takeException_marks _ _ _ _
        · exact .refl las d s

theorem instrBreakpoint_marks (la : Word) (s : State) : (instrBreakpoint la s).Marks las d s := by
  unfold instrBreakpoint
  split
  · exact .of_same rfl rfl rfl rfl
  · exact .refl las d s

theorem dataBreakpoint_marks (k : AccessKind) (bytes : List Word) (i : Fin 4) (s : State) :
    (dataBreakpoint k bytes i s).Marks las d s := by
  unfold dataBreakpoint
  split
  · split
    · trivial
    · exact .refl las d s
    · split
      · exact .of_same rfl rfl rfl rfl
      · trivial
  · exact .refl las d s

theorem dataBreakpoints_marks (k : AccessKind) (la : Word) (n : Nat) (s : State) :
    (dataBreakpoints k la n s).Marks las d s :=
  Res.Marks.bind (dataBreakpoint_marks _ _ _ _) fun _ t _ =>
    Res.Marks.bind (dataBreakpoint_marks _ _ _ t) fun _ u _ =>
      Res.Marks.bind (dataBreakpoint_marks _ _ _ u) fun _ v _ => dataBreakpoint_marks _ _ _ v

/-- A fetched byte marks the tables for its own linear address (R201). -/
theorem fetchByte_marks {s : State} {j : Nat} (hl : las (s.seg.cs.base + s.eip + BitVec.ofNat 32 j)) :
    (fetchByte j s).Marks las d s := by
  refine Res.Marks.bind (segTranslate_marks _ _ _ _ _) fun la t h => ?_
  obtain ⟨rfl, rfl⟩ := segTranslate_ok h
  refine Res.Marks.bind ?_ fun _ u _ => ?_
  · split
    · exact instrBreakpoint_marks _ _
    · exact .refl las d _
  · refine Res.Marks.bind (linTranslate_marks ?_ (by decide) (by simp [operandAccess])) fun pas v _ => ?_
    · intro a ha
      simp only [span, List.range, List.range.loop, List.map_cons, List.map_nil, List.mem_singleton] at ha
      rw [ha]
      have : Segments.get t.seg .cs = t.seg.cs := rfl
      simpa [this, BitVec.add_assoc] using hl
    · split
      · exact marks_of (fun _ _ h => (physReadByte_ok h).1) (physReadByte_ne_next _ _)
      · exact takeException_marks _ _ _ _

/-- Reading an operand marks the tables for its linear addresses (R11). -/
theorem memRead_marks {s : State} {r : SegReg} {off : Word} {n : Nat} (hn : 1 ≤ n)
    (hl : ∀ a ∈ span ((s.seg.get r).base + off) n, las a) : (memRead r off n s).Marks las d s := by
  refine Res.Marks.bind (segTranslate_marks _ _ _ _ _) fun la t h => ?_
  obtain ⟨rfl, rfl⟩ := segTranslate_ok h
  refine Res.Marks.bind (dataBreakpoints_marks _ _ _ t) fun _ u _ => ?_
  exact Res.Marks.bind (linTranslate_marks hl hn (by simp [operandAccess])) fun pas v _ =>
    marks_of (fun _ _ h => (physReadBytes_ok h).1) (physReadBytes_ne_next _ _)

/-- The source of LMSW (R238). -/
theorem readRm16_marks {s : State} {p : Prefixes} {m : MemOperand}
    (hl : ∀ a ∈ span (operandLinear p m s) 2, las a) : (readRm16 p (.mem m) s).Marks las d s :=
  Res.Marks.bind (memRead_marks (by decide) hl) fun _ t _ => .refl las d t

/-- A fetch marks the tables for the bytes from CS:EIP on (R201). -/
theorem fetchInstr_marks {fuel : Nat} {bytes : List Byte} {s : State}
    (hl : ∀ j, las (s.seg.cs.base + s.eip + BitVec.ofNat 32 j)) :
    (fetchInstr fuel bytes s).Marks las d s := by
  induction fuel generalizing bytes s with
  | zero => exact takeException_marks _ _ _ _
  | succ fuel ih =>
    refine Res.Marks.bind (fetchByte_marks (hl _)) fun b t h => ?_
    have hw := fetchByte_fetches bytes.length s
    rw [h] at hw
    have e := Walked.eq hw
    split
    · exact ih fun j => by rw [e]; exact hl j
    · exact .refl las d t
    · exact takeException_marks _ _ _ _
    · trivial

/-- A fetch that answers an instruction marks the tables for the instruction's own bytes: it asks for no
other byte (R201, R210). -/
theorem fetchInstr_ok_marks {fuel : Nat} {bytes : List Byte} {s t : State} {i : Instr}
    (hb : ∀ k, k ≤ bytes.length → decode s.seg.cs.attr.d (bytes.take k) = .more)
    (h : fetchInstr fuel bytes s = .ok i t)
    (hl : ∀ a ∈ span (s.seg.cs.base + s.eip) i.length, las a) :
    Machine.Marks las d s t ∧ ∃ l, decode s.seg.cs.attr.d (bytes ++ l) = .instr i := by
  induction fuel generalizing bytes s with
  | zero => cases h
  | succ fuel ih =>
    obtain ⟨b, u, h1, h2⟩ := bind_eq_ok h
    have hw := fetchByte_fetches bytes.length s
    rw [h1] at hw
    have e : u = _ := Walked.eq hw
    have hs : u.seg = s.seg := by rw [e]
    have he : u.eip = s.eip := by rw [e]
    rw [hs] at h2
    have fetched : (∃ l, decode s.seg.cs.attr.d (bytes ++ l) = .instr i) → Machine.Marks las d s u := by
      rintro ⟨l, hd⟩
      have hlen : bytes.length < i.length := by
        by_contra hn
        have h3 := decode_take hd
        rw [List.take_append_of_le_length (by omega), hb _ (by omega)] at h3
        cases h3
      have hm := fetchByte_marks (las := las) (d := d) (s := s) (j := bytes.length)
        (hl _ (List.mem_map.2 ⟨_, List.mem_range.2 hlen, rfl⟩))
      rw [h1] at hm
      exact hm
    split at h2
    · rename_i hm
      have hb' : ∀ k, k ≤ (bytes ++ [b]).length →
          decode u.seg.cs.attr.d ((bytes ++ [b]).take k) = .more := by
        intro k hk
        rw [hs]
        by_cases hk' : k ≤ bytes.length
        · rw [List.take_append_of_le_length hk']; exact hb k hk'
        · rw [List.take_of_length_le (by simp at hk ⊢; omega)]; exact hm
      obtain ⟨hr, l, hd⟩ := ih hb' h2 (by rw [hs, he]; exact hl)
      rw [hs, List.append_assoc] at hd
      exact ⟨(fetched ⟨_, hd⟩).trans hr, _, hd⟩
    · rename_i hd
      cases h2
      exact ⟨fetched ⟨_, hd⟩, _, hd⟩
    · cases h2
    · cases h2

end Operations

/-! ### What instructions do to memory -/

/-- Segment translation that answers a read or a write has passed the tests of protected mode (R128). -/
theorem segTranslate_inside {r : SegReg} {off : Word} {n : Nat} {k : AccessKind} {s t : State} {la : Word}
    (hk : k ≠ .fetch) (h : segTranslate r off n k s = .ok la t) : OperandInside r off n k s := by
  unfold segTranslate raiseFault at h
  split at h
  · cases h
  · rename_i c1
    split at h
    · cases h
    · rename_i c2
      split at h
      · cases h
      · rename_i c3
        split at h
        · cases h
        · rename_i c4
          have hp : s.pe = true := by simpa [hk] using c1
          exact ⟨hp, by simpa [hp] using c2, by simpa [hp] using c3, by simpa using c4⟩

/-- The translation of two bytes answers two addresses. -/
theorem linTranslate_two {la : Word} {acc : Access} {s t : State} {pas : List Word}
    (h : linTranslate la 2 acc s = .ok pas t) : ∃ lo hi, pas = [lo, hi] := by
  unfold linTranslate at h
  obtain ⟨f, u, -, h⟩ := bind_eq_ok h
  have hf : firstPiece la 2 = 1 ∨ firstPiece la 2 = 2 := by
    have := (offsetOf la).isLt; unfold firstPiece; omega
  rcases hf with e | e <;> simp only [e] at h
  · rw [if_neg (by decide)] at h
    obtain ⟨g, v, -, h⟩ := bind_eq_ok h
    cases h; exact ⟨_, _, rfl⟩
  · cases h; exact ⟨_, _, rfl⟩

/-- `t` is `s` after SMSW stored its two bytes in memory: but for marks in the page tables, no byte has
changed but those where the translation of its operand answered (R239). -/
def SmswStored (p : Prefixes) (m : MemOperand) (s t : State) : Prop :=
  OperandInside (operandSegment p m) (effectiveAddress m s) 2 .write s ∧
    ∃ w v lo hi, dataBreakpoints .write (operandLinear p m s) 2 s.afterDraw = .ok () w ∧
      linTranslate (operandLinear p m s) 2 (operandAccess .write s) w = .ok [lo, hi] v ∧
        Marks (fun _ => True) true s v ∧ ∀ a, a ≠ lo.toNat → a ≠ hi.toNat → t.byteAt a = v.byteAt a

/-- Where SMSW to memory answers a next state, memory has marks alone, or its two bytes were stored. -/
theorem smswMem_memory {p : Prefixes} {m : MemOperand} {s t : State}
    (h : exec (.smsw p (.mem m)) s = .next t) :
    Marks (fun _ => True) true s t ∨ SmswStored p m s t := by
  have h0 : Marks (fun _ => True) true s s.afterDraw := afterDraw_marks s
  have hs := segTranslate_marks (las := fun _ => True) (d := true) (operandSegment p m)
    (effectiveAddress m s) 2 .write s.afterDraw
  have hd := dataBreakpoints_marks (las := fun _ => True) (d := true) .write (operandLinear p m s) 2
    s.afterDraw
  have hl := fun w => linTranslate_marks (las := fun _ => True) (d := true) (s := w)
    (la := operandLinear p m s) (n := 2) (acc := operandAccess .write w) (by simp) (by decide) (by simp)
  change (((segTranslate (operandSegment p m) (effectiveAddress m s) 2 .write s.afterDraw).bind
    fun la s => (dataBreakpoints .write la 2 s).bind
      fun _ s => (linTranslate la 2 (operandAccess .write s) s).bind fun pas s =>
        if intoStream (groupLength p (.mem m)) la 2 s then .stop (.refused .storeIntoStream)
        else physWriteBytes (pas.zip [_, _]) s).thenOut fun _ s => .next s) = _ at h
  rcases thenOut_cases h with h | ⟨_, v, h, h'⟩
  · left
    rcases bind_eq_stop h with h | ⟨la, u, h1, h⟩
    · rw [h] at hs; exact h0.trans hs
    · obtain ⟨rfl, rfl⟩ := segTranslate_ok h1
      rcases bind_eq_stop h with h | ⟨_, w, h2, h⟩
      · change dataBreakpoints .write (operandLinear p m s) 2 s.afterDraw = _ at h
        rw [h] at hd; exact h0.trans hd
      · change dataBreakpoints .write (operandLinear p m s) 2 s.afterDraw = _ at h2
        rw [h2] at hd
        rcases bind_eq_stop h with h | ⟨pas, x, h3, h⟩
        · change linTranslate (operandLinear p m s) 2 (operandAccess .write w) w = _ at h
          have := hl w
          rw [h] at this; exact (h0.trans hd).trans this
        · split at h
          · cases h
          · exact absurd h (physWriteBytes_ne_next _ _ _)
  · cases h'
    right
    obtain ⟨la, u, h1, h⟩ := bind_eq_ok h
    have hin : OperandInside (operandSegment p m) (effectiveAddress m s) 2 .write s :=
      segTranslate_inside (s := s.afterDraw) (by simp) h1
    obtain ⟨rfl, rfl⟩ := segTranslate_ok h1
    obtain ⟨_, w, h2, h⟩ := bind_eq_ok h
    obtain ⟨pas, x, h3, h⟩ := bind_eq_ok h
    change dataBreakpoints .write (operandLinear p m s) 2 s.afterDraw = _ at h2
    change linTranslate (operandLinear p m s) 2 (operandAccess .write w) w = _ at h3
    rw [h2] at hd
    have hacc : operandAccess .write w = operandAccess .write s := by rw [dataBreakpoints_ok h2]; rfl
    have hw := hl w
    rw [h3] at hw
    obtain ⟨lo, hi, rfl⟩ := linTranslate_two h3
    rw [hacc] at h3
    refine ⟨hin, w, x, lo, hi, h2, h3, (h0.trans hd).trans hw, fun a h1 h2 => ?_⟩
    split at h
    · cases h
    · have e := (physWriteBytes_ok h).1
      have k := (physWriteBytes_ok h).2.2 a (by simp [Ne.symm h1, Ne.symm h2])
      unfold State.byteAt State.isRam
      rw [k, e]

/-- What an instruction that answers a next state does to memory: marks in the page tables, and the two bytes
that SMSW stores. -/
theorem exec_memory {i : Instr} {s t : State} (h : exec i s = .next t) :
    TablesMarked (fun _ => True) true s t ∨ ∃ p m, i = .smsw p (.mem m) ∧ SmswStored p m s t := by
  have same : ∀ {t : State}, t.mem = s.mem → t.platform = s.platform →
      TablesMarked (fun _ => True) true s t := fun hm hp a => .inl (byteAt_congr hm hp a)
  by_cases hm : (∃ p m, i = .smsw p (.mem m)) ∨ ∃ p m, i = .lmsw p (.mem m)
  · rcases hm with ⟨p, m, rfl⟩ | ⟨p, m, rfl⟩
    · rcases smswMem_memory h with h | h
      · exact .inl h.marked
      · exact .inr ⟨p, m, rfl, h⟩
    · left
      rcases privileged_next h with ⟨-, rfl⟩ | ⟨-, h⟩
      · exact same rfl rfl
      · have hr := readRm16_marks (las := fun _ => True) (d := true) (s := s) (p := p) (m := m) (by simp)
        rcases thenOut_cases h with h | ⟨src, u, h, h'⟩
        · rw [h] at hr; exact hr.marked
        · rw [h] at hr
          unfold loadMsw at h'
          split at h'
          · cases h'
          · cases h'; exact hr.marked
  · left
    have guarded : ∀ {go : Out}, privileged s go = .next t →
        (go = .next t → TablesMarked (fun _ => True) true s t) →
          TablesMarked (fun _ => True) true s t := by
      intro go h k
      rcases privileged_next h with ⟨-, rfl⟩ | ⟨-, h⟩
      · exact same rfl rfl
      · exact k h
    have debug : ∀ {go : Out}, debugAccess s go = .next t →
        (go = .next t → TablesMarked (fun _ => True) true s t) →
          TablesMarked (fun _ => True) true s t := by
      intro go h k
      rcases debugAccess_next h with ⟨-, rfl⟩ | ⟨-, -, rfl⟩ | ⟨-, -, h⟩
      · exact same rfl rfl
      · exact same rfl rfl
      · exact k h
    cases i with
    | smsw p o =>
      cases o with
      | reg r => cases h; unfold storeMswReg; dsimp only; split <;> exact same rfl rfl
      | mem m => exact absurd (.inl ⟨p, m, rfl⟩) hm
    | lmsw p o =>
      cases o with
      | reg r =>
        refine guarded h fun h => ?_
        change loadMsw _ s = _ at h
        unfold loadMsw at h
        split at h
        · cases h
        · cases h; exact same rfl rfl
      | mem m => exact absurd (.inr ⟨p, m, rfl⟩) hm
    | movCr0R32 p rm =>
      refine guarded h fun h => ?_
      obtain ⟨-, -, rfl⟩ := loadCr0_next h
      exact same rfl rfl
    | movCr3R32 p rm =>
      refine guarded h fun h => ?_
      rw [loadCr3_next h, writeCr3_frame]
      exact same rfl rfl
    | movDr7R32 p rm =>
      refine debug h fun h => ?_
      obtain ⟨-, rfl⟩ := loadDr7_next h
      exact same rfl rfl
    | esc p low =>
      change (if s.em then _ else _) = _ at h
      split at h
      · cases h; exact same rfl rfl
      · cases h
    | _ =>
      first
        | exact guarded h fun h => by cases h; exact same rfl rfl
        | exact guarded h fun h => by cases h
        | exact debug h fun h => by cases h; exact same rfl rfl
        | exact debug h fun h => by cases h

end Sys2Proof.Machine
end

