-- ==== Sys2Proof/Tests/Slice0.lean ====
section
/-!
SUPPORT. Tests. The expected results are those of spec/95_test_vectors.md (the vector is named before each
group) or written out from the encoding rules; then, for each obligation that has hypotheses, a state and
operands that meet them.
-/

namespace Sys2Proof.Tests

open Sys2Proof Sys2Proof.Machine

/-! ### Well-formedness: an ill-formed term for each check (R205 to R209) -/

/-- [BP] with no displacement is the disp16 form (R207). -/
theorem test_wf_base16_bp_none : Instr.wf false (.smsw {} (.mem (.base16 .bp .none))) = false := by decide

/-- rm = 100B announces SIB, so ESP is no plain base (R205). -/
theorem test_wf_base32_esp : Instr.wf true (.lmsw {} (.mem (.base32 .esp (.d8 0)))) = false := by decide

/-- [EBP] with no displacement is the disp32 form (R205). -/
theorem test_wf_base32_ebp_none : Instr.wf true (.smsw {} (.mem (.base32 .ebp .none))) = false := by decide

/-- SIB base 101B with mod = 00B has no base register (R206). -/
theorem test_wf_sib_ebp_none : Instr.wf true (.smsw {} (.mem (.sib 0 .eax .ebp .none))) = false := by decide

/-- A 16-bit form needs 67H in a 32-bit segment (R209). -/
theorem test_wf_address_size_16 : Instr.wf true (.smsw {} (.mem (.direct16 0))) = false ∧
    Instr.wf true (.smsw { addrsize := true } (.mem (.direct16 0))) = true := by decide

/-- A 32-bit form needs 67H in a 16-bit segment (R209). -/
theorem test_wf_address_size_32 : Instr.wf false (.lmsw {} (.mem (.direct32 0))) = false ∧
    Instr.wf false (.lmsw { addrsize := true } (.mem (.direct32 0))) = true := by decide

/-! ### Decoding: words written out from the encodings (V30, V32, R212 to R215) -/

/-- V30. -/
theorem test_decode_clts : decode true [0x0F, 0x06] = .instr (.clts {}) := by decide

/-- V30, V31: the control registers. -/
theorem test_decode_from_control :
    decode true [0x0F, 0x20, 0xC0] = .instr (.movR32Cr0 {} .eax) ∧
      decode true [0x0F, 0x20, 0xC7] = .instr (.movR32Cr0 {} .edi) ∧
        decode true [0x0F, 0x20, 0xD0] = .instr (.movR32Cr2 {} .eax) ∧
          decode true [0x0F, 0x20, 0xDA] = .instr (.movR32Cr3 {} .edx) ∧
            decode true [0x0F, 0x20, 0xC8] = .instr (.movR32Cr1 {} .eax) ∧
              decode true [0x0F, 0x20, 0xE9] = .instr (.movR32Cr4to7 {} 1 .ecx) := by decide

/-- V30, V31: the control registers. -/
theorem test_decode_to_control :
    decode true [0x0F, 0x22, 0xC1] = .instr (.movCr0R32 {} .ecx) ∧
      decode true [0x0F, 0x22, 0xD0] = .instr (.movCr2R32 {} .eax) ∧
        decode true [0x0F, 0x22, 0xDB] = .instr (.movCr3R32 {} .ebx) ∧
          decode true [0x0F, 0x22, 0xCE] = .instr (.movCr1R32 {} .esi) ∧
            decode true [0x0F, 0x22, 0xE0] = .instr (.movCr4to7R32 {} 0 .eax) ∧
              decode true [0x0F, 0x22, 0xFC] = .instr (.movCr4to7R32 {} 3 .esp) := by decide

/-- V30, V31: the debug registers. -/
theorem test_decode_from_debug :
    decode true [0x0F, 0x21, 0xC3] = .instr (.movR32Dr0 {} .ebx) ∧
      decode true [0x0F, 0x21, 0xCD] = .instr (.movR32Dr1 {} .ebp) ∧
        decode true [0x0F, 0x21, 0xD0] = .instr (.movR32Dr2 {} .eax) ∧
          decode true [0x0F, 0x21, 0xD9] = .instr (.movR32Dr3 {} .ecx) ∧
            decode true [0x0F, 0x21, 0xF0] = .instr (.movR32Dr6 {} .eax) ∧
              decode true [0x0F, 0x21, 0xF8] = .instr (.movR32Dr7 {} .eax) ∧
                decode true [0x0F, 0x21, 0xE0] = .instr (.movR32Dr4to5 {} 0 .eax) := by decide

/-- V30, V31: the debug registers. -/
theorem test_decode_to_debug :
    decode true [0x0F, 0x23, 0xC3] = .instr (.movDr0R32 {} .ebx) ∧
      decode true [0x0F, 0x23, 0xCB] = .instr (.movDr1R32 {} .ebx) ∧
        decode true [0x0F, 0x23, 0xD3] = .instr (.movDr2R32 {} .ebx) ∧
          decode true [0x0F, 0x23, 0xDE] = .instr (.movDr3R32 {} .esi) ∧
            decode true [0x0F, 0x23, 0xF0] = .instr (.movDr6R32 {} .eax) ∧
              decode true [0x0F, 0x23, 0xFF] = .instr (.movDr7R32 {} .edi) ∧
                decode true [0x0F, 0x23, 0xE8] = .instr (.movDr4to5R32 {} 1 .eax) := by decide

/-- V31: the test registers. -/
theorem test_decode_test :
    decode true [0x0F, 0x24, 0xF0] = .instr (.movR32Tr6 {} .eax) ∧
      decode true [0x0F, 0x24, 0xF8] = .instr (.movR32Tr7 {} .eax) ∧
        decode true [0x0F, 0x26, 0xF1] = .instr (.movTr6R32 {} .ecx) ∧
          decode true [0x0F, 0x26, 0xF8] = .instr (.movTr7R32 {} .eax) ∧
            decode true [0x0F, 0x24, 0xC0] = .instr (.movR32Tr0to3 {} 0 .eax) ∧
              decode true [0x0F, 0x26, 0xD8] = .instr (.movTr0to3R32 {} 3 .eax) ∧
                decode true [0x0F, 0x24, 0xE2] = .instr (.movR32Tr4to5 {} 0 .edx) ∧
                  decode true [0x0F, 0x26, 0xEA] = .instr (.movTr4to5R32 {} 1 .edx) := by decide

/-- V30: register forms of SMSW and LMSW. -/
theorem test_decode_msw_register :
    decode true [0x0F, 0x01, 0xE0] = .instr (.smsw {} (.reg .eax)) ∧
      decode true [0x66, 0x0F, 0x01, 0xE0] = .instr (.smsw { opsize := true } (.reg .eax)) ∧
        decode true [0x0F, 0x01, 0xF3] = .instr (.lmsw {} (.reg .ebx)) := by decide

/-- V30: 32-bit memory forms. -/
theorem test_decode_mem32 :
    decode true [0x0F, 0x01, 0x33] = .instr (.lmsw {} (.mem (.base32 .ebx .none))) ∧
      decode true [0x0F, 0x01, 0x25, 0x00, 0x20, 0x00, 0x00] =
          .instr (.smsw {} (.mem (.direct32 0x2000))) ∧
        decode true [0x0F, 0x01, 0x63, 0xFE] = .instr (.smsw {} (.mem (.base32 .ebx (.d8 0xFE)))) ∧
          decode true [0x0F, 0x01, 0x65, 0x00] = .instr (.smsw {} (.mem (.base32 .ebp (.d8 0)))) ∧
            decode true [0x0F, 0x01, 0xA3, 0x00, 0x10, 0x00, 0x00] =
              .instr (.smsw {} (.mem (.base32 .ebx (.d32 0x1000)))) := by decide

/-- V30: SIB forms. -/
theorem test_decode_sib :
    decode true [0x0F, 0x01, 0x24, 0x8B] = .instr (.smsw {} (.mem (.sib 2 .ecx .ebx .none))) ∧
      decode true [0x0F, 0x01, 0x24, 0x24] = .instr (.smsw {} (.mem (.sib 0 .esp .esp .none))) ∧
        decode true [0x0F, 0x01, 0x24, 0x25, 0x00, 0x20, 0x00, 0x00] =
            .instr (.smsw {} (.mem (.sibDirect 0 .esp 0x2000))) ∧
          decode true [0x0F, 0x01, 0x64, 0x8D, 0x04] =
            .instr (.smsw {} (.mem (.sib 2 .ecx .ebp (.d8 4)))) := by decide

/-- V30: 16-bit forms, after 67H or where D is 0, and a segment override. -/
theorem test_decode_mem16 :
    decode true [0x67, 0x0F, 0x01, 0x26, 0x00, 0x20] =
        .instr (.smsw { addrsize := true } (.mem (.direct16 0x2000))) ∧
      decode true [0x67, 0x0F, 0x01, 0x27] =
          .instr (.smsw { addrsize := true } (.mem (.base16 .bx .none))) ∧
        decode true [0x67, 0x0F, 0x01, 0x62, 0x02] =
            .instr (.smsw { addrsize := true } (.mem (.base16 .bpSi (.d8 2)))) ∧
          decode false [0x0F, 0x01, 0x26, 0x00, 0x20] = .instr (.smsw {} (.mem (.direct16 0x2000))) ∧
            decode true [0x26, 0x0F, 0x01, 0x23] =
              .instr (.smsw { seg := some .es } (.mem (.base32 .ebx .none))) := by decide

/-- V31: only the first byte of a coprocessor opcode is looked at, its prefixes apart. -/
theorem test_decode_esc :
    decode true [0xD8] = .instr (.esc {} 0) ∧ decode true [0xDF, 0x00] = .instr (.esc {} 7) ∧
      decode true [0x66, 0xD9] = .instr (.esc { opsize := true } 1) := by decide

/-- V31: prefixes that do not matter are ignored. -/
theorem test_decode_idle_prefixes :
    decode true [0x66, 0x67, 0x26, 0x0F, 0x06] =
        .instr (.clts { opsize := true, addrsize := true, seg := some .es }) ∧
      Instr.length (.clts { opsize := true, addrsize := true, seg := some .es }) = 5 := by decide

/-- V31: refused encodings. -/
theorem test_decode_refused :
    decode true [0x0F, 0x20, 0x00] = .refused .modNot11 ∧
      decode true [0x0F, 0x22, 0x40] = .refused .modNot11 ∧
        decode true [0x0F, 0x01, 0x10] = .refused .otherDigit ∧
          decode true [0x0F, 0x01, 0x38] = .refused .otherDigit ∧
            decode true [0x0F, 0x25, 0xC0] = .refused .outsideSpecification ∧
              decode true [0x0F, 0x27, 0xC0] = .refused .outsideSpecification ∧
                decode true [0x90] = .refused .outsideSpecification ∧
                  decode true [0xEA] = .refused .outsideSpecification := by decide

/-- V31: refused prefixes. -/
theorem test_decode_prefixes_refused :
    decode true [0xF3, 0x0F, 0x06] = .refused .repPrefix ∧
      decode true [0xF2, 0x0F, 0x20, 0xC0] = .refused .repPrefix ∧
        decode true [0x66, 0x66, 0x0F, 0x06] = .refused .repeatedPrefix ∧
          decode true [0x26, 0x3E, 0x0F, 0x01, 0x23] = .refused .repeatedPrefix := by decide

/-- V31: LOCK is invalid opcode, and a refusal goes before it. -/
theorem test_decode_lock :
    decode true [0xF0, 0x0F, 0x20, 0xC0] = .lockInvalid ∧ decode true [0xF0, 0x0F, 0x06] = .lockInvalid ∧
      decode true [0xF0, 0x90] = .refused .outsideSpecification := by decide

/-- The host's numbering: CLTS is the 16 bits 060FH. -/
theorem test_table_word : decodeTableWord 16 0x060F = some (.clts {}) := by decide

/-! ### States: LS-A, LS-A3 and LS-B of the test vectors -/

/-- Bytes as cells from an address on. -/
def cells : Nat → List Byte → List Host.Cell
  | _, [] => []
  | a, b :: bs => (a, b) :: cells (a + 1) bs

/-- A flat segment. -/
def flat (sel : Half) (typ : BitVec 3) (dpl : BitVec 2) : Segment where
  sel := sel
  base := 0
  limit := 0xFFFFFFFF
  attr := { valid := true, p := true, s := true, dpl := dpl, d := true, typ := typ, a := true }

/-- FS and GS of LS-A: they hold no descriptor. -/
def noSegment : Segment where
  sel := 0
  base := 0
  limit := 0
  attr := { valid := false, p := false, s := false, dpl := 0, d := false, typ := 0, a := false }

/-- The segment registers of LS-A. -/
def segsA : Segments where
  es := flat 0x10 1 0
  cs := flat 0x08 5 0
  ss := flat 0x10 1 0
  ds := flat 0x10 1 0
  fs := noSegment
  gs := noSegment

/-- The segment registers of LS-A3. -/
def segsA3 : Segments where
  es := flat 0x23 1 3
  cs := flat 0x1B 5 3
  ss := flat 0x23 1 3
  ds := flat 0x23 1 3
  fs := noSegment
  gs := noSegment

/-- LS-A with code at 1000H; the only memory that holds a value is the code. -/
def lsA (code : List Byte) : State :=
  { State.reset with
    cr0 := 1
    eip := 0x1000
    seg := segsA
    gdtr := { base := 0x800, limit := 0x17 }
    mem := cells 0x1000 code
    platform := { ram := [(0, 0x20000)], prefetchDepth := 16 } }

/-- LS-A3 with code at 1000H. -/
def lsA3 (code : List Byte) : State := { lsA code with seg := segsA3 }

/-- The tables of LS-B: PDE 0, and the page table entries 1 to 6. -/
def tablesB : List Host.Cell :=
  cells 0x10000 (leBytes 4 0x11027 ++ leBytes 4 0) ++
    cells 0x11004
      (leBytes 4 0x1025 ++ leBytes 4 0x2067 ++ leBytes 4 0 ++ leBytes 4 0x4025 ++ leBytes 4 0x5023 ++
        leBytes 4 0x7007)

/-- LS-B with some bytes of memory before its tables. -/
def lsB (mem : List Host.Cell) : State :=
  { lsA [] with cr0 := 0x80000001, cr3 := 0x10000, pgChanges := 1, mem := mem ++ tablesB }

/-- LS-B3. -/
def lsB3 (mem : List Host.Cell) : State := { lsB mem with seg := segsA3 }

/-- A test of the next state. -/
def next (o : Out) (p : State → Bool) : Bool :=
  match o with
  | .next s => p s
  | .fault _ => false
  | .refused _ => false

/-- A test of the reason of a refusal. -/
def refused (o : Out) (r : Refusal) : Bool :=
  match o with
  | .refused q => decide (q = r)
  | .next _ => false
  | .fault _ => false

/-- A test of the value of an operation and the state it leaves. -/
def done {α : Type} (r : Res α) (p : α → State → Bool) : Bool :=
  match r with
  | .ok a s => p a s
  | .stop _ => false

/-- A test of the state in which an operation takes an exception. -/
def stopped {α : Type} (r : Res α) (p : State → Bool) : Bool :=
  match r with
  | .stop o => next o p
  | .ok _ _ => false

/-- The dword that memory holds at an address is `v`. -/
def holds (s : State) (a : Nat) (v : Word) : Bool :=
  (List.range 4).all fun j => decide (s.byteAt (a + j) = some (v.extractLsb' (8 * j) 8))

/-- The fault that ends the run. -/
def faulted (x : Exc) (e : ErrorCode) (s : State) : Bool :=
  decide (s.trapped = some { exc := x, cls := .fault, err := e })

/-! ### The instructions, one step from LS-A unless said (V40 to V57) -/

/-- R95, R401: reset with other parameters than the suggested ones. -/
theorem test_reset_parameters :
    let s :=
      resetWith
        { ResetParams.suggested with
          et := true, eip := 0x100, mem := cells 0xFFFF0100 [0x0F, 0x06]
          seg := { ResetParams.suggested.seg with ds := flat 0x10 1 0 } }
    s.cr0 = 0x10 ∧ s.seg.ds.sel = 0x10 ∧ next (step s) (fun t => t.eip == 0x102) = true := by decide

/-- V42: TS is cleared, EIP + 2. -/
theorem test_clts :
    next (step { lsA [0x0F, 0x06] with cr0 := 0x1F }) (fun t => t.cr0 == 0x17 && t.eip == 0x1002) = true := by
  decide

/-- V40: GP(0) at level 3, nothing changed. -/
theorem test_clts_level3 :
    next (step { lsA3 [0x0F, 0x06] with cr0 := 9 })
      (fun t => t.cr0 == 9 && t.eip == 0x1000 && faulted .gp (.code 0) t) = true := by decide

/-- V40: the defined bits of CR0 read 11001B and bit 31; the others are free. -/
theorem test_mov_from_cr0 :
    ∀ t, exec (.movR32Cr0 {} .eax) { lsA [] with cr0 := 0x80000019 } = .next t →
      t.reg .eax &&& 0x8000001F = 0x80000019 := by
  intro t h
  cases h
  exact (insertBits_and_mask cr0Defined _ 0x80000019).trans (by decide)

/-- V40. -/
theorem test_mov_from_cr2 :
    next (step { lsA [0x0F, 0x20, 0xD0] with cr2 := 0x0301008A })
      (fun t => t.reg .eax == 0x0301008A && t.eip == 0x1003) = true := by decide

/-- V40: CR3 written with zero low bits reads back whole. -/
theorem test_mov_from_cr3 :
    next (step { lsA [0x0F, 0x20, 0xDA] with cr3 := 0x10000 }) (fun t => t.reg .edx == 0x10000) = true := by
  decide

/-- V40: bits 30:5 are ignored, TS is set. -/
theorem test_mov_to_cr0 :
    next (step ((lsA [0x0F, 0x22, 0xC1]).setReg .ecx 0x7FFFFFE9))
      (fun t => t.cr0 == 9 && t.pgChanges == 0 && t.eip == 0x1003) = true := by decide

/-- V40: PG = 1 with PE = 0, a second change of PG, and the level after PE is set. -/
theorem test_mov_to_cr0_refused :
    refused (exec (.movCr0R32 {} .ecx) ((lsA []).setReg .ecx 0x80000000)) .pagingWithoutProtection = true ∧
      refused (exec (.movCr0R32 {} .ecx) ((lsB []).setReg .ecx 1)) .pgChangedTwice = true ∧
        refused
          (exec (.movCr0R32 {} .ecx)
            { (lsA []).setReg .ecx 1 with cr0 := 0, seg := { segsA with cs := flat 0x1233 5 0 } })
          .cplAfterPeSet = true := by decide

/-- V40. -/
theorem test_mov_to_cr2 :
    next (step ((lsA [0x0F, 0x22, 0xD0]).setReg .eax 0x0301008A)) (fun t => t.cr2 == 0x0301008A) = true := by
  decide

/-- An entry of the TLB for linear page 2 of LS-B (V17). -/
def entry2 : TlbEntry where
  v := true
  d := true
  us := true
  rw := true
  page := 2
  frame := 2

/-- V16: zero low bits are kept, and the TLB is emptied. -/
theorem test_mov_to_cr3 :
    next (step { (lsA [0x0F, 0x22, 0xDB]).setReg .ebx 0x10000 with tlb := [entry2] })
      (fun t => t.cr3 == 0x10000 && t.cr3LowZero && t.tlb.isEmpty) = true := by decide

/-- V40: other low bits are free afterwards. -/
theorem test_mov_to_cr3_low_bits :
    ∀ t, exec (.movCr3R32 {} .ebx) ((lsA []).setReg .ebx 0x10123) = .next t →
      t.cr3 &&& ~~~0xFFF#32 = 0x10000 ∧ t.cr3LowZero = false := by
  intro t h
  cases h
  exact ⟨(insertBits_and_not_mask 0xFFF 0x10123 _).trans (by decide), rfl⟩

/-- R230, R260, R367: at level 3 such a move raises GP(0), and GD guards DR4 and DR5 but no test register. -/
theorem test_reserved_moves_checks :
    next (step (lsA3 [0x0F, 0x20, 0xC8])) (faulted .gp (.code 0)) = true ∧
      next (step (lsA3 [0x0F, 0x23, 0xE8])) (faulted .gp (.code 0)) = true ∧
        next (step (lsA3 [0x0F, 0x24, 0xF0])) (fun t => faulted .gp (.code 0) t && t.eip == 0x1000) = true ∧
          next (step (lsA3 [0x0F, 0x26, 0xD8])) (faulted .gp (.code 0)) = true ∧
            next (step { lsA [0x0F, 0x21, 0xE0] with dr7 := 0x2000 })
                (fun t => !t.gd && faulted .db .none t) = true ∧
              refused (step { lsA [0x0F, 0x26, 0xF8] with dr7 := 0x2000 }) .tlbTestRegisters = true := by decide

/-- V31: moves of reserved and test registers are refused where the checks let them through. -/
theorem test_reserved_moves :
    refused (step (lsA [0x0F, 0x20, 0xC8])) .reservedControlRegister = true ∧
      refused (step (lsA [0x0F, 0x22, 0xE0])) .reservedControlRegister = true ∧
        refused (step (lsA [0x0F, 0x21, 0xE0])) .reservedDebugRegister = true ∧
          refused (step (lsA [0x0F, 0x23, 0xE8])) .reservedDebugRegister = true ∧
            refused (step (lsA [0x0F, 0x24, 0xF0])) .tlbTestRegisters = true ∧
              refused (step (lsA [0x0F, 0x26, 0xF8])) .tlbTestRegisters = true ∧
                refused (step (lsA [0x0F, 0x24, 0xC0])) .reservedTestRegister = true ∧
                  refused (step (lsA [0x0F, 0x26, 0xD8])) .reservedTestRegister = true := by decide

/-- V41: MP, EM and TS are copied, ET is not, PE stays. -/
theorem test_lmsw_register :
    next (step ((lsA [0x0F, 0x01, 0xF0]).setReg .eax 0xFFFF)) (fun t => t.cr0 == 0xF) = true ∧
      next (step ((lsA [0x0F, 0x01, 0xF0]).setReg .eax 0xFFF0)) (fun t => t.cr0 == 1) = true := by decide

/-- V41: the memory form. -/
theorem test_lmsw_memory :
    next
        (step
          { (lsA []).setReg .ebx 0x2000 with
            mem := cells 0x1000 [0x0F, 0x01, 0x33] ++ cells 0x2000 [6, 0] })
        (fun t => t.cr0 == 7 && t.eip == 0x1003) = true := by decide

/-- V41: the register form of SMSW with operand size 16 keeps the upper half. -/
theorem test_smsw_register :
    ∀ t, exec (.smsw { opsize := true } (.reg .eax)) ((lsA []).setReg .eax 0x12345678) = .next t →
      t.reg .eax &&& 0xFFFF001F = 0x12340001 := by
  intro t h
  cases h
  have bits : ∀ x : Word,
      insertBits 0xFFFF 0x12345678 (((insertBits 0x1F x 1).extractLsb' 0 16).zeroExtend 32) &&& 0xFFFF001F =
        0x12340001 := by
    intro x
    apply BitVec.eq_of_getLsbD_eq
    intro i hi
    simp only [BitVec.getLsbD_and, getLsbD_insertBits]
    interval_cases i <;> simp [insertBits]
  exact bits _

/-- V41: the window of bytes that a store may not touch. -/
theorem test_smsw_stream :
    refused (step ((lsA [0x0F, 0x01, 0x23]).setReg .ebx 0x1001)) .storeIntoStream = true ∧
      refused (step ((lsA [0x0F, 0x01, 0x23]).setReg .ebx 0x1011)) .storeIntoStream = true ∧
        next (step ((lsA [0x0F, 0x01, 0x23]).setReg .ebx 0x1013))
          (fun t => (t.byteAt 0x1013).isSome && (t.byteAt 0x1014).isSome && (t.byteAt 0x1015).isNone) =
            true := by decide

/-- P6: Coprocessor Not Available with EM = 1, refused with EM = 0. -/
theorem test_esc :
    next (step { lsA [0xD9, 0xE8] with cr0 := 5 }) (fun t => faulted .nm .none t && t.eip == 0x1000) = true ∧
      refused (step (lsA [0xD9, 0xE8])) .coprocessor = true := by decide

/-- V57, V40: the breakpoint address registers hold any value. -/
theorem test_breakpoint_addresses :
    next (step ((lsA [0x0F, 0x23, 0xC3]).setReg .ebx 5)) (fun t => t.dr0 == 5) = true ∧
      next (step ((lsA [0x0F, 0x23, 0xCB]).setReg .ebx 5)) (fun t => t.dr1 == 5) = true ∧
        next (step ((lsA [0x0F, 0x23, 0xD3]).setReg .ebx 5)) (fun t => t.dr2 == 5) = true ∧
          next (step ((lsA [0x0F, 0x23, 0xDB]).setReg .ebx 5)) (fun t => t.dr3 == 5) = true := by decide

/-- LS-A with four values in DR0 to DR3. -/
def lsADr (code : List Byte) : State := { lsA code with dr0 := 1, dr1 := 2, dr2 := 3, dr3 := 4 }

/-- V57: and they are read back. -/
theorem test_breakpoint_addresses_read :
    next (step (lsADr [0x0F, 0x21, 0xC0])) (fun t => t.reg .eax == 1) = true ∧
      next (step (lsADr [0x0F, 0x21, 0xC8])) (fun t => t.reg .eax == 2) = true ∧
        next (step (lsADr [0x0F, 0x21, 0xD0])) (fun t => t.reg .eax == 3) = true ∧
          next (step (lsADr [0x0F, 0x21, 0xD8])) (fun t => t.reg .eax == 4) = true := by decide

/-- V56: the seven bits of DR6 are written, the others are not stored. -/
theorem test_debug_status_write :
    next (step ((lsA [0x0F, 0x23, 0xF0]).setReg .eax 0xFFFFFFFF)) (fun t => t.dr6 == 0xE00F) = true ∧
      next (step { (lsA [0x0F, 0x23, 0xF0]).setReg .eax 0 with dr6 := 0xE00F }) (fun t => t.dr6 == 0) =
        true := by decide

/-- V56: DR6 with BS alone reads 1 at bit 14 and 0 at the other defined bits. -/
theorem test_debug_status_read :
    ∀ t, exec (.movR32Dr6 {} .eax) { lsA [] with dr6 := 0x4000 } = .next t →
      t.reg .eax &&& 0xE00F = 0x4000 ∧ t.dr6 = 0x4000 := by
  intro t h
  cases h
  exact ⟨(insertBits_and_mask dr6Defined _ 0x4000).trans (by decide), rfl⟩

/-- V51: what MOV DR7 stores. -/
theorem test_debug_control_write :
    next (step ((lsA [0x0F, 0x23, 0xF8]).setReg .eax 0x000D0202)) (fun t => t.dr7 == 0x000D0202) = true ∧
      next (step ((lsA [0x0F, 0x23, 0xF8]).setReg .eax 0x00080000)) (fun t => t.dr7 == 0x00080000) = true ∧
        next (step ((lsA [0x0F, 0x23, 0xF8]).setReg .eax 0x0000DC00)) (fun t => t.dr7 == 0) = true := by decide

/-- V51: what MOV DR7 refuses. -/
theorem test_debug_control_refused :
    refused (step ((lsA [0x0F, 0x23, 0xF8]).setReg .eax 0x00080002)) .undefinedLen = true ∧
      refused (step ((lsA [0x0F, 0x23, 0xF8]).setReg .eax 0x00020001)) .undefinedRw = true ∧
        refused (step ((lsA [0x0F, 0x23, 0xF8]).setReg .eax 0x00040001)) .executionLength = true := by decide

/-- V55: DR7 reads its defined bits. -/
theorem test_debug_control_read :
    ∀ t, exec (.movR32Dr7 {} .eax) { lsA [] with dr7 := 0x00F00308 } = .next t →
      t.reg .eax &&& 0xFFFF23FF = 0x00F00308 := by
  intro t h
  cases h
  exact (insertBits_and_mask dr7Defined _ 0x00F00308).trans (by decide)

/-- V55: GD guards the debug registers and no control register; GD is cleared, the move is not made. -/
theorem test_debug_guard :
    next (step { lsA [0x0F, 0x21, 0xF8] with dr7 := 0x2000 })
        (fun t => faulted .db .none t && t.dr7 == 0 && t.reg .eax == 0 && t.eip == 0x1000) = true ∧
      next (step { lsA [0x0F, 0x20, 0xD0] with dr7 := 0x2000 }) (fun t => t.trapped.isNone) = true ∧
        next (step { lsA3 [0x0F, 0x21, 0xF8] with dr7 := 0x2000 })
          (fun t => faulted .gp (.code 0) t && t.dr7 == 0x2000) = true := by decide

/-! ### Breakpoints, single step, LOCK and fetch limits (V31, V33, V52 to V54) -/

/-- V53: an execution breakpoint on the first byte, RF, and a breakpoint on the second byte. -/
theorem test_execution_breakpoint :
    next (step { lsA [0x0F, 0x06] with dr1 := 0x1000, dr7 := 4 })
        (fun t => faulted .db .none t && t.eip == 0x1000) = true ∧
      next (step { lsA [0x0F, 0x06] with dr1 := 0x1000, dr7 := 4, eflags := 0x10002 })
          (fun t => t.trapped.isNone && t.eip == 0x1002 && t.eflags == 2) = true ∧
        next (step { lsA [0x0F, 0x06] with dr1 := 0x1001, dr7 := 4 }) (fun t => t.trapped.isNone) = true := by
  decide

/-- V53: DR6.B1 is set whatever the free bits are. -/
theorem test_execution_breakpoint_status :
    ∀ t, instrBreakpoint 0x1000 { lsA [] with dr1 := 0x1000, dr7 := 4 } = .stop (.next t) →
      t.dr6.getLsbD 1 = true := by
  intro t h
  cases h
  have hit : ∀ x : Word, (0 ||| 2 ||| x : Word).getLsbD 1 = true := by
    intro x
    rw [BitVec.getLsbD_or]
    rfl
  exact hit _

/-- V54: single step, after the instruction; TF is clear in the trapped state. -/
theorem test_single_step :
    next (step { lsA [0x0F, 0x06] with cr0 := 9, eflags := 0x102 })
      (fun t =>
        decide (t.trapped = some { exc := .db, cls := .trap, err := .none }) && t.eip == 0x1002 &&
          t.cr0 == 1 && t.eflags == 2) = true := by decide

/-- V52: DR0 = 2001H, DR7 = 000D0202H: the accesses that hit. -/
theorem test_data_breakpoint :
    let hit := fun (k : AccessKind) (la : Word) (dr7 : Word) =>
      done (dataBreakpoints k la 2 { lsA [] with dr0 := 0x2001, dr7 := dr7 }) fun _ t => t.pendingDb == 1
    hit .write 0x2000 0x000D0202 = true ∧ hit .write 0x2003 0x000D0202 = true ∧
      hit .write 0x1FFF 0x000D0202 = true ∧ hit .write 0x2004 0x000D0202 = false ∧
        hit .write 0x1FFE 0x000D0202 = false ∧ hit .read 0x2000 0x000D0202 = false ∧
          hit .read 0x2000 0x000F0202 = true ∧ hit .write 0x2000 0x000D0200 = false := by decide

/-- P3: the store is made, then the trap is reported. -/
theorem test_data_breakpoint_trap :
    next
        (step
          { lsA [0x0F, 0x01, 0x25, 0x02, 0x20, 0x00, 0x00] with dr0 := 0x2001, dr7 := 0x000D0202 })
        (fun t =>
          decide (t.trapped = some { exc := .db, cls := .trap, err := .none }) && t.eip == 0x1007 &&
            (t.byteAt 0x2002).isSome) = true := by decide

/-- V31: LOCK raises invalid opcode. -/
theorem test_lock :
    next (step (lsA [0xF0, 0x0F, 0x20, 0xC0])) (fun t => faulted .ud .none t && t.eip == 0x1000) = true := by
  decide

/-- V33: the third byte is outside the limit 1001H and inside the limit 1002H. -/
theorem test_fetch_limit :
    next (step
        { lsA [0x0F, 0x20, 0xC0] with seg := { segsA with cs := { segsA.cs with limit := 0x1001 } } })
        (fun t => faulted .gp (.code 0) t && t.eip == 0x1000) = true ∧
      next (step
          { lsA [0x0F, 0x20, 0xC0] with seg := { segsA with cs := { segsA.cs with limit := 0x1002 } } })
        (fun t => t.trapped.isNone && t.eip == 0x1003) = true := by decide

/-- R96: a byte that nothing has written stops the machine. -/
theorem test_unwritten : ∃ f, step (lsA [0x0F]) = .fault f := ⟨.unwritten 0x1001, rfl⟩

/-- P8: the first instruction after reset is fetched at FFFFFFF0H, with 16-bit default sizes. -/
theorem test_first_instruction :
    next (step (State.reset.withFetchWord 24 0xE0010F)) (fun t => t.eip == 0xFFF3) = true := by decide

/-! ### Paging (V10 to V15) -/

/-- The state of V10. -/
def v10 : State :=
  { lsB [] with
    mem := cells 0x10030 (leBytes 4 0x20007) ++ cells 0x20040 (leBytes 4 0x345007)
    platform := { ram := [(0, 0x400000)], prefetchDepth := 16 } }

/-- V10: a read sets A in both entries, a write D too. -/
theorem test_walk :
    done (linTranslate 0x0301008A 2 { kind := .read, user := false } v10)
        (fun pas t =>
          decide (pas = [0x34508A, 0x34508B]) && holds t 0x10030 0x20027 && holds t 0x20040 0x345027 &&
            decide (t.tlb =
              [{ v := true, d := false, us := true, rw := true, page := 0x3010, frame := 0x345 }])) = true ∧
      done (linTranslate 0x0301008A 2 { kind := .write, user := false } v10)
        (fun _ t => holds t 0x10030 0x20027 && holds t 0x20040 0x345067) = true := by decide

/-- V13: page faults at level 0, by SMSW and LMSW. -/
theorem test_page_faults :
    next (exec (.smsw {} (.mem (.direct32 0x3000))) (lsB []))
        (fun t => faulted .pf (.page false true false) t && t.cr2 == 0x3000) = true ∧
      next (exec (.lmsw {} (.mem (.direct32 0x400000))) (lsB []))
          (fun t => faulted .pf (.page false false false) t && t.cr2 == 0x400000) = true ∧
        next (exec (.smsw {} (.mem (.direct32 0x2FFF))) (lsB []))
          (fun t =>
            faulted .pf (.page false true false) t && t.cr2 == 0x3000 && (t.byteAt 0x2FFF).isNone) = true := by
  decide

/-- V13: page faults at level 3. -/
theorem test_page_faults_user :
    next (exec (.smsw {} (.mem (.direct32 0x4000))) (lsB3 []))
        (fun t => faulted .pf (.page true true true) t && t.cr2 == 0x4000) = true ∧
      next (exec (.smsw {} (.mem (.direct32 0x5000))) (lsB3 []))
          (fun t => faulted .pf (.page true true true) t) = true ∧
        next (exec (.smsw {} (.mem (.direct32 0x2000))) (lsB3 []))
          (fun t => t.trapped.isNone && (t.byteAt 0x2000).isSome) = true := by decide

/-- V13: level 0 may write a read-only page; A and D are set. -/
theorem test_supervisor_write :
    next (exec (.smsw {} (.mem (.direct32 0x4000))) (lsB []))
        (fun t => holds t 0x11010 0x4065 && (t.byteAt 0x4001).isSome) = true ∧
      next (exec (.lmsw {} (.mem (.direct32 0x6010))) (lsB (cells 0x7010 [6, 0])))
        (fun t => holds t 0x11018 0x7027 && t.cr0 == 0x80000007) = true := by decide

/-- V14: a user fetch from a supervisor page. -/
theorem test_fetch_page_fault :
    next (step { lsB3 [] with mem := cells 0x10000 (leBytes 4 0x11027) ++ cells 0x11004 (leBytes 4 0x1021) })
      (fun t => faulted .pf (.page true false true) t && t.cr2 == 0x1000 && t.eip == 0x1000) = true := by decide

/-- V43: turning paging on, the code page identity-mapped or not. -/
theorem test_paging_on :
    let from_ := fun (pte : Word) =>
      { (lsB []).setReg .ecx 0x80000001 with
        cr0 := 1
        pgChanges := 0
        mem := cells 0x10000 (leBytes 4 0x11027) ++ cells 0x11004 (leBytes 4 pte.toNat) }
    next (exec (.movCr0R32 {} .ecx) (from_ 0x1025)) (fun t => t.cr0 == 0x80000001 && t.pgChanges == 1) =
        true ∧
      refused (exec (.movCr0R32 {} .ecx) (from_ 0x9025)) .codeMappingChanges = true ∧
        refused (exec (.movCr0R32 {} .ecx) (from_ 0)) .codeMappingChanges = true := by decide

/-! ### Segmentation (V20 to V27) -/

/-- The descriptor of eight bytes. -/
def desc (bs : List Byte) : BitVec 64 := BitVec.ofNat 64 (leNat bs)

/-- V20, rows 1 to 3. -/
theorem test_descriptor :
    let d1 := desc [0xFF, 0xFF, 0x00, 0x00, 0x00, 0x9A, 0xCF, 0x00]
    let d3 := desc [0x34, 0x12, 0x78, 0x56, 0x34, 0xF3, 0x40, 0x12]
    descBase d1 = 0 ∧ effLimit (descLimit d1) (descG d1) = 0xFFFFFFFF ∧ descType d1 = 5 ∧ descA d1 = false ∧
      descBase d3 = 0x12345678 ∧ effLimit (descLimit d3) (descG d3) = 0x1234 ∧ descDpl d3 = 3 ∧
        descType d3 = 1 ∧ descA d3 = true ∧ descD d3 = true ∧ descP d3 = true := by decide

/-- LS-A with the two descriptors of V24 in its GDT. -/
def lsAGdt : State :=
  { lsA [] with
    mem :=
      cells 0x808
        [0xFF, 0xFF, 0x00, 0x00, 0x00, 0x9A, 0xCF, 0x00, 0xFF, 0xFF, 0x00, 0x00, 0x00, 0x92, 0xCF, 0x00] }

/-- V23: the table limit, and no LDT. -/
theorem test_fetch_descriptor :
    done (fetchDescriptor 0x10 lsAGdt) (fun d _ => descType d == 1) = true ∧
      stopped (fetchDescriptor 0x1B lsAGdt) (faulted .gp (.code 0x18)) = true ∧
        stopped (fetchDescriptor 0x0C lsAGdt) (faulted .gp (.code 0x0C)) = true ∧
          stopped (fetchDescriptor 0x10 { lsAGdt with gdtr := { base := 0x800, limit := 0x16 } })
            (faulted .gp (.code 0x10)) = true := by decide

/-- V24: segment loads. -/
theorem test_load_segment :
    done (loadSeg .es 0x10 lsAGdt)
        (fun _ t => decide (t.seg.es = flat 0x10 1 0) && decide (t.byteAt 0x815 = some 0x93)) = true ∧
      done (loadSeg .ds 0x08 lsAGdt) (fun _ t => decide (t.byteAt 0x80D = some 0x9B)) = true ∧
        stopped (loadSeg .ss 0 lsAGdt) (faulted .gp (.code 0)) = true ∧
          stopped (loadSeg .ss 0x08 lsAGdt) (faulted .gp (.code 0x08)) = true ∧
            stopped (loadSeg .ds 0x10 { lsAGdt with seg := segsA3 }) (faulted .gp (.code 0x10)) = true ∧
              stopped (loadSeg .ds 0x13 lsAGdt) (faulted .gp (.code 0x10)) = true := by decide

/-- V25: LDTR loads. -/
theorem test_load_ldtr :
    let s :=
      { lsA [] with
        gdtr := { base := 0x800, limit := 0x1F }
        mem := cells 0x818 [0xFF, 0x00, 0x00, 0x30, 0x00, 0x82, 0x00, 0x00] }
    done (loadLdtr 0x18 s)
        (fun _ t => decide (t.ldtr = { sel := 0x18, base := 0x3000, limit := 0xFF, valid := true })) = true ∧
      stopped (loadLdtr 0x1C s) (faulted .gp (.code 0x1C)) = true ∧
        done (loadLdtr 0 s) (fun _ t => !t.ldtr.valid) = true := by decide

/-- A segment of some type, limit and D bit. -/
def limited (typ : BitVec 3) (limit : Word) (d : Bool) : Segment :=
  { flat 0x10 typ 0 with limit := limit, attr := { (flat 0x10 typ 0).attr with d := d } }

/-- V26: limits. -/
theorem test_in_limit :
    inLimit (limited 1 0xFFFF true) 0xFFFE 2 = true ∧ inLimit (limited 1 0xFFFF true) 0xFFFF 2 = false ∧
      inLimit (limited 1 0xFFFFFFFF true) 0xFFFFFFFF 2 = false ∧ inLimit (limited 1 0 true) 0 1 = true ∧
        inLimit (limited 3 0xFFF true) 0xFFF 1 = false ∧ inLimit (limited 3 0xFFF true) 0x1000 2 = true ∧
          inLimit (limited 3 0xFFF true) 0xFFFFFFFF 2 = false ∧
            inLimit (limited 3 0xFFF false) 0xFFFE 2 = true ∧
              inLimit (limited 3 0xFFF false) 0x10000 1 = false := by decide

/-- V27: segment translation. -/
theorem test_segment_translation :
    let s := fun (g : Segment) => { lsA [] with seg := { segsA with ds := g, ss := g } }
    done (segTranslate .ds 0x20 2 .read (s { limited 1 0xFFFF true with base := 0x100000 }))
        (fun la _ => la == 0x100020) = true ∧
      stopped (segTranslate .ds 0xFFFF 2 .write (s (limited 1 0xFFFF true))) (faulted .gp (.code 0)) = true ∧
        stopped (segTranslate .ss 0xFFFF 2 .write (s (limited 1 0xFFFF true))) (faulted .ss (.code 0)) =
            true ∧
          stopped (segTranslate .ds 0 2 .write (s (limited 0 0xFFFF true))) (faulted .gp (.code 0)) = true ∧
            stopped (segTranslate .ds 0 2 .read (s (limited 4 0xFFFF true))) (faulted .gp (.code 0)) =
                true ∧
              stopped (segTranslate .fs 0 2 .read (lsA [])) (faulted .gp (.code 0)) = true := by decide

/-- V30: effective addresses. -/
theorem test_effective_address :
    effectiveAddress (.base32 .ebx (.d8 0xFE)) ((lsA []).setReg .ebx 0x2002) = 0x2000 ∧
      effectiveAddress (.sib 2 .ecx .ebx .none) (((lsA []).setReg .ebx 0x2000).setReg .ecx 2) = 0x2008 ∧
        effectiveAddress (.base16 .bpSi (.d8 2)) (((lsA []).setReg .ebp 0xFFFF).setReg .esi 3) = 4 ∧
          operandSegment {} (.base16 .bpSi (.d8 2)) = .ss ∧ operandSegment {} (.sib 0 .esp .esp .none) = .ss ∧
            operandSegment { seg := some .es } (.base32 .ebp (.d8 0)) = .es := by decide

/-! ### Witnesses: for each obligation, states and operands that meet its hypotheses

Each theorem is named after its obligation. Where an obligation has clauses under different hypotheses, the
theorem is a conjunction with one part for each, at the boundary values of the clause. -/

/-- A test of the next state, as an existence. -/
theorem exists_next {o : Out} {p : State → Bool} (h : next o p = true) : ∃ t, o = .next t ∧ p t = true := by
  cases o with
  | next s => exact ⟨s, rfl, h⟩
  | fault f => cases h
  | refused r => cases h

/-- A test of the value of an operation, as an existence. -/
theorem exists_done {α : Type} {r : Res α} {p : α → State → Bool} (h : done r p = true) :
    ∃ a t, r = .ok a t ∧ p a t = true := by
  cases r with
  | ok a s => exact ⟨a, s, rfl, h⟩
  | stop o => cases h

/-- An operation answers a value and a state where a test says that it does. -/
theorem eq_of_done {α : Type} [DecidableEq α] {r : Res α} {a : α} {s : State}
    (h : done r (fun b t => decide (b = a ∧ t = s)) = true) : r = .ok a s := by
  cases r with
  | ok b t =>
    obtain ⟨rfl, rfl⟩ := of_decide_eq_true h
    rfl
  | stop o => cases h

/-- A test of the exception that an operation takes, as an existence. -/
theorem exists_stopped {α : Type} {r : Res α} {p : State → Bool} (h : stopped r p = true) :
    ∃ t, r = .stop (.next t) ∧ p t = true := by
  cases r with
  | ok a s => cases h
  | stop o =>
    obtain ⟨t, rfl, ht⟩ := exists_next h
    exact ⟨t, rfl, ht⟩

theorem witness_DecodeInvertsEncode :
    Instr.wf true (.smsw { seg := some .gs, opsize := true } (.mem (.sib 3 .edi .ebp (.d32 0xFFFFFFFF)))) =
        true ∧
      Instr.wf false (.lmsw {} (.mem (.base16 .bp (.d8 0x80)))) = true := by decide

theorem witness_DecodedInstructionIsWellFormed :
    decode false [0x67, 0x0F, 0x01, 0x24, 0x8B] =
      .instr (.smsw { addrsize := true } (.mem (.sib 2 .ecx .ebx .none))) := by decide

theorem witness_DecodeAsksForEveryByteOfTheInstruction :
    let i : Instr := .smsw { opsize := true } (.mem (.sibDirect 0 .esp 0x2000))
    i.wf true = true ∧ 0 < i.length ∧ 8 < i.length ∧ i.length = 9 := by decide

theorem witness_DecodeIsSettledByTwelveBytes :
    decode true [0x0F, 0x06] ≠ .more ∧
      12 ≤ ([0xF0, 0x66, 0x67, 0x26, 0x0F, 0x01, 0xA4, 0x8B, 1, 2, 3, 4] : List Byte).length := by decide

theorem witness_OpcodeRowsAreDisjoint :
    (0x24 : Byte) ∈ ([0x20, 0x21, 0x22, 0x23, 0x24, 0x26] : List Byte) ∧ field76 0xC0 = 3 ∧ field76 0xFF = 3 := by
  decide

theorem witness_DecodeAgreesWithOpcodeTable :
    decode true [0x26, 0x66, 0x0F, 0x24, 0xE7] =
      .instr (.movR32Tr4to5 { opsize := true, seg := some .es } 0 .edi) := by decide

theorem witness_LockPrefixIsInvalidOpcode :
    Instr.wf true (.esc { addrsize := true } 7) = true ∧ Instr.wf true (.clts {}) = true := by decide

theorem witness_PrefixOrderDoesNotMatter :
    let p : Prefixes := { opsize := true, addrsize := true, seg := some .fs }
    ([0x64, 0x67, 0x66] : List Byte).Perm p.bytes := by decide

/-- LS-A where the code segment ends with the instruction `MOV EAX, CR0` (V33). -/
def lsAEnd : State :=
  { lsA [0x0F, 0x20, 0xC0] with seg := { segsA with cs := { segsA.cs with limit := 0x1002 } } }

theorem witness_StepRunsThePlacedInstruction :
    (Running lsAEnd ∧ PlacedAtEip (.movR32Cr0 {} .eax) lsAEnd ∧ NoExecutionBreakpoint lsAEnd) ∧
      NoExecutionBreakpoint { lsA [] with dr1 := 0x1000, dr7 := 4, eflags := 0x10002 } := by
  refine ⟨⟨⟨rfl, rfl⟩, ⟨rfl, rfl, by decide, by decide⟩, .inl (by decide)⟩, .inr (by decide)⟩

/-- LS-B with a coprocessor opcode at CS:EIP, EM set, and A clear in the entries for its page. -/
def lsBUnmarked : State :=
  { lsB [] with
    cr0 := 0x80000005
    mem := cells 0x1000 [0xDB] ++ cells 0x10000 (leBytes 4 0x11007) ++ cells 0x11004 (leBytes 4 0x1005) }

/-- With paging off and on; with paging on the fetch sets A in both entries. -/
theorem witness_StepRunsTheFetchedInstruction :
    (Running lsAEnd ∧ lsAEnd.pg = false ∧
      fetchInstr maxInstrBytes [] lsAEnd = .ok (.movR32Cr0 {} .eax) lsAEnd) ∧
      lsBUnmarked.pg = true ∧
        ∃ i t, fetchInstr maxInstrBytes [] lsBUnmarked = .ok i t ∧
          (decide (i = Instr.esc {} 3) && holds t 0x10000 0x11027 && holds t 0x11004 0x1025) = true :=
  ⟨⟨⟨rfl, rfl⟩, rfl, rfl⟩, by decide,
    exists_done (p := fun i t => decide (i = Instr.esc {} 3) && holds t 0x10000 0x11027 && holds t 0x11004 0x1025)
      (by decide)⟩

theorem witness_CompletionAdvancesEip :
    let s := { lsA [] with eip := 0xFFFFFFFC }
    (s.trapped = none ∧ s.eip.toNat + 3 < 0x100000000) ∧
      (s.trapped = none ∧ 0x100000000 ≤ s.eip.toNat + 4) ∧
        (takeException .ud .fault .none s).trapped.isSome = true := by decide

theorem witness_DebugTrapsAreReportedAtTheEnd :
    (false = false ∧ (lsA []).pendingDb = 0) ∧ { lsA [] with pendingDb := 0x8000 }.pendingDb ≠ 0 := by decide

theorem witness_DebugExceptionRecordsItsCauses :
    ({ lsA [] with dr6 := 0x8000 }.dr6 ||| bdMask).getLsbD 15 = true ∧
      ({ lsA [] with dr6 := 0x8000 }.dr6 ||| bdMask).getLsbD 13 = true ∧ enabledIn (lsA []).dr7 3 = false := by
  decide

theorem witness_StepStopsWhereTheMachineDoesNotRun :
    (takeException .gp .fault (.code 0) (lsA [])).trapped =
        some { exc := .gp, cls := .fault, err := .code 0 } ∧
      (let s := { lsA [] with eflags := 0x20002 }
       s.trapped = none ∧ s.pe = true ∧ s.vm = true) := by decide

theorem witness_FirstByteChecksComeInOrder :
    let at_ := fun (limit : Word) =>
      { lsA [0x0F, 0x06] with
        dr1 := 0x1000, dr7 := 4, seg := { segsA with cs := { segsA.cs with limit := limit } } }
    (Running (at_ 0xFFF) ∧ (at_ 0xFFF).seg.cs.attr.valid = true ∧
        inLimit (at_ 0xFFF).seg.cs (at_ 0xFFF).eip 1 = false) ∧
      Running (at_ 0x1000) ∧ (at_ 0x1000).seg.cs.attr.valid = true ∧
        inLimit (at_ 0x1000).seg.cs (at_ 0x1000).eip 1 = true ∧
          executionHits (at_ 0x1000) ((at_ 0x1000).seg.cs.base + (at_ 0x1000).eip) ≠ 0 ∧
            (at_ 0x1000).rf = false := by
  refine ⟨⟨⟨rfl, rfl⟩, rfl, by decide⟩, ⟨rfl, rfl⟩, rfl, by decide, by decide, rfl⟩

theorem witness_LockedInstructionRaisesInvalidOpcode :
    let s := lsA [0xF0, 0x0F, 0x20, 0xC0]
    Running s ∧ Instr.wf s.seg.cs.attr.d (.movR32Cr0 {} .eax) = true ∧
      BytesAtEip (0xF0 :: encode (.movR32Cr0 {} .eax)) s ∧ NoExecutionBreakpoint s :=
  ⟨⟨rfl, rfl⟩, rfl, ⟨rfl, by decide, by decide⟩, .inl (by decide)⟩

/-- The hypotheses of every obligation on a privileged instruction: level 0, real mode, and level 3. -/
theorem witness_levels :
    MayRunPrivileged (lsA []) ∧ MayRunPrivileged State.reset ∧ (lsA3 []).unprivileged = true :=
  ⟨by unfold MayRunPrivileged; decide, by unfold MayRunPrivileged; decide, by decide⟩

theorem witness_ClearTaskSwitchedFlag :
    MayRunPrivileged { lsA [] with cr0 := 9 } ∧ { lsA3 [] with cr0 := 9 }.unprivileged = true :=
  ⟨by unfold MayRunPrivileged; decide, by decide⟩

theorem witness_MoveFromCr0ReadsTheDefinedBits :
    MayRunPrivileged { lsA [] with cr0 := 0x80000019 } ∧ (lsA3 []).unprivileged = true :=
  ⟨by unfold MayRunPrivileged; decide, by decide⟩

theorem witness_MovesFromCr2AndCr3ReadThem :
    let s := { lsA [] with cr2 := 0x0301008A, cr3 := 0x10000 }
    MayRunPrivileged s ∧ s.cr3LowZero = true ∧ (lsA3 []).unprivileged = true :=
  ⟨by unfold MayRunPrivileged; decide, by decide, by decide⟩

/-- LS-A ready to turn paging on with the tables of LS-B (V43): ECX holds the new CR0, and the window holds
two bytes. -/
def lsAPagingOn (pte : Word) : State :=
  { (lsB []).setReg .ecx 0x80000001 with
    cr0 := 1
    pgChanges := 0
    mem := cells 0x10000 (leBytes 4 0x11027) ++ cells 0x11004 (leBytes 4 pte.toNat)
    platform := { ram := [(0, 0x20000)], prefetchDepth := 2 } }

theorem witness_MoveToCr0WritesTheDefinedBits :
    (let s := (lsA []).setReg .ecx 9
     MayRunPrivileged s ∧ (s.reg .ecx).getLsbD 31 = s.pg ∧ s.pe = true) ∧
      (let s := { (lsA []).setReg .ecx 1 with cr0 := 0, seg := { segsA with cs := flat 0xF000 5 0 } }
       MayRunPrivileged s ∧ (s.reg .ecx).getLsbD 31 = s.pg ∧ s.pe = false ∧
         s.seg.cs.sel.extractLsb' 0 2 = 0) ∧
        (let s := lsAPagingOn 0x1025
         MayRunPrivileged s ∧ (s.reg .ecx).getLsbD 31 = true ∧ (s.reg .ecx).getLsbD 0 = true ∧
           s.pgChanges = 0 ∧ fetchWindowStable (movLength {}) s.pg s.cr3 true s.cr3 s = .ok true s) :=
  ⟨⟨by unfold MayRunPrivileged; decide, by decide, by decide⟩,
    ⟨by unfold MayRunPrivileged; decide, by decide, by decide, by decide⟩,
    ⟨by unfold MayRunPrivileged; decide, by decide, by decide, by decide, rfl⟩⟩

theorem witness_MoveToCr0Refusals :
    (let s := (lsA []).setReg .ecx 0x80000000
     MayRunPrivileged s ∧ (s.reg .ecx).getLsbD 31 = true ∧ (s.reg .ecx).getLsbD 0 = false) ∧
      (let s := (lsB []).setReg .ecx 1
       MayRunPrivileged s ∧ (s.reg .ecx).getLsbD 31 ≠ s.pg ∧ 1 ≤ s.pgChanges) ∧
        (let s := lsAPagingOn 0x9025
         MayRunPrivileged s ∧ (s.reg .ecx).getLsbD 31 ≠ s.pg ∧ (s.reg .ecx).getLsbD 0 = true ∧
           s.pgChanges = 0 ∧ fetchWindowStable (movLength {}) s.pg s.cr3 true s.cr3 s = .ok false s) ∧
          (let s := { (lsA []).setReg .ecx 1 with cr0 := 0, seg := { segsA with cs := flat 0x1233 5 0 } }
           MayRunPrivileged s ∧ (s.reg .ecx).getLsbD 31 = s.pg ∧ s.pe = false ∧
             (s.reg .ecx).getLsbD 0 = true ∧ s.seg.cs.sel.extractLsb' 0 2 ≠ 0) :=
  ⟨⟨by unfold MayRunPrivileged; decide, by decide, by decide⟩,
    ⟨by unfold MayRunPrivileged; decide, by decide, by decide⟩,
    ⟨by unfold MayRunPrivileged; decide, by decide, by decide, by decide, rfl⟩,
    ⟨by unfold MayRunPrivileged; decide, by decide, by decide, by decide, by decide⟩⟩

theorem witness_MoveToCr2StoresTheValue :
    MayRunPrivileged ((lsA []).setReg .eax 0x0301008A) ∧ (lsA3 []).unprivileged = true :=
  ⟨by unfold MayRunPrivileged; decide, by decide⟩

theorem witness_MoveToCr3EmptiesTheTlb :
    (let s := (lsA []).setReg .ebx 0x10000
     MayRunPrivileged s ∧ s.pg = false ∧ s.reg .ebx &&& 0xFFF = 0) ∧
      (let s := { (lsAPagingOn 0x1025).setReg .ebx 0x10FFF with cr0 := 0x80000001 }
       MayRunPrivileged s ∧ s.reg .ebx &&& 0xFFF ≠ 0 ∧
         fetchWindowStable (movLength {}) true s.cr3 true (s.reg .ebx) s = .ok true s) ∧
        (let s :=
          { (lsAPagingOn 0x1025).setReg .ebx 0x12000 with
            cr0 := 0x80000001
            mem := (lsAPagingOn 0x1025).mem ++ cells 0x12000 (leBytes 4 0) }
         MayRunPrivileged s ∧ s.pg = true ∧
           fetchWindowStable (movLength {}) true s.cr3 true (s.reg .ebx) s = .ok false s) :=
  ⟨⟨by unfold MayRunPrivileged; decide, by decide, by decide⟩,
    ⟨by unfold MayRunPrivileged; decide, by decide, rfl⟩,
    ⟨by unfold MayRunPrivileged; decide, by decide, rfl⟩⟩

/-- LS-A with the word 0006H at 2000H. -/
def lsAWord : State := { (lsA []).setReg .ebx 0x2000 with mem := cells 0x2000 [6, 0] }

theorem witness_LoadMswWritesFourBits :
    (MayRunPrivileged lsAWord ∧ lsAWord.pe = true ∧ lsAWord.pg = false ∧
      readRm16 {} (.mem (.base32 .ebx .none)) lsAWord = .ok 6 lsAWord) ∧
      (let s := { (lsA []).setReg .eax 1 with cr0 := 0, seg := { segsA with cs := flat 0xF000 5 0 } }
       MayRunPrivileged s ∧ s.pe = false ∧ readRm16 {} (.reg .eax) s = .ok 1 s ∧
         s.seg.cs.sel.extractLsb' 0 2 = 0) :=
  ⟨⟨by unfold MayRunPrivileged; decide, by decide, by decide, rfl⟩,
    ⟨by unfold MayRunPrivileged; decide, by decide, rfl, by decide⟩⟩

/-- The hypotheses are met with paging on too. -/
theorem witness_LoadMswWritesFourBits_paging :
    let s := (lsB (cells 0x2000 [6, 0])).setReg .ebx 0x2000
    MayRunPrivileged s ∧ s.pe = true ∧ s.pg = true ∧
      ∃ src u, readRm16 {} (.mem (.base32 .ebx .none)) s = .ok src u ∧ (src == 6) = true :=
  ⟨by unfold MayRunPrivileged; decide, by decide, by decide, exists_done (by decide)⟩

/-- The operand of the witnesses that follow: DS:[EBX]. -/
def atEbx : MemOperand := .base32 .ebx .none

/-- LS-A with the word at the end of DS. -/
def lsAEndOfData : State := { lsAWord with seg := { segsA with ds := limited 1 0x2001 true } }

theorem witness_LoadMswReadsItsOperandBytes :
    (Reg.ebp ≠ .esp ∧ Prefixes.seg {} = none ∧ Prefixes.seg { seg := some .es } = some .es) ∧
      MayRunPrivileged lsAEndOfData ∧
      OperandInside (operandSegment {} atEbx) (effectiveAddress atEbx lsAEndOfData) 2 .read lsAEndOfData ∧
        lsAEndOfData.pg = false ∧ NoBreakpoints lsAEndOfData ∧
          lsAEndOfData.byteAt (operandLinear {} atEbx lsAEndOfData).toNat = some 6 ∧
            lsAEndOfData.byteAt (operandLinear {} atEbx lsAEndOfData + 1).toNat = some 0 :=
  ⟨by decide, by unfold MayRunPrivileged; decide, by unfold OperandInside; decide, by decide,
    by unfold NoBreakpoints; decide, by decide, by decide⟩

theorem witness_StoreMswToRegister :
    (lsA []).seg.cs.attr.d = Prefixes.opsize { opsize := true } ∧
      State.reset.seg.cs.attr.d = Prefixes.opsize {} := by decide

theorem witness_StoreMswToMemory :
    OperandInside (operandSegment {} atEbx) (effectiveAddress atEbx lsAEndOfData) 2 .write lsAEndOfData ∧
      dataBreakpoints .write (operandLinear {} atEbx lsAEndOfData) 2 lsAEndOfData.afterDraw =
          .ok () lsAEndOfData.afterDraw ∧
        linTranslate (operandLinear {} atEbx lsAEndOfData) 2 (operandAccess .write lsAEndOfData)
              lsAEndOfData.afterDraw =
            .ok [0x2000, 0x2001] lsAEndOfData.afterDraw ∧
          intoStream (groupLength {} (.mem atEbx)) (operandLinear {} atEbx lsAEndOfData) 2 lsAEndOfData =
              false ∧
            (∀ pa ∈ ([0x2000, 0x2001] : List Word), decide (lsAEndOfData.isRam pa.toNat = true) = true) ∧
              lsAEndOfData.pg = false :=
  ⟨by unfold OperandInside; decide, rfl, rfl, by decide, List.all_eq_true.1 (by decide), by decide⟩

/-- A store that crosses from page 00004 into page 00005 of LS-B meets the hypotheses with paging on. -/
theorem witness_StoreMswToMemory_paging :
    ∃ pas u, linTranslate 0x4FFF 2 { kind := .write, user := false } (lsB []).afterDraw = .ok pas u ∧
      (decide (pas = [0x4FFF, 0x5000]) && pas.all fun pa => (lsB []).isRam pa.toNat) = true :=
  exists_done (by decide)

theorem witness_MemoryOperandsThatStop :
    State.reset.pe = false ∧
      (MayRunPrivileged (lsA []) ∧ (lsA []).pe = true ∧
        ((lsA []).seg.get (operandSegment { seg := some .fs } atEbx)).attr.valid = false) ∧
        (let s := (lsAEndOfData).setReg .ebx 0x2001
         MayRunPrivileged s ∧ s.pe = true ∧ (s.seg.get (operandSegment {} atEbx)).attr.valid = true ∧
           inLimit (s.seg.get (operandSegment {} atEbx)) (effectiveAddress atEbx s) 2 = false) ∧
          (let s := { lsA [] with seg := { segsA with ds := flat 0x10 0 0 } }
           kindAllowed (s.seg.get (operandSegment {} atEbx)).attr.typ .write = false ∧
             (s.seg.get (operandSegment {} atEbx)).attr.valid = true) ∧
            (let s := (lsA []).setReg .ebx 0x1012
             OperandInside (operandSegment {} atEbx) (effectiveAddress atEbx s) 2 .write s ∧
               dataBreakpoints .write (operandLinear {} atEbx s) 2 s.afterDraw = .ok () s.afterDraw ∧
                 linTranslate (operandLinear {} atEbx s) 2 (operandAccess .write s) s.afterDraw =
                     .ok [0x1012, 0x1013] s.afterDraw ∧
                   intoStream (groupLength {} (.mem atEbx)) (operandLinear {} atEbx s) 2 s = true) ∧
              (let s := { (lsA []).setReg .eax 1 with cr0 := 0, seg := { segsA with cs := flat 0x1233 5 0 } }
               s.pe = false ∧ (s.reg .eax).getLsbD 0 = true ∧ s.seg.cs.sel.extractLsb' 0 2 ≠ 0) :=
  ⟨by decide, ⟨by unfold MayRunPrivileged; decide, by decide, by decide⟩,
    ⟨by unfold MayRunPrivileged; decide, by decide, by decide, by decide⟩, ⟨by decide, by decide⟩,
    ⟨by unfold OperandInside; decide, rfl, rfl, by decide⟩, ⟨by decide, by decide, by decide⟩⟩

/-- The hypotheses of every obligation on a debug register move: allowed, level 3, and guarded. -/
theorem witness_debug_access :
    MayAccessDebug (lsADr []) ∧ { lsA3 [] with dr7 := 0x2000 }.unprivileged = true ∧
      (let s := { lsA [] with dr7 := 0x2000 }
       s.unprivileged = false ∧ s.gd = true) :=
  ⟨by unfold MayAccessDebug; decide, by decide, by decide⟩

theorem witness_MovesFromBreakpointAddressRegisters : MayAccessDebug (lsADr []) := by
  unfold MayAccessDebug; decide

theorem witness_MovesFromDebugStatusAndControl : MayAccessDebug { lsA [] with dr6 := 0x4000, dr7 := 0x00F00308 } := by
  unfold MayAccessDebug; decide

theorem witness_MovesToBreakpointAddressRegisters : MayAccessDebug ((lsADr []).setReg .ebx 5) := by
  unfold MayAccessDebug; decide

theorem witness_MoveToDebugStatus : MayAccessDebug ((lsA []).setReg .eax 0xFFFFFFFF) := by
  unfold MayAccessDebug; decide

theorem witness_MoveToDebugControl :
    (MayAccessDebug ((lsA []).setReg .eax 0x000D0202) ∧
      ∀ i, enabledIn (((lsA []).setReg .eax 0x000D0202).reg .eax) i = true →
        lenIn (((lsA []).setReg .eax 0x000D0202).reg .eax) i ≠ 2 ∧
          rwIn (((lsA []).setReg .eax 0x000D0202).reg .eax) i ≠ 2 ∧
            (rwIn (((lsA []).setReg .eax 0x000D0202).reg .eax) i = 0 →
              lenIn (((lsA []).setReg .eax 0x000D0202).reg .eax) i = 0)) ∧
      MayAccessDebug ((lsA []).setReg .eax 0x00040001) ∧
        (∃ i, enabledIn 0x00040001 i = true ∧ rwIn 0x00040001 i = 0 ∧ lenIn 0x00040001 i ≠ 0) ∧
          (∃ i, enabledIn 0x80000080 i = true ∧ lenIn 0x80000080 i = 2) ∧
            ∃ i, enabledIn 0x20000080 i = true ∧ rwIn 0x20000080 i = 2 :=
  ⟨⟨by unfold MayAccessDebug; decide, by decide⟩, by unfold MayAccessDebug; decide, by decide, by decide,
    by decide⟩

theorem witness_CoprocessorOpcodeNeedsEmulation :
    { lsA [] with cr0 := 5 }.em = true ∧ (lsA []).em = false := by decide

theorem witness_ReservedRegisterMovesAreRefused :
    (lsA3 []).unprivileged = true ∧ MayRunPrivileged (lsA []) ∧ MayAccessDebug (lsA []) ∧
      (let s := { lsA [] with dr7 := 0x2000 }
       s.unprivileged = false ∧ s.gd = true) :=
  ⟨by decide, by unfold MayRunPrivileged; decide, by unfold MayAccessDebug; decide, by decide⟩

theorem witness_PagePermissionTable :
    Access.user { kind := .write, user := false } = false ∧ Access.user { kind := .write, user := true } = true ∧
      Access.kind { kind := .fetch, user := true } ≠ .write := by decide

theorem witness_PagingOffIsTheIdentity : (lsA []).pg = false ∧ 8 ≤ 8 := by decide

/-- V10, after A of the directory entry is written. -/
def v10A : State :=
  { v10 with mem := cells 0x10030 (leBytes 4 0x20027) ++ cells 0x20040 (leBytes 4 0x345007) }

theorem witness_SuccessfulWalkMarksAndFills :
    physRead32 (pdeAddr v10.cr3 0x0301008A) v10 = .ok 0x20007 v10 ∧ entryP 0x20007 = true ∧
      setPdeA (pdeAddr v10.cr3 0x0301008A) 0x20007 v10 = .ok () v10A ∧
        physRead32 (pteAddr 0x20007 0x0301008A) v10A = .ok 0x345007 v10A ∧ entryP 0x345007 = true ∧
          permitted (entryUs 0x20007 && entryUs 0x345007) (entryRw 0x20007 && entryRw 0x345007)
              { kind := .write, user := true } =
            true ∧
            pteAddr 0x20007 0x0301008A ≠ pdeAddr v10.cr3 0x0301008A :=
  ⟨rfl, rfl, rfl, rfl, rfl, by decide, by decide⟩

theorem witness_PageFaultsAreRaisedAndRecorded :
    ((lsB []).pg = true ∧ tlbFind (lsB []).tlb (pageOf 0x400000) = none ∧
      physRead32 (pdeAddr (lsB []).cr3 0x400000) (lsB []) = .ok 0 (lsB []) ∧ entryP 0 = false) ∧
      (physRead32 (pdeAddr (lsB []).cr3 0x3000) (lsB []) = .ok 0x11027 (lsB []) ∧ entryP 0x11027 = true ∧
        setPdeA (pdeAddr (lsB []).cr3 0x3000) 0x11027 (lsB []) = .ok () (lsB []) ∧
          physRead32 (pteAddr 0x11027 0x3000) (lsB []) = .ok 0 (lsB []) ∧ entryP 0 = false) ∧
        (physRead32 (pteAddr 0x11027 0x4000) (lsB []) = .ok 0x4025 (lsB []) ∧
          permitted (entryUs 0x11027 && entryUs 0x4025) (entryRw 0x11027 && entryRw 0x4025)
              { kind := .write, user := true } =
            false) ∧
          ∃ t, pageTranslate 0x3000 { kind := .read, user := false } (lsB []) = .stop (.next t) ∧
            faulted .pf (.page false false false) t = true :=
  ⟨⟨rfl, rfl, rfl, rfl⟩, ⟨rfl, rfl, rfl, rfl, rfl⟩, ⟨rfl, by decide⟩, exists_stopped (by decide)⟩

/-- The TLB entry of linear page 00004 of LS-B. -/
def entry4 : TlbEntry := { entry2 with d := false, rw := false, page := 4, frame := 4 }

theorem witness_TlbHitAgreesWithTheTables :
    let s := { lsB [] with tlb := [entry2, entry4] }
    s.pg = true ∧ tlbFind s.tlb (pageOf 0x4FFF) = some entry4 ∧ EntryMatchesTables entry4 0x4FFF s ∧
      permitted entry4.us entry4.rw { kind := .write, user := false } = true ∧
        permitted entry4.us entry4.rw { kind := .write, user := true } = false :=
  ⟨rfl, rfl, ⟨0x11027, 0x4025, rfl, rfl, rfl, rfl, rfl, rfl, rfl, rfl⟩, by decide, by decide⟩

theorem witness_SplitStoreFaultsBeforeItWrites :
    let s := (lsB []).setReg .ebx 0x2FFF
    OperandInside (operandSegment {} atEbx) (effectiveAddress atEbx s) 2 .write s ∧
      dataBreakpoints .write (operandLinear {} atEbx s) 2 s.afterDraw = .ok () s.afterDraw ∧
        offsetOf (operandLinear {} atEbx s) = 0xFFF ∧
          ∃ frame u,
            pageTranslate (operandLinear {} atEbx s) (operandAccess .write s) s.afterDraw = .ok frame u ∧
              stopped (pageTranslate (operandLinear {} atEbx s + 1) (operandAccess .write s) u)
                  (faulted .pf (.page false true false)) =
                true :=
  ⟨by unfold OperandInside; decide, rfl, by decide, exists_done (by decide)⟩

theorem witness_SegmentAccessesStayInside :
    (∃ la t, segTranslate .ds 0x2000 2 .write lsAEndOfData = .ok la t ∧ (la == 0x2000) = true) ∧
      (∃ la t,
        segTranslate .ds 0xFFFE 2 .read { lsA [] with seg := { segsA with ds := limited 3 0xFFF false } } =
            .ok la t ∧
          (la == 0xFFFE) = true) ∧
        ∃ la t, segTranslate .cs 0xFFFF 1 .fetch State.reset = .ok la t ∧ (la == 0xFFFFFFFF) = true :=
  ⟨exists_done (by decide), exists_done (by decide), exists_done (by decide)⟩

theorem witness_DescriptorsAreFetchedAndLaidOut :
    (selTi 0x0C = true ∧ lsAGdt.ldtr.valid = false) ∧
      (selTi 0x1B = false ∧ lsAGdt.gdtr.limit.toNat < (0x1B : Half).toNat / 8 * 8 + 7) ∧
        ((0x10 : Half).toNat / 8 * 8 + 7 = lsAGdt.gdtr.limit.toNat ∧ lsAGdt.pg = false ∧
          ∀ j, j < 8 →
            lsAGdt.byteAt (lsAGdt.gdtr.base + BitVec.ofNat 32 ((0x10 : Half).toNat / 8 * 8 + j)).toNat =
              ([0xFF, 0xFF, 0x00, 0x00, 0x00, 0x92, 0xCF, 0x00] : List Byte)[j]?) ∧
          (let s := { lsA [] with ldtr := { sel := 0x18, base := 0x3000, limit := 0xFF, valid := true } }
           selTi 0x0F = true ∧ s.ldtr.valid = true) := by decide

/-- The descriptor at 818H, of some access byte, in a table that reaches it. -/
def lsALdt (access : Byte) : State :=
  { lsA [] with
    gdtr := { base := 0x800, limit := 0x1F }
    mem := cells 0x818 [0xFF, 0x00, 0x00, 0x30, 0x00, access, 0x00, 0x00] }

theorem witness_SegmentLoadKeepsItsPrivilegeRules :
    ((∃ a t, loadSeg .fs 3 lsAGdt = .ok a t ∧ selNull 3 = true) ∧
      (∃ a t, loadSeg .ss 0x10 lsAGdt = .ok a t ∧ selNull 0x10 = false) ∧
        ∃ a t, loadSeg .ds 0x08 lsAGdt = .ok a t ∧ selNull 0x08 = false) ∧
      (selNull 3 = true ∧ selNull 4 = false ∧ selTi 4 = true ∧ selNull 0x18 = false ∧ selTi 0x18 = false) ∧
        (∃ d u, fetchDescriptor 0x18 (lsALdt 0x92) = .ok d u ∧ descS d = true) ∧
          (∃ d u, fetchDescriptor 0x18 (lsALdt 0x89) = .ok d u ∧ decide (descSystemType d ≠ 2) = true) ∧
            (∃ d u, fetchDescriptor 0x18 (lsALdt 0x02) = .ok d u ∧
              (!descS d && descSystemType d == 2 && !descP d) = true) ∧
              ∃ d u, fetchDescriptor 0x18 (lsALdt 0x82) = .ok d u ∧
                (!descS d && descSystemType d == 2 && descP d) = true :=
  ⟨⟨exists_done (p := fun _ _ => selNull 3) (by decide),
    (exists_done (p := fun _ _ => !selNull 0x10) (by decide)).imp fun _ h => h.imp fun _ h => ⟨h.1, by decide⟩,
    (exists_done (p := fun _ _ => !selNull 0x08) (by decide)).imp fun _ h => h.imp fun _ h => ⟨h.1, by decide⟩⟩,
    by decide, exists_done (p := fun d _ => descS d) (by decide),
    exists_done (p := fun d _ => decide (descSystemType d ≠ 2)) (by decide),
    exists_done (p := fun d _ => !descS d && descSystemType d == 2 && !descP d) (by decide),
    exists_done (p := fun d _ => !descS d && descSystemType d == 2 && descP d) (by decide)⟩

theorem witness_DataBreakpointsAreRecorded :
    let at_ := fun (dr7 : Word) => { lsA [] with dr0 := 0x2001, dr7 := dr7 }
    (BreakpointsDefined (at_ 0x000D0202) ∧ (at_ 0x000D0202).exact = true ∧
      DataBreakpointHit (at_ 0x000D0202) .write 0x1FFF 2 0 ∧
        ¬DataBreakpointHit (at_ 0x000D0202) .write 0x1FFE 2 0) ∧
      (BreakpointsDefined (at_ 0x000D0002) ∧ (at_ 0x000D0002).exact = false ∧
        DataBreakpointHit (at_ 0x000D0002) .write 0x2003 2 0) ∧
        BreakpointsDefined (lsA []) ∧ (lsA []).exact = false ∧
          ∀ i, ¬DataBreakpointHit (lsA []) .read 0x2000 2 i := by
  have field : bpField 3 0x2001 = some (span 0x2000 4) := rfl
  have touch : ∀ la n, (∃ a ∈ span la n, a ∈ span 0x2000 4) ↔
      (span la n).any (fun a => (span 0x2000 4).contains a) = true := by
    intro la n
    simp [List.any_eq_true]
  have off : ∀ i, enabledIn (lsA []).dr7 i = false := by decide
  refine ⟨⟨by unfold BreakpointsDefined; decide, by decide,
      ⟨by decide, .inl ⟨by decide, rfl⟩, _, field, (touch _ _).2 (by decide)⟩, ?_⟩,
    ⟨by unfold BreakpointsDefined; decide, by decide,
      ⟨by decide, .inl ⟨by decide, rfl⟩, _, field, (touch _ _).2 (by decide)⟩⟩,
    by unfold BreakpointsDefined; decide, by decide, fun i h => ?_⟩
  · rintro ⟨_, _, f, hf, ha⟩
    obtain rfl : span 0x2000 4 = f := Option.some.inj (field.symm.trans hf)
    have := (touch _ _).1 ha
    revert this
    decide
  · have := h.1
    rw [off i] at this
    cases this

theorem witness_PhysicalMemoryReadsAndWrites :
    (∃ a t, physWrite32 0x1FFFC 0x12345678 (lsA []) = .ok a t ∧ holds t 0x1FFFC 0x12345678 = true) ∧
      ((lsAWord).byteAt (0x2000 : Word).toNat = some 6 ∧ (lsAWord).byteAt ((0x2000 : Word) + 1).toNat = some 0) ∧
        ((lsA []).isRam (0x1FFFF : Word).toNat = true ∧ (lsA []).byteAt (0x1FFFF : Word).toNat = none) ∧
          (lsA []).isRam (0x20000 : Word).toNat = false :=
  ⟨exists_done (by decide), by decide, by decide, by decide⟩

theorem witness_ResetStateMeetsTheInvariant :
    let r :=
      { ResetParams.suggested with
        pe := true, pg := true, dr6 := 0x8000, dr7 := 1, tlb := [entry2, entry4]
        mem := cells 0xFFFFFFF0 [0xEA] }
    memoryWf r.mem = true ∧ r.tlb.length ≤ tlbCapacity ∧ (r.tlb.map TlbEntry.page).Nodup ∧
      r.dr6 &&& ~~~dr6Defined = 0 ∧ r.dr7 &&& ~~~dr7Defined = 0 ∧ (r.pg = true → r.pe = true) := by decide

/-- LS-A with CLTS at CS:EIP meets the invariant. -/
theorem witness_StepKeepsTheInvariant :
    Inv (lsA [0x0F, 0x06]) ∧ ∃ t, step (lsA [0x0F, 0x06]) = .next t ∧ t.trapped.isNone = true :=
  ⟨⟨by decide, by decide, by decide, by decide, by decide, by decide, by decide, by decide, by decide⟩,
    exists_next (by decide)⟩

/-- LS-B meets the invariant, with entries in the TLB. -/
theorem witness_StepKeepsTheInvariant_paging : Inv { lsB [] with tlb := [entry2, entry4] } :=
  ⟨by decide, by decide, by decide, by decide, by decide, by decide, by decide, by decide, by decide⟩

theorem witness_StepKeepsSegmentsAndTableRegisters :
    ∃ t, step (lsA [0x0F, 0x06]) = .next t ∧ (t.pe == (lsA []).pe) = true := exists_next (by decide)

theorem witness_UnprivilegedStepsAreConfined :
    (lsA3 []).unprivileged = true ∧
      (∃ t, step (lsA3 [0x0F, 0x01, 0xE0]) = .next t ∧ t.trapped.isNone = true) ∧
        ∃ t, step (lsA3 [0x0F, 0x06]) = .next t ∧ faulted .gp (.code 0) t = true :=
  ⟨by decide, exists_next (by decide), exists_next (by decide)⟩

theorem witness_FaultsArePrecise :
    (∃ t, step (lsA3 [0x0F, 0x06]) = .next t ∧
      decide (t.trapped = some { exc := .gp, cls := .fault, err := .code 0 }) = true) ∧
      ∃ t, step { lsA [0x0F, 0x06] with eflags := 0x102 } = .next t ∧
        decide (t.trapped = some { exc := .db, cls := .trap, err := .none }) = true :=
  ⟨exists_next (by decide), exists_next (by decide)⟩

theorem witness_ControlBitsHaveTheirWriters :
    (∃ t, step { lsAPagingOn 0x1025 with
        mem := cells 0x1000 [0x0F, 0x22, 0xC1] ++ (lsAPagingOn 0x1025).mem } = .next t ∧ (t.pg != false) = true) ∧
      (∃ t, step ((lsA [0x0F, 0x22, 0xC1]).setReg .ecx 0) = .next t ∧ (!t.pe) = true) ∧
        (∃ t, step { (lsA [0x0F, 0x01, 0xF0]).setReg .eax 1 with cr0 := 0 } = .next t ∧ t.pe = true) ∧
          ∃ t, step { lsA [0x0F, 0x06] with cr0 := 9 } = .next t ∧ (!t.ts) = true :=
  ⟨exists_next (by decide), exists_next (by decide), exists_next (by decide), exists_next (by decide)⟩

theorem witness_DebugRegistersHaveTheirWriters :
    (∃ t, step { (lsA [0x0F, 0x23, 0xF0]).setReg .eax 0 with dr6 := 0x8000 } = .next t ∧
      (!t.dr6.getLsbD 15) = true) ∧
      (∃ t, step ((lsA [0x0F, 0x23, 0xF8]).setReg .eax 0x100) = .next t ∧ t.dr7.getLsbD 8 = true) ∧
        (∃ t, step ((lsA [0x0F, 0x23, 0xF8]).setReg .eax 0x2000) = .next t ∧ t.gd = true) ∧
          ∃ t, step { lsA [0x0F, 0x23, 0xF8] with dr7 := 0x2000 } = .next t ∧ (!t.gd) = true :=
  ⟨exists_next (by decide), exists_next (by decide), exists_next (by decide), exists_next (by decide)⟩

theorem witness_PageFaultAddressHasItsWriters :
    (∃ t, step ((lsA [0x0F, 0x22, 0xD0]).setReg .eax 5) = .next t ∧ (t.cr2 != 0) = true) ∧
      ∃ t, step { lsB [] with eip := 0x3000 } = .next t ∧ (t.cr2 == 0x3000) = true :=
  ⟨exists_next (by decide), exists_next (by decide)⟩

/-- A byte stored by SMSW, and bytes marked in the page tables by a step that raises an exception. -/
theorem witness_OnlySmswStores :
    ((lsA []).pg = false ∧ (∃ t, step (lsA [0x0F, 0x06]) = .next t ∧ (t.byteAt 0x2000).isNone = true) ∧
      ∃ t, step ((lsA [0x0F, 0x01, 0x23]).setReg .ebx 0x2000) = .next t ∧
        (t.byteAt 0x2000).isSome = true) ∧
      ∃ t, step lsBUnmarked = .next t ∧ (faulted .nm .none t && holds t 0x11004 0x1025) = true :=
  ⟨⟨by decide, exists_next (by decide), exists_next (by decide)⟩, exists_next (by decide)⟩

end Sys2Proof.Tests
end

section
/-!
Exceptions and the end of a step: what taking an exception records, and where EIP goes.
-/

namespace Sys2Proof.Machine

/-- EFLAGS.TF is 0 after an exception (R12). -/
theorem takeException_tf (x : Exc) (c : ExcClass) (e : ErrorCode) (s : State) :
    (takeException x c e s).tf = false := by
  simp [State.tf, tfMask]

/-- Taking an exception changes no flag but TF (R12). -/
theorem takeException_eflags_but_tf (x : Exc) (c : ExcClass) (e : ErrorCode) (s : State) :
    (takeException x c e s).eflags &&& ~~~tfMask = s.eflags &&& ~~~tfMask := by
  rw [takeException_eflags, BitVec.and_assoc, BitVec.and_self]

/-- Settles O14: the record is the definition of `takeException`, the flags are the two lemmas above. -/
theorem takingAnExceptionRecordsIt : Obligations.TakingAnExceptionRecordsIt := by
  intro x c e s
  exact ⟨rfl, rfl, takeException_tf x c e s, takeException_eflags_but_tf x c e s, rfl⟩

/-- After a rule that raised no exception the instruction is completed. -/
theorem afterRule_of_running (tf : Bool) (len : Nat) {s : State} (h : s.trapped = none) :
    afterRule tf len (.next s) = complete tf len s := by
  simp [afterRule, h]

/-- After a rule that raised an exception the step ends (R350). -/
theorem afterRule_of_trapped (tf : Bool) (len : Nat) {s : State} (h : s.trapped.isSome = true) :
    afterRule tf len (.next s) = .next s := by
  simp [afterRule, h]

/-- Completion below 2^32 (R16). -/
theorem complete_of_lt (tf : Bool) {len : Nat} {s : State} (h : s.eip.toNat + len < 0x100000000) :
    complete tf len s = .next (reportTraps tf { s with eip := s.eip + BitVec.ofNat 32 len }) :=
  if_neg (Nat.not_le.2 h)

/-- Completion that would reach 2^32 (R22). -/
theorem complete_of_ge (tf : Bool) {len : Nat} {s : State} (h : 0x100000000 ≤ s.eip.toNat + len) :
    complete tf len s = .refused .eipWraps :=
  if_pos h

/-- Settles O12: the case split is that of `afterRule`, then that of `complete`. -/
theorem completionAdvancesEip : Obligations.CompletionAdvancesEip := by
  intro tf len s
  refine ⟨fun running below => ?_, fun running wraps => ?_, fun trapped => ?_⟩
  · rw [afterRule_of_running tf len running, complete_of_lt tf below]
  · rw [afterRule_of_running tf len running, complete_of_ge tf wraps]
  · exact afterRule_of_trapped tf len trapped

end Sys2Proof.Machine
end

section
/-!
What no step changes: the segment registers, the table registers, TR, TR6, TR7 and the memory map. Each
operation that a step is made of keeps them; `step_cases` puts the operations together.
-/

namespace Sys2Proof.Machine

/-- The registers that no instruction in scope writes, and the memory map. -/
def State.fixed (s : State) :
    Segments × TableReg × TableReg × LdtReg × TaskReg × Word × Word × Platform :=
  (s.seg, s.gdtr, s.idtr, s.ldtr, s.tr, s.tr6, s.tr7, s.platform)

@[simp] theorem takeException_fixed (x : Exc) (c : ExcClass) (e : ErrorCode) (s : State) :
    (takeException x c e s).fixed = s.fixed := rfl

@[simp] theorem debugException_fixed (c : ExcClass) (b : Word) (s : State) :
    (debugException c b s).fixed = s.fixed := rfl

@[simp] theorem undefineStatus_fixed (s : State) : s.undefineStatus.fixed = s.fixed := rfl

@[simp] theorem writeCr3_fixed (v : Word) (s : State) : (writeCr3 v s).fixed = s.fixed :=
  (congrArg State.fixed (writeCr3_frame v s)).trans rfl

@[simp] theorem storeMswReg_fixed (p : Prefixes) (r : Reg) (s : State) :
    (storeMswReg p r s).fixed = s.fixed := by
  unfold storeMswReg
  dsimp only
  split <;> rfl

@[simp] theorem reportTraps_fixed (tf : Bool) (s : State) : (reportTraps tf s).fixed = s.fixed := by
  unfold reportTraps
  dsimp only
  split_ifs <;> rfl

theorem Walked.fixed {s t : State} (h : Walked s t) : t.fixed = s.fixed :=
  (congrArg State.fixed h.eq).trans rfl

theorem Touched.fixed {s t : State} (h : Touched s t) : t.fixed = s.fixed :=
  (congrArg State.fixed h.eq).trans rfl

theorem MemoryTrap.fixed {s t : State} (h : MemoryTrap s t) : t.fixed = s.fixed := by
  obtain ⟨x, e, u, hu, ⟨-, la, rfl⟩ | ⟨-, rfl⟩⟩ := h.ex
  · exact hu.fixed
  · exact hu.fixed

theorem FetchTrap.fixed {s t : State} (h : FetchTrap s t) : t.fixed = s.fixed := by
  cases h with
  | memory trap => exact trap.fixed
  | lock u walked eq => rw [eq, takeException_fixed, walked.fixed]
  | breakpoint b u bits walked eq => rw [eq, debugException_fixed, walked.fixed]

theorem ExecTrap.fixed {s t : State} (h : ExecTrap s t) : t.fixed = s.fixed := by
  cases h with
  | gp _ eq => rw [eq, takeException_fixed]
  | gd _ _ eq => rw [eq, debugException_fixed]
  | nm _ eq => rw [eq, takeException_fixed]
  | memory trap => exact trap.fixed

theorem ToReg.fixed {rm : Reg} {s t : State} (h : ToReg rm s t) : t.fixed = s.fixed := by
  obtain ⟨v, u, rfl | rfl, rfl⟩ := h <;> rfl

/-- A completed instruction writes none of the fixed registers. -/
theorem Done.fixed {i : Instr} {s t : State} (h : Done i s t) : t.fixed = s.fixed := by
  cases i with
  | movR32Cr0 | movR32Cr2 | movR32Cr3 | movR32Dr0 | movR32Dr1 | movR32Dr2 | movR32Dr3 | movR32Dr6
  | movR32Dr7 => exact ToReg.fixed h
  | movCr0R32 =>
    obtain ⟨-, -, rfl⟩ := h
    rfl
  | clts | movCr2R32 | movDr0R32 | movDr1R32 | movDr2R32 | movDr3R32 | movDr6R32 | movDr7R32 =>
    obtain rfl := h
    rfl
  | movCr3R32 =>
    obtain rfl := h
    rw [undefineStatus_fixed, writeCr3_fixed]
  | smsw p o =>
    cases o with
    | reg r =>
      obtain rfl := h
      exact storeMswReg_fixed p r s
    | mem m => exact Touched.fixed h
  | lmsw p o =>
    obtain ⟨src, u, touched, rfl⟩ := h
    exact touched.fixed
  | _ => exact h.elim

theorem exec_fixed {i : Instr} {s t : State} (h : exec i s = .next t) : t.fixed = s.fixed := by
  rcases exec_cases h with trap | ⟨-, done⟩
  · exact trap.fixed
  · exact done.fixed

/-- A step keeps the fixed registers, however it ends. -/
theorem step_fixed {s t : State} (h : step s = .next t) : t.fixed = s.fixed := by
  obtain ⟨-, trap | ⟨i, u, -, walked, v, ran, ⟨-, rfl⟩ | ⟨-, -, rfl⟩⟩⟩ := step_cases h
  · exact trap.fixed
  · rw [exec_fixed ran, walked.fixed]
  · calc (reportTraps s.tf { v with eip := v.eip + BitVec.ofNat 32 i.length }).fixed
      _ = v.fixed := reportTraps_fixed _ _
      _ = u.fixed := exec_fixed ran
      _ = s.fixed := walked.fixed

/-- The privilege level rests on PE and the CS selector alone (R86). -/
theorem cpl_congr {s t : State} (pe : t.pe = s.pe) (seg : t.seg = s.seg) : t.cpl = s.cpl := by
  unfold State.cpl
  rw [pe, seg]

/-- Settles O54, from `step_fixed`. -/
theorem stepKeepsSegmentsAndTableRegisters : Obligations.StepKeepsSegmentsAndTableRegisters := by
  intro s t h
  have fixed := step_fixed h
  simp only [State.fixed, Prod.mk.injEq] at fixed
  obtain ⟨seg, gdtr, idtr, ldtr, tr, tr6, tr7, platform⟩ := fixed
  exact ⟨seg, gdtr, idtr, ldtr, tr, tr6, tr7, platform, fun pe => cpl_congr pe seg⟩

end Sys2Proof.Machine
end

section
/-!
SMSW to a register: the five defined bits in the low half, the upper half by the operand size.
-/

namespace Sys2Proof.Machine

/-- The low half of a register after a 16-bit write is the value written (R9). -/
theorem getLsbD_setReg16_low (s : State) (r : Reg) (v : Half) {i : Nat} (h : i < 16) :
    ((s.setReg16 r v).reg r).getLsbD i = v.getLsbD i := by
  have mask : ∀ i < 16, (0xFFFF : Word).getLsbD i = true := by decide
  have word : i < 32 := by omega
  rw [State.setReg16, reg_setReg_same, getLsbD_insertBits, if_pos (mask i h)]
  simp [word]

/-- The upper half of a register keeps its value in a 16-bit write (R9, R21). -/
theorem getLsbD_setReg16_high (s : State) (r : Reg) (v : Half) {i : Nat} (h : i < 16) :
    ((s.setReg16 r v).reg r).getLsbD (16 + i) = (s.reg r).getLsbD (16 + i) := by
  have mask : ∀ i < 16, (0xFFFF#32).getLsbD (16 + i) = false := by decide
  simp [State.setReg16, getLsbD_insertBits, mask i h]

/-- A 16-bit write leaves every other register alone. -/
theorem reg_setReg16_other (s : State) {r q : Reg} (v : Half) (h : q ≠ r) :
    (s.setReg16 r v).reg q = s.reg q :=
  reg_setReg_other s _ h

/-- The defined bits of the machine status word are those of CR0 (R239). -/
theorem getLsbD_readMsw (s : State) {i : Nat} (h : i < 5) : (readMsw s).getLsbD i = s.cr0.getLsbD i := by
  have mask : ∀ i < 5, (0x1F#32).getLsbD i = true := by decide
  have word : i < 16 := by omega
  simp [readMsw, getLsbD_insertBits, mask i h, word]

/-- SMSW to a register stores the defined bits whatever the operand size is (R239). -/
theorem getLsbD_storeMswReg_low (p : Prefixes) (r : Reg) (s : State) {i : Nat} (h : i < 5) :
    ((storeMswReg p r s).reg r).getLsbD i = s.cr0.getLsbD i := by
  have low : ((s.afterDraw.setReg16 r (readMsw s)).reg r).getLsbD i = s.cr0.getLsbD i := by
    rw [getLsbD_setReg16_low _ _ _ (by omega), getLsbD_readMsw s h]
  have mask : ∀ i < 5, (0xFFFF0000 : Word).getLsbD i = false := by decide
  unfold storeMswReg
  dsimp only
  split
  · change ((State.setReg _ r _).reg r).getLsbD i = _
    rw [reg_setReg_same, getLsbD_insertBits, mask i h]
    exact low
  · exact low

/-- With operand size 16 SMSW keeps the upper half of the register (R239). -/
theorem getLsbD_storeMswReg_high (p : Prefixes) (r : Reg) (s : State) {i : Nat} (h : i < 16)
    (size : operandSize32 p s = false) :
    ((storeMswReg p r s).reg r).getLsbD (16 + i) = (s.reg r).getLsbD (16 + i) := by
  simp only [storeMswReg, size, Bool.false_eq_true, if_false]
  exact getLsbD_setReg16_high s.afterDraw r (readMsw s) h

/-- SMSW to a register writes no other register. -/
theorem storeMswReg_reg_other (p : Prefixes) (s : State) {r q : Reg} (h : q ≠ r) :
    (storeMswReg p r s).reg q = s.reg q := by
  unfold storeMswReg
  dsimp only
  split
  · exact (reg_setReg_other _ _ h).trans (reg_setReg16_other _ _ h)
  · exact reg_setReg16_other _ _ h

/-- SMSW to a register writes nothing but registers. -/
theorem storeMswReg_frame (p : Prefixes) (r : Reg) (s : State) :
    storeMswReg p r s =
      { s with regs := (storeMswReg p r s).regs, draws := (storeMswReg p r s).draws } := by
  unfold storeMswReg
  dsimp only
  split <;> rfl

/-- Settles O28, from the bits of `storeMswReg` and its frame. -/
theorem storeMswToRegister : Obligations.StoreMswToRegister := by
  intro p r s
  refine ⟨storeMswReg p r s, rfl, ?_, fun size => ?_, fun q hq => storeMswReg_reg_other p s hq, ?_,
    storeMswReg_frame p r s⟩
  · apply BitVec.eq_of_getLsbD_eq
    intro i hi
    simp [getLsbD_storeMswReg_low p r s hi]
  · have size16 : operandSize32 p s = false := by simp [operandSize32, size]
    apply BitVec.eq_of_getLsbD_eq
    intro i hi
    simp [getLsbD_storeMswReg_high p r s hi size16]
  · rw [storeMswReg_frame]
    exact byteAt_congr rfl rfl

end Sys2Proof.Machine
end

section
/-!
Linear accesses: the addresses that translation answers with paging off, those of a two-byte operand, and
the bytes of memory after a store.
-/

namespace Sys2Proof.Machine

theorem offsetOf_toNat (la : Word) : (offsetOf la).toNat = la.toNat % 4096 := by
  simp [offsetOf, BitVec.extractLsb'_toNat]

theorem pageOf_toNat (la : Word) : (pageOf la).toNat = la.toNat / 4096 := by
  have := la.isLt
  simp only [pageOf, BitVec.extractLsb'_toNat, Nat.shiftRight_eq_div_pow]
  omega

theorem physOf_toNat (frame : BitVec 20) (la : Word) :
    (physOf frame la).toNat = frame.toNat * 4096 + la.toNat % 4096 := by
  rw [physOf, BitVec.toNat_append, ← Nat.shiftLeft_add_eq_or_of_lt (offsetOf la).isLt, Nat.shiftLeft_eq,
    offsetOf_toNat]

/-- A page and the offset in it make the address again (R132, R151). -/
theorem physOf_pageOf (la : Word) : physOf (pageOf la) la = la := by
  apply BitVec.eq_of_toNat_eq
  rw [physOf_toNat, pageOf_toNat]
  omega

/-- Translation keeps the offset in the page (R151). -/
theorem offsetOf_physOf (frame : BitVec 20) (la : Word) : offsetOf (physOf frame la) = offsetOf la := by
  apply BitVec.eq_of_toNat_eq
  rw [offsetOf_toNat, offsetOf_toNat, physOf_toNat]
  omega

/-- An address within the page of `la` has the page of `la`. -/
theorem pageOf_add {la : Word} {j : Nat} (h : (offsetOf la).toNat + j < 4096) :
    pageOf (la + BitVec.ofNat 32 j) = pageOf la := by
  apply BitVec.eq_of_toNat_eq
  rw [offsetOf_toNat] at h
  rw [pageOf_toNat, pageOf_toNat, BitVec.toNat_add, BitVec.toNat_ofNat]
  omega

/-- The addresses of a piece within one page are its own translation under that page's number. -/
theorem map_physOf_span {la : Word} {n : Nat} (h : (offsetOf la).toNat + n ≤ 4096) :
    (span la n).map (physOf (pageOf la)) = span la n := by
  refine (List.map_congr_left fun a ha => ?_).trans (List.map_id _)
  obtain ⟨j, hj, rfl⟩ := List.mem_map.1 ha
  have inPage : (offsetOf la).toNat + j < 4096 := by have := List.mem_range.1 hj; omega
  rw [← pageOf_add inPage, physOf_pageOf, id]

/-- Consecutive spans make one span (R8). -/
theorem span_append (la : Word) (m n : Nat) :
    span la m ++ span (la + BitVec.ofNat 32 m) n = span la (m + n) := by
  simp [span, List.range_add, BitVec.add_assoc, BitVec.ofNat_add]

/-- The offset of the byte after a page's last one is 0. -/
theorem offsetOf_next_page {la : Word} {k : Nat} (h : (offsetOf la).toNat + k = 4096) :
    (offsetOf (la + BitVec.ofNat 32 k)).toNat = 0 := by
  rw [offsetOf_toNat] at h ⊢
  rw [BitVec.toNat_add, BitVec.toNat_ofNat]
  omega

/-- With paging off the physical addresses of an access are its linear addresses (R103). -/
theorem linTranslate_paging_off {s : State} (la : Word) {n : Nat} (acc : Access) (pg : s.pg = false)
    (hn : n ≤ 4096) : linTranslate la n acc s = .ok (span la n) s := by
  have hoff := (offsetOf la).isLt
  have first : (offsetOf la).toNat + firstPiece la n ≤ 4096 := by unfold firstPiece; omega
  simp only [linTranslate, pageTranslate_paging_off _ _ pg, bind_ok, map_physOf_span first]
  split
  · rename_i whole
    rw [whole]
  · rename_i splits
    have boundary : (offsetOf la).toNat + firstPiece la n = 4096 := by unfold firstPiece at splits ⊢; omega
    have second := offsetOf_next_page boundary
    rw [map_physOf_span (by omega), span_append, Nat.add_sub_cancel' (by unfold firstPiece; omega)]

theorem span_two (la : Word) : span la 2 = [la, la + 1] := by
  simp [span, List.range, List.range.loop]

/-- The translation of two bytes puts each at its own offset, in one page or in two (R140). -/
theorem linTranslate_two_frames {la : Word} {acc : Access} {s t : State} {pas : List Word}
    (h : linTranslate la 2 acc s = .ok pas t) : ∃ f g, pas = [physOf f la, physOf g (la + 1)] := by
  obtain ⟨f, u, -, h⟩ := bind_eq_ok h
  have pieces : firstPiece la 2 = 1 ∨ firstPiece la 2 = 2 := by
    have := (offsetOf la).isLt
    unfold firstPiece
    omega
  rcases pieces with one | two
  · simp only [one] at h
    rw [if_neg (by decide)] at h
    obtain ⟨g, v, -, h⟩ := bind_eq_ok h
    cases h
    exact ⟨f, g, by simp [span, List.range, List.range.loop]⟩
  · simp only [two, if_true] at h
    cases h
    exact ⟨f, f, by rw [span_two]; rfl⟩

/-- The two bytes of an operand never share a physical address: their offsets differ. -/
theorem physOf_ne_physOf_succ (f g : BitVec 20) (la : Word) : physOf f la ≠ physOf g (la + 1) := by
  intro same
  have offsets : offsetOf la = offsetOf (la + 1) := by
    rw [← offsetOf_physOf f, same, offsetOf_physOf]
  have := congrArg BitVec.toNat offsets
  rw [offsetOf_toNat, offsetOf_toNat, BitVec.toNat_add, show (1 : Word).toNat = 1 from rfl] at this
  omega

/-- Segment translation of an operand that passes its tests (R128). -/
theorem segTranslate_of_inside {r : SegReg} {off : Word} {n : Nat} {k : AccessKind} {s : State}
    (h : OperandInside r off n k s) : segTranslate r off n k s = .ok ((s.seg.get r).base + off) s := by
  obtain ⟨pe, valid, kind, limit⟩ := h
  simp [segTranslate, pe, valid, kind, limit]

/-- A store to addresses that are memory is made. -/
theorem physWriteBytes_of_isRam {l : List (Word × Byte)} {s : State}
    (h : ∀ x ∈ l, s.isRam x.1.toNat = true) : ∃ t, physWriteBytes l s = .ok () t := by
  induction l generalizing s with
  | nil => exact ⟨s, rfl⟩
  | cons x l ih =>
    have head : s.isRam x.1.toNat = true := h x List.mem_cons_self
    have tail : ∀ y ∈ l, State.isRam { s with mem := insertCell s.mem x.1.toNat x.2 } y.1.toNat = true :=
      fun y hy => h y (List.mem_cons_of_mem _ hy)
    simpa [physWriteBytes, physWriteByte, head] using ih tail

/-- The bytes of memory after two are stored. -/
theorem byteAt_physWriteBytes_two {lo hi : Word} {b0 b1 : Byte} {s t : State} {u : Unit}
    (h : physWriteBytes [(lo, b0), (hi, b1)] s = .ok u t) (a : Nat) :
    t.byteAt a = if a = hi.toNat then some b1 else if a = lo.toNat then some b0 else s.byteAt a := by
  obtain ⟨_, v, first, h⟩ := bind_eq_ok h
  obtain ⟨_, w, second, h⟩ := bind_eq_ok h
  cases h
  rw [byteAt_write second, byteAt_write first]

end Sys2Proof.Machine
end

section
/-!
SMSW to memory: its two bytes at the translated addresses of its operand.
-/

namespace Sys2Proof.Machine

/-- A data breakpoint check changes nothing that says on whose behalf an access is made. -/
theorem operandAccess_of_dataBreakpoints {k k' : AccessKind} {la : Word} {n : Nat} {s t : State} {u : Unit}
    (h : dataBreakpoints k la n s = .ok u t) : operandAccess k' t = operandAccess k' s := by
  rw [dataBreakpoints_ok h]
  rfl

/-- Where the window is and how long it is decide whether a store meets the instruction stream (R183). -/
theorem intoStream_congr {s t : State} (len : Nat) (la : Word) (n : Nat) (seg : t.seg = s.seg)
    (eip : t.eip = s.eip) (platform : t.platform = s.platform) :
    intoStream len la n t = intoStream len la n s := by
  unfold intoStream
  rw [seg, eip, platform]

/-- A store whose operand passes every test is made at the translated addresses (R11, R140). -/
theorem memWrite_eq {len : Nat} {r : SegReg} {off : Word} {bs : List Byte} {s w u : State} {pas : List Word}
    (inside : OperandInside r off bs.length .write s)
    (checked : dataBreakpoints .write ((s.seg.get r).base + off) bs.length s = .ok () w)
    (translated : linTranslate ((s.seg.get r).base + off) bs.length (operandAccess .write s) w = .ok pas u)
    (outside : intoStream len ((s.seg.get r).base + off) bs.length s = false) :
    memWrite len r off bs s = physWriteBytes (pas.zip bs) u := by
  have walked : Walked w u := by
    have := linTranslate_quiet ((s.seg.get r).base + off) bs.length (operandAccess .write s) w
    rw [translated] at this
    exact this
  have stream : intoStream len ((s.seg.get r).base + off) bs.length u = false := by
    rw [← outside]
    apply intoStream_congr <;> rw [walked.eq, dataBreakpoints_ok checked]
  simp [memWrite, segTranslate_of_inside inside, checked, operandAccess_of_dataBreakpoints checked,
    translated, stream]

/-- What the checks and the translation of an operand's store leave: marks in the page tables, the TLB, the
count of free values and the pending conditions. -/
theorem translated_for_write {la : Word} {n : Nat} {s w u : State} {acc : Access} {pas : List Word}
    (hn : 1 ≤ n) (checked : dataBreakpoints .write la n s.afterDraw = .ok () w)
    (translated : linTranslate la n acc w = .ok pas u) :
    u = { s with mem := u.mem, tlb := u.tlb, draws := u.draws, pendingDb := w.pendingDb } ∧
      TablesMarked (· ∈ span la n) true s u := by
  have weq := dataBreakpoints_ok checked
  have quiet := linTranslate_quiet la n acc w
  have marks : (linTranslate la n acc w).Marks (· ∈ span la n) true w :=
    linTranslate_marks (fun _ ha => ha) hn (fun _ => rfl)
  rw [translated] at quiet marks
  have before : Marks (· ∈ span la n) true s w := by
    rw [weq]
    exact .of_same rfl rfl rfl rfl
  refine ⟨?_, (before.trans marks).marked⟩
  rw [Walked.eq quiet, weq]
  rfl

/-- With paging off the checks and the translation of an operand's store leave memory as it is. -/
theorem translated_for_write_paging_off {la : Word} {n : Nat} {s w u : State} {acc : Access}
    {pas : List Word} (pg : s.pg = false) (hn : n ≤ 4096)
    (checked : dataBreakpoints .write la n s.afterDraw = .ok () w)
    (translated : linTranslate la n acc w = .ok pas u) : SameMemory s u := by
  have weq := dataBreakpoints_ok checked
  have wpg : w.pg = false := by rw [weq]; exact pg
  rw [linTranslate_paging_off la acc wpg hn] at translated
  cases translated
  rw [weq]
  exact byteAt_congr rfl rfl

/-- SMSW to memory whose operand passes every test completes with the store of its two bytes (R239). -/
theorem exec_smsw_mem {p : Prefixes} {m : MemOperand} {s w u : State} {pas : List Word}
    (inside : OperandInside (operandSegment p m) (effectiveAddress m s) 2 .write s)
    (checked : dataBreakpoints .write (operandLinear p m s) 2 s.afterDraw = .ok () w)
    (translated : linTranslate (operandLinear p m s) 2 (operandAccess .write s) w = .ok pas u)
    (outside : intoStream (groupLength p (.mem m)) (operandLinear p m s) 2 s = false)
    (ram : ∀ pa ∈ pas, u.isRam pa.toNat = true) :
    ∃ t, exec (.smsw p (.mem m)) s = .next t ∧
      physWriteBytes (pas.zip (leBytes 2 (readMsw s).toNat)) u = .ok () t := by
  obtain ⟨t, stored⟩ : ∃ t, physWriteBytes (pas.zip (leBytes 2 (readMsw s).toNat)) u = .ok () t :=
    physWriteBytes_of_isRam fun x hx => ram _ (List.of_mem_zip hx).1
  refine ⟨t, ?_, stored⟩
  change (memWrite _ _ _ (leBytes 2 (readMsw s).toNat) s.afterDraw).thenOut _ = _
  rw [memWrite_eq (s := s.afterDraw) inside checked translated outside, stored, thenOut_ok]

/-- Settles O29: the store is `exec_smsw_mem`, its addresses are `linTranslate_two_frames`, and what came
before it is `translated_for_write`. -/
theorem storeMswToMemory : Obligations.StoreMswToMemory := by
  intro p m s w u pas inside checked translated outside ram
  obtain ⟨ueq, marked⟩ := translated_for_write (by decide) checked translated
  have ramU : ∀ pa ∈ pas, u.isRam pa.toNat = true := by
    rw [ueq]
    exact ram
  obtain ⟨t, run, stored⟩ := exec_smsw_mem inside checked translated outside ramU
  obtain ⟨f, g, rfl⟩ := linTranslate_two_frames translated
  have apart := physOf_ne_physOf_succ f g (operandLinear p m s)
  generalize physOf f (operandLinear p m s) = lo, physOf g (operandLinear p m s + 1) = hi at *
  have bytes := byteAt_physWriteBytes_two stored
  have others : SameMemoryBut [lo, hi] u t := by
    intro a ha
    rw [bytes, if_neg (Ne.symm (ha hi (by simp))), if_neg (Ne.symm (ha lo (by simp)))]
  have low : t.byteAt lo.toNat = some (BitVec.ofNat 8 (readMsw s).toNat) := by
    rw [bytes, if_neg fun h => apart (BitVec.eq_of_toNat_eq h), if_pos rfl]
  have frame : t = { s with mem := t.mem, tlb := t.tlb, draws := t.draws, pendingDb := w.pendingDb } := by
    rw [(physWriteBytes_ok stored).1, ueq]
  refine ⟨t, lo, hi, run, rfl, ⟨_, low, ?_⟩, ⟨_, by rw [bytes, if_pos rfl]⟩, others, frame, marked,
    fun pg a ha => ?_⟩
  · apply BitVec.eq_of_getLsbD_eq
    intro i hi
    have byte : i < 8 := by omega
    simp [hi, byte, getLsbD_readMsw s hi]
  · rw [others a ha]
    exact translated_for_write_paging_off pg (by decide) checked translated a

end Sys2Proof.Machine
end

section
/-!
The offset of a memory operand as a number, and LMSW from memory with paging off.
-/

namespace Sys2Proof.Machine

/-- A 16-bit base is the sum of its registers' low halves, that is of its registers, modulo 2^16 (R207). -/
theorem base16Value_toNat (b : Base16) (s : State) :
    ((base16Value b s).toNat : Int) =
      ((base16Registers b).map fun r => ((s.reg r).toNat : Int)).sum % 65536 := by
  cases b <;> simp [base16Value, base16Registers, State.reg16]

/-- A sign-extended byte as a number (R207, R205). -/
theorem toNat_signExtend (w : Nat) (d : Byte) : ((d.signExtend w).toNat : Int) = d.toInt % (2 ^ w : Nat) := by
  rw [BitVec.signExtend, BitVec.toNat_ofInt, Int.toNat_of_nonneg (Int.emod_nonneg _ (by positivity))]

theorem disp16Value_toNat (d : Disp16) : ((disp16Value d).toNat : Int) = disp16Number d % 65536 := by
  cases d with
  | none => rfl
  | d8 d => exact toNat_signExtend 16 d
  | d16 d =>
    have := d.isLt
    simp only [disp16Value, disp16Number]
    omega

theorem disp32Value_toNat (d : Disp32) : ((disp32Value d).toNat : Int) = disp32Number d % 4294967296 := by
  cases d with
  | none => rfl
  | d8 d => exact toNat_signExtend 32 d
  | d32 d =>
    have := d.isLt
    simp only [disp32Value, disp32Number]
    omega

/-- The index is shifted, that is multiplied by 1, 2, 4 or 8 (R206). -/
theorem indexValue_toNat (sc : BitVec 2) (ix : Reg) (s : State) :
    ((indexValue sc ix s).toNat : Int) = indexNumber sc ix s % 4294967296 := by
  unfold indexValue indexNumber
  split
  · rfl
  · simp [BitVec.toNat_shiftLeft, Nat.shiftLeft_eq]

theorem effectiveAddress_base16_toNat (s : State) (b : Base16) (d : Disp16) :
    ((effectiveAddress (.base16 b d) s).toNat : Int) =
      (((base16Registers b).map fun r => ((s.reg r).toNat : Int)).sum + disp16Number d) % 65536 := by
  have base := base16Value_toNat b s
  have disp := disp16Value_toNat d
  simp only [effectiveAddress, BitVec.truncate_eq_setWidth, BitVec.toNat_setWidth, BitVec.toNat_add]
  omega

theorem effectiveAddress_base32_toNat (s : State) (b : Reg) (d : Disp32) :
    ((effectiveAddress (.base32 b d) s).toNat : Int) =
      ((s.reg b).toNat + disp32Number d) % 4294967296 := by
  have disp := disp32Value_toNat d
  simp only [effectiveAddress, BitVec.toNat_add]
  omega

theorem effectiveAddress_sib_toNat (s : State) (sc : BitVec 2) (ix b : Reg) (d : Disp32) :
    ((effectiveAddress (.sib sc ix b d) s).toNat : Int) =
      ((s.reg b).toNat + indexNumber sc ix s + disp32Number d) % 4294967296 := by
  have index := indexValue_toNat sc ix s
  have disp := disp32Value_toNat d
  simp only [effectiveAddress, BitVec.toNat_add]
  omega

theorem effectiveAddress_sibDirect_toNat (s : State) (sc : BitVec 2) (ix : Reg) (d : Word) :
    ((effectiveAddress (.sibDirect sc ix d) s).toNat : Int) =
      (d.toNat + indexNumber sc ix s) % 4294967296 := by
  have index := indexValue_toNat sc ix s
  simp only [effectiveAddress, BitVec.toNat_add]
  omega

/-- The default segment of a 16-bit base is SS where BP is in it (R207). -/
theorem base16Segment_eq (b : Base16) :
    base16Segment b = if .ebp ∈ base16Registers b then .ss else .ds := by
  cases b <;> rfl

/-- A read of an operand that passes its tests, with paging off and no breakpoint enabled, answers the bytes
at its linear addresses and changes nothing (R11). -/
theorem memRead_paging_off {r : SegReg} {off : Word} {n : Nat} {bs : List Byte} {s : State}
    (inside : OperandInside r off n .read s) (pg : s.pg = false) (disabled : NoBreakpoints s) (hn : n ≤ 4096)
    (bytes : (span ((s.seg.get r).base + off) n).map (fun a => s.byteAt a.toNat) = bs.map some) :
    memRead r off n s = .ok bs s := by
  simp [memRead, segTranslate_of_inside inside, dataBreakpoints_of_disabled disabled, linRead,
    linTranslate_paging_off _ _ pg hn, physReadBytes_of_byteAt bytes]

/-- Two bytes make a half, the second its high byte (R170). -/
theorem ofNat_leNat_two (b0 b1 : Byte) : BitVec.ofNat 16 (leNat [b0, b1]) = b1 ++ b0 := by
  apply BitVec.eq_of_toNat_eq
  have := b0.isLt
  have := b1.isLt
  rw [BitVec.toNat_append, ← Nat.shiftLeft_add_eq_or_of_lt b0.isLt, Nat.shiftLeft_eq]
  simp only [leNat, BitVec.toNat_ofNat]
  omega

/-- The bits of CR0 after LMSW: PE is set and never cleared, MP, EM and TS are copied (R238). -/
theorem getLsbD_writeMsw (v : Half) (s : State) (j : Nat) :
    (writeMsw v s).cr0.getLsbD j =
      if j = 0 then s.cr0.getLsbD 0 || v.getLsbD 0
      else if j < 4 then v.getLsbD j else s.cr0.getLsbD j := by
  by_cases word : j < 32
  · have masks : ∀ j < 32, lmswMask.getLsbD j = (decide (j ≠ 0) && decide (j < 4)) ∧
        (1 : Word).getLsbD j = decide (j = 0) := by decide
    obtain ⟨mask, one⟩ := masks j word
    rw [writeMsw_cr0, BitVec.getLsbD_or, BitVec.getLsbD_and, getLsbD_insertBits, mask, one]
    by_cases zero : j = 0
    · simp [zero]
    · by_cases low : j < 4 <;> simp [zero, low, word]
  · have zero : j ≠ 0 := by omega
    have high : ¬ j < 4 := by omega
    rw [if_neg zero, if_neg high, BitVec.getLsbD_of_ge _ _ (by omega), BitVec.getLsbD_of_ge _ _ (by omega)]

theorem writeMsw_pe (v : Half) (s : State) : (writeMsw v s).pe = (s.pe || v.getLsbD 0) :=
  getLsbD_writeMsw v s 0

theorem writeMsw_mp (v : Half) (s : State) : (writeMsw v s).mp = v.getLsbD 1 := getLsbD_writeMsw v s 1

theorem writeMsw_em (v : Half) (s : State) : (writeMsw v s).em = v.getLsbD 2 := getLsbD_writeMsw v s 2

theorem writeMsw_ts (v : Half) (s : State) : (writeMsw v s).ts = v.getLsbD 3 := getLsbD_writeMsw v s 3

/-- The low byte of a half. -/
theorem getLsbD_append_low (b1 b0 : Byte) {i : Nat} (h : i < 8) :
    (b1 ++ b0 : Half).getLsbD i = b0.getLsbD i := by
  rw [BitVec.getLsbD_append, if_pos h]

/-- In protected mode LMSW writes whatever its source is (R238, R241). -/
theorem loadMsw_of_pe (v : Half) {s : State} (pe : s.pe = true) : loadMsw v s = .next (writeMsw v s) := by
  simp [loadMsw, peChangeRefused, pe]

/-- LMSW from memory with paging off takes its source from the two bytes at its linear address (R238). -/
theorem exec_lmsw_mem_paging_off {p : Prefixes} {m : MemOperand} {s : State} {b0 b1 : Byte}
    (may : MayRunPrivileged s) (inside : OperandInside (operandSegment p m) (effectiveAddress m s) 2 .read s)
    (pg : s.pg = false) (disabled : NoBreakpoints s)
    (h0 : s.byteAt (operandLinear p m s).toNat = some b0)
    (h1 : s.byteAt (operandLinear p m s + 1).toNat = some b1) :
    exec (.lmsw p (.mem m)) s = .next (writeMsw (b1 ++ b0) s) := by
  have read : memRead (operandSegment p m) (effectiveAddress m s) 2 s = .ok [b0, b1] s := by
    refine memRead_paging_off inside pg disabled (by decide) ?_
    change (span (operandLinear p m s) 2).map _ = _
    rw [span_two, List.map_cons, List.map_cons, h0, h1]
    rfl
  have source : readRm16 p (.mem m) s = .ok (b1 ++ b0) s := by
    simp [readRm16, read, ofNat_leNat_two]
  change privileged s _ = _
  have pe := inside.1
  have may : s.unprivileged = false := may
  rw [privileged, may, source, thenOut_ok, loadMsw_of_pe _ pe]
  rfl

/-- Settles O27: the six offsets, the six default segments, and `exec_lmsw_mem_paging_off`. -/
theorem loadMswReadsItsOperandBytes : Obligations.LoadMswReadsItsOperandBytes := by
  refine ⟨fun s d => ?_, effectiveAddress_base16_toNat, fun s d => rfl, effectiveAddress_base32_toNat,
    effectiveAddress_sib_toNat, effectiveAddress_sibDirect_toNat,
    ⟨fun d => rfl, fun b d => base16Segment_eq b, fun d => rfl, fun b d esp => ?_, fun sc ix b d => rfl,
      fun sc ix d => rfl, fun p m => ⟨fun seg => ?_, fun r seg => ?_⟩⟩, ?_⟩
  · have := d.isLt
    simp only [effectiveAddress, BitVec.truncate_eq_setWidth, BitVec.toNat_setWidth]
    omega
  · simp [defaultSegment, base32Segment, esp]
  · simp [operandSegment, seg]
  · simp [operandSegment, seg]
  · intro p m s b0 b1 may inside pg disabled h0 h1
    refine ⟨_, exec_lmsw_mem_paging_off may inside pg disabled h0 h1, ?_, ?_, ?_, ?_, fun j hj => ?_,
      byteAt_congr rfl rfl, rfl⟩
    · rw [writeMsw_pe, inside.1, Bool.true_or]
    · rw [writeMsw_mp, getLsbD_append_low b1 b0 (by decide)]
    · rw [writeMsw_em, getLsbD_append_low b1 b0 (by decide)]
    · rw [writeMsw_ts, getLsbD_append_low b1 b0 (by decide)]
    · rw [getLsbD_writeMsw, if_neg (by omega), if_neg (by omega)]

end Sys2Proof.Machine
end

section
/-!
The decoder answers well-formed instructions only: one lemma per decoding function.
-/

namespace Sys2Proof

/-- A base of 16-bit addressing is BP only where rm is 110B. -/
theorem ofBits_ne_bp {n : BitVec 3} (h : n ≠ 6) : Base16.ofBits n ≠ .bp := by
  revert n
  decide

/-- A base of 32-bit addressing is ESP only where rm is 100B. -/
theorem ofBits_ne_esp {n : BitVec 3} (h : n ≠ 4) : Reg.ofBits n ≠ .esp := by
  revert n
  decide

/-- A base of 32-bit addressing is EBP only where rm is 101B. -/
theorem ofBits_ne_ebp {n : BitVec 3} (h : n ≠ 5) : Reg.ofBits n ≠ .ebp := by
  revert n
  decide

theorem decodeMem16_wf {mod : BitVec 2} {rm : BitVec 3} {rest : List Byte} {m : MemOperand}
    (h : decodeMem16 mod rm rest = some m) : m.encodable = true ∧ m.is32 = false := by
  unfold decodeMem16 at h
  split at h
  · split at h
    · split at h
      · cases h
        exact ⟨rfl, rfl⟩
      · cases h
    · rename_i notBp
      cases h
      exact ⟨by simp [MemOperand.encodable, ofBits_ne_bp notBp], rfl⟩
  · cases h
    exact ⟨by simp [MemOperand.encodable], rfl⟩
  · cases h
    exact ⟨by simp [MemOperand.encodable], rfl⟩
  · cases h

/-- Only mod = 00B announces no displacement in 32-bit addressing. -/
theorem decodeDisp32_ne_none {mod : BitVec 2} {rest : List Byte} {x : Disp32} (hm : mod ≠ 0)
    (h : decodeDisp32 mod rest = some x) : x ≠ .none := by
  unfold decodeDisp32 at h
  split at h
  · rename_i zero
    exact absurd (BitVec.eq_of_toNat_eq zero) hm
  · cases h
    simp
  · cases h
    simp
  · cases h

/-- Base EBP with no displacement is the `disp32` form, which the decoder tests first (R205, R206). -/
theorem base_or_disp {mod : BitVec 2} {base : BitVec 3} {rest : List Byte} {x : Disp32}
    (hc : ¬(base = 5 ∧ mod = 0)) (h : decodeDisp32 mod rest = some x) :
    (!(Reg.ofBits base == .ebp && x == .none)) = true := by
  by_cases five : base = 5
  · simp [decodeDisp32_ne_none (fun zero => hc ⟨five, zero⟩) h]
  · simp [ofBits_ne_ebp five]

theorem decodeSib_wf {mod : BitVec 2} {sib : Byte} {rest : List Byte} {m : MemOperand}
    (h : decodeSib mod sib rest = some m) : m.encodable = true ∧ m.is32 = true := by
  unfold decodeSib at h
  split at h
  · split at h
    · cases h
      exact ⟨rfl, rfl⟩
    · cases h
  · rename_i hc
    obtain ⟨x, hx, rfl⟩ := Option.map_eq_some_iff.1 h
    exact ⟨base_or_disp hc hx, rfl⟩

theorem decodeMem32_wf {mod : BitVec 2} {rm : BitVec 3} {rest : List Byte} {m : MemOperand}
    (h : decodeMem32 mod rm rest = some m) : m.encodable = true ∧ m.is32 = true := by
  unfold decodeMem32 at h
  split at h
  · split at h
    · exact decodeSib_wf h
    · cases h
  · rename_i notSib
    split at h
    · split at h
      · cases h
        exact ⟨rfl, rfl⟩
      · cases h
    · rename_i hc
      obtain ⟨x, hx, rfl⟩ := Option.map_eq_some_iff.1 h
      exact ⟨by simpa [MemOperand.encodable, ofBits_ne_esp notSib] using base_or_disp hc hx, rfl⟩

theorem decodeRm16_wf {a32 : Bool} {m : Byte} {rest : List Byte} {o : RM16}
    (h : decodeRm16 a32 m rest = some o) : o.wf a32 = true := by
  unfold decodeRm16 at h
  split at h
  · cases h
    rfl
  · split at h
    · rename_i is32
      obtain ⟨x, hx, rfl⟩ := Option.map_eq_some_iff.1 h
      simp [RM16.wf, decodeMem32_wf hx, is32]
    · rename_i is16
      obtain ⟨x, hx, rfl⟩ := Option.map_eq_some_iff.1 h
      simp [RM16.wf, decodeMem16_wf hx, is16]

/-- LOCK or not, an instruction that `finish` answers is the one it was given. -/
theorem finish_eq_instr {lock : Bool} {i j : Instr} (h : finish lock i = .instr j) : i = j := by
  unfold finish at h
  split at h
  · cases h
  · injection h

theorem decodeGroup7_wf {d : Bool} {p : Prefixes} {lock : Bool} {m : Byte} {rest : List Byte} {i : Instr}
    (h : decodeGroup7 d p lock m rest = .instr i) : i.wf d = true := by
  unfold decodeGroup7 at h
  split at h
  · split at h
    · rename_i operand
      obtain rfl := finish_eq_instr h
      exact decodeRm16_wf operand
    · cases h
  · split at h
    · split at h
      · rename_i operand
        obtain rfl := finish_eq_instr h
        exact decodeRm16_wf operand
      · cases h
    · cases h

/-- Every register move is well formed. -/
theorem movSpecial_wf {op2 : Byte} {f : Prefixes → BitVec 3 → Reg → Instr} (h : movSpecial op2 = some f)
    (d : Bool) (p : Prefixes) (n : BitVec 3) (rm : Reg) : (f p n rm).wf d = true := by
  unfold movSpecial at h
  split at h <;> cases h
  · unfold movFromCr; split <;> rfl
  · unfold movFromDr; split <;> rfl
  · unfold movToCr; split <;> rfl
  · unfold movToDr; split <;> rfl
  · unfold movFromTr; split <;> rfl
  · unfold movToTr; split <;> rfl

theorem decodeTwoByte_wf {d : Bool} {p : Prefixes} {lock : Bool} {op2 : Byte} {rest : List Byte} {i : Instr}
    (h : decodeTwoByte d p lock op2 rest = .instr i) : i.wf d = true := by
  unfold decodeTwoByte at h
  split at h
  · obtain rfl := finish_eq_instr h
    rfl
  · split at h
    · cases h
    · rename_i move
      split at h
      · obtain rfl := finish_eq_instr h
        exact movSpecial_wf move d _ _ _
      · cases h
    · split at h
      · split at h
        · cases h
        · exact decodeGroup7_wf h
      · cases h

theorem decodeOpcode_wf {d : Bool} {p : Prefixes} {lock : Bool} {b : Byte} {rest : List Byte} {i : Instr}
    (h : decodeOpcode d p lock b rest = .instr i) : i.wf d = true := by
  unfold decodeOpcode at h
  split at h
  · obtain rfl := finish_eq_instr h
    rfl
  · split at h
    · split at h
      · cases h
      · exact decodeTwoByte_wf h
    · cases h

theorem decodeFrom_wf {d : Bool} {p : Prefixes} {lock : Bool} {l : List Byte} {i : Instr}
    (h : decodeFrom d p lock l = .instr i) : i.wf d = true := by
  induction l generalizing p lock with
  | nil => cases h
  | cons b rest ih =>
    unfold decodeFrom at h
    split at h
    · exact decodeOpcode_wf h
    · cases h
    all_goals
      split at h
      · cases h
      · exact ih h

/-- The decoder answers well-formed instructions only (R205 to R210). -/
theorem decode_wf {d : Bool} {l : List Byte} {i : Instr} (h : decode d l = .instr i) : i.wf d = true :=
  decodeFrom_wf h

end Sys2Proof
end

section
/-!
The decoder's answer is final: bytes after those that settle it do not change it. One lemma per decoding
function.
-/

namespace Sys2Proof

theorem decodeDisp32_append {mod : BitVec 2} {rest : List Byte} {x : Disp32} (ext : List Byte)
    (h : decodeDisp32 mod rest = some x) : decodeDisp32 mod (rest ++ ext) = some x := by
  unfold decodeDisp32 at h
  split at h <;> cases h <;> simp_all [decodeDisp32]

theorem decodeMem16_append {mod : BitVec 2} {rm : BitVec 3} {rest : List Byte} {m : MemOperand}
    (ext : List Byte) (h : decodeMem16 mod rm rest = some m) :
    decodeMem16 mod rm (rest ++ ext) = some m := by
  unfold decodeMem16 at h
  split at h
  · split at h
    · split at h
      · cases h; simp_all [decodeMem16]
      · cases h
    · cases h; simp_all [decodeMem16]
  · cases h; simp_all [decodeMem16]
  · cases h; simp_all [decodeMem16]
  · cases h

theorem decodeSib_append {mod : BitVec 2} {sib : Byte} {rest : List Byte} {m : MemOperand}
    (ext : List Byte) (h : decodeSib mod sib rest = some m) : decodeSib mod sib (rest ++ ext) = some m := by
  unfold decodeSib at h ⊢
  split
  · rename_i direct
    rw [if_pos direct] at h
    split at h
    · exact h
    · cases h
  · rename_i based
    rw [if_neg based] at h
    obtain ⟨x, hx, rfl⟩ := Option.map_eq_some_iff.1 h
    rw [decodeDisp32_append ext hx]
    rfl

theorem decodeMem32_append {mod : BitVec 2} {rm : BitVec 3} {rest : List Byte} {m : MemOperand}
    (ext : List Byte) (h : decodeMem32 mod rm rest = some m) :
    decodeMem32 mod rm (rest ++ ext) = some m := by
  unfold decodeMem32 at h ⊢
  split
  · rename_i sib
    rw [if_pos sib] at h
    split at h
    · exact decodeSib_append ext h
    · cases h
  · rename_i notSib
    rw [if_neg notSib] at h
    split
    · rename_i direct
      rw [if_pos direct] at h
      split at h
      · exact h
      · cases h
    · rename_i based
      rw [if_neg based] at h
      obtain ⟨x, hx, rfl⟩ := Option.map_eq_some_iff.1 h
      rw [decodeDisp32_append ext hx]
      rfl

theorem decodeRm16_append {a32 : Bool} {m : Byte} {rest : List Byte} {o : RM16} (ext : List Byte)
    (h : decodeRm16 a32 m rest = some o) : decodeRm16 a32 m (rest ++ ext) = some o := by
  unfold decodeRm16 at h ⊢
  split
  · rename_i register
    rwa [if_pos register] at h
  · rename_i memory
    rw [if_neg memory] at h
    split
    · rename_i is32
      rw [if_pos is32] at h
      obtain ⟨x, hx, rfl⟩ := Option.map_eq_some_iff.1 h
      rw [decodeMem32_append ext hx]
      rfl
    · rename_i is16
      rw [if_neg is16] at h
      obtain ⟨x, hx, rfl⟩ := Option.map_eq_some_iff.1 h
      rw [decodeMem16_append ext hx]
      rfl

theorem decodeGroup7_append {d : Bool} {p : Prefixes} {lock : Bool} {m : Byte} {rest : List Byte}
    (ext : List Byte) (h : decodeGroup7 d p lock m rest ≠ .more) :
    decodeGroup7 d p lock m (rest ++ ext) = decodeGroup7 d p lock m rest := by
  unfold decodeGroup7 at h ⊢
  cases operand : decodeRm16 (d ^^ p.addrsize) m rest with
  | some o => rw [decodeRm16_append ext operand]
  | none =>
    simp only [operand] at h
    split at h
    · exact absurd rfl h
    · rename_i not4
      rw [if_neg not4, if_neg not4]
      split at h
      · exact absurd rfl h
      · rename_i not6
        rw [if_neg not6, if_neg not6]

theorem decodeTwoByte_append {d : Bool} {p : Prefixes} {lock : Bool} {op2 : Byte} {rest : List Byte}
    (ext : List Byte) (h : decodeTwoByte d p lock op2 rest ≠ .more) :
    decodeTwoByte d p lock op2 (rest ++ ext) = decodeTwoByte d p lock op2 rest := by
  unfold decodeTwoByte at h ⊢
  split
  · rfl
  · rename_i notClts
    rw [if_neg notClts] at h
    cases move : movSpecial op2 with
    | some f =>
      cases rest with
      | nil => simp [move] at h
      | cons m rest => rfl
    | none =>
      simp only [move] at h ⊢
      split
      · rename_i group
        rw [if_pos group] at h
        cases rest with
        | nil => exact absurd rfl h
        | cons m rest => exact decodeGroup7_append ext h
      · rfl

theorem decodeOpcode_append {d : Bool} {p : Prefixes} {lock : Bool} {b : Byte} {rest : List Byte}
    (ext : List Byte) (h : decodeOpcode d p lock b rest ≠ .more) :
    decodeOpcode d p lock b (rest ++ ext) = decodeOpcode d p lock b rest := by
  unfold decodeOpcode at h ⊢
  split
  · rfl
  · rename_i notEsc
    rw [if_neg notEsc] at h
    split
    · rename_i twoByte
      rw [if_pos twoByte] at h
      cases rest with
      | nil => exact absurd rfl h
      | cons op2 rest => exact decodeTwoByte_append ext h
    · rfl

theorem decodeFrom_append {d : Bool} {p : Prefixes} {lock : Bool} {l : List Byte} (ext : List Byte)
    (h : decodeFrom d p lock l ≠ .more) : decodeFrom d p lock (l ++ ext) = decodeFrom d p lock l := by
  induction l generalizing p lock with
  | nil => exact absurd rfl h
  | cons b rest ih =>
    rw [List.cons_append]
    unfold decodeFrom at h ⊢
    split
    · rename_i opcode
      simp only [opcode] at h
      exact decodeOpcode_append ext h
    · rfl
    all_goals
      rename_i isPrefix
      simp only [isPrefix] at h
      split
      · rfl
      · rename_i first
        rw [if_neg first] at h
        exact ih h

/-- The decoder's answer is final (R210). -/
theorem decode_append {d : Bool} {l : List Byte} (ext : List Byte) (h : decode d l ≠ .more) :
    decode d (l ++ ext) = decode d l :=
  decodeFrom_append ext h

end Sys2Proof
end

section
/-!
Decoding inverts encoding, for every well-formed instruction: the fields, the operands, the prefixes, and
the formats of the opcode table.
-/

namespace Sys2Proof

theorem field76_fields233 : ∀ (hi : BitVec 2) (mid lo : BitVec 3), field76 (fields233 hi mid lo) = hi := by
  decide

theorem field53_fields233 : ∀ (hi : BitVec 2) (mid lo : BitVec 3), field53 (fields233 hi mid lo) = mid := by
  decide

theorem field20_fields233 : ∀ (hi : BitVec 2) (mid lo : BitVec 3), field20 (fields233 hi mid lo) = lo := by
  decide

theorem ofBits_bits (r : Reg) : Reg.ofBits r.bits = r := by
  cases r <;> rfl

theorem base16_ofBits_bits (b : Base16) : Base16.ofBits b.bits = b := by
  cases b <;> rfl

/-- The two bytes of a half make it again (R217). -/
theorem half_halfBytes (h : Half) : half (h.extractLsb' 0 8) (h.extractLsb' 8 8) = h := by
  apply BitVec.eq_of_getLsbD_eq
  intro i hi
  simp only [half, BitVec.getLsbD_append, BitVec.getLsbD_extractLsb']
  by_cases low : i < 8
  · simp [low]
  · have : i - 8 < 8 := by omega
    have : 8 + (i - 8) = i := by omega
    simp [*]

/-- The four bytes of a word make it again (R217). -/
theorem word_wordBytes (w : Word) :
    word (w.extractLsb' 0 8) (w.extractLsb' 8 8) (w.extractLsb' 16 8) (w.extractLsb' 24 8) = w := by
  apply BitVec.eq_of_toNat_eq
  have := w.isLt
  simp only [word, BitVec.toNat_append, BitVec.extractLsb'_toNat, Nat.shiftRight_eq_div_pow]
  rw [← Nat.shiftLeft_add_eq_or_of_lt (Nat.mod_lt _ (by decide)),
    ← Nat.shiftLeft_add_eq_or_of_lt (Nat.mod_lt _ (by decide)),
    ← Nat.shiftLeft_add_eq_or_of_lt (Nat.mod_lt _ (by decide))]
  simp only [Nat.shiftLeft_eq]
  omega

/-- A displacement that is announced is read back (R205). -/
theorem decodeDisp32_bytes (x : Disp32) : decodeDisp32 x.mod x.bytes = some x := by
  cases x with
  | none => rfl
  | d8 d => rfl
  | d32 d => exact congrArg (fun w => some (Disp32.d32 w)) (word_wordBytes d)

theorem disp32_mod_ne_three (x : Disp32) : x.mod ≠ 3 := by
  cases x <;> simp [Disp32.mod]

theorem disp32_mod_eq_zero {x : Disp32} (h : x.mod = 0) : x = .none := by
  cases x with
  | none => rfl
  | d8 d => simp [Disp32.mod] at h
  | d32 d => simp [Disp32.mod] at h

theorem bits_eq_four {r : Reg} (h : r.bits = 4) : r = .esp := by
  rw [← ofBits_bits r, h]
  rfl

theorem bits_eq_five {r : Reg} (h : r.bits = 5) : r = .ebp := by
  rw [← ofBits_bits r, h]
  rfl

theorem base16_bits_eq_six {b : Base16} (h : b.bits = 6) : b = .bp := by
  rw [← base16_ofBits_bits b, h]
  rfl

/-- A base that may stand with its displacement is not taken for the `disp32` form (R205, R206). -/
theorem not_disp32_form {b : Reg} {x : Disp32} (h : (!(b == .ebp && x == .none)) = true) :
    ¬(b.bits = 5 ∧ x.mod = 0) := by
  rintro ⟨base, disp⟩
  rw [bits_eq_five base, disp32_mod_eq_zero disp] at h
  exact absurd h (by decide)

/-- The bytes of an operand begin with a ModRM byte that carries the digit and is not of the register form,
and that byte and the rest decode to the operand. -/
def DecodesAs (decodeMem : BitVec 2 → BitVec 3 → List Byte → Option MemOperand) (digit : BitVec 3)
    (m : MemOperand) : Prop :=
  ∃ mod rm rest, encodeMem digit m = fields233 mod digit rm :: rest ∧ mod ≠ 3 ∧
    decodeMem mod rm rest = some m

/-- 16-bit operands round-trip (R207). -/
theorem decodeMem16_encodeMem {m : MemOperand} (digit : BitVec 3) (encodable : m.encodable = true)
    (is16 : m.is32 = false) : DecodesAs decodeMem16 digit m := by
  cases m with
  | direct16 d =>
    exact ⟨0, 6, halfBytes d, rfl, by decide,
      congrArg (fun h => some (MemOperand.direct16 h)) (half_halfBytes d)⟩
  | base16 b x =>
    cases x with
    | none =>
      have notBp : b.bits ≠ 6 := fun h => by
        rw [base16_bits_eq_six h] at encodable
        exact absurd encodable (by decide)
      exact ⟨0, b.bits, [], rfl, by decide, (if_neg notBp).trans (by rw [base16_ofBits_bits])⟩
    | d8 d => exact ⟨1, b.bits, [d], rfl, by decide, by simp [decodeMem16, base16_ofBits_bits]⟩
    | d16 d =>
      exact ⟨2, b.bits, halfBytes d, rfl, by decide,
        by simp [decodeMem16, halfBytes, base16_ofBits_bits, half_halfBytes]⟩
  | direct32 d => cases is16
  | base32 b x => cases is16
  | sib sc ix b x => cases is16
  | sibDirect sc ix d => cases is16

/-- A SIB byte with a base register round-trips (R206). -/
theorem decodeSib_bytes (sc : BitVec 2) (ix : Reg) {b : Reg} {x : Disp32}
    (encodable : (MemOperand.sib sc ix b x).encodable = true) :
    decodeSib x.mod (fields233 sc ix.bits b.bits) x.bytes = some (.sib sc ix b x) := by
  unfold decodeSib
  rw [field20_fields233, field53_fields233, field76_fields233, if_neg (not_disp32_form encodable),
    decodeDisp32_bytes, ofBits_bits, ofBits_bits]
  rfl

/-- A SIB byte without a base register round-trips (R206). -/
theorem decodeSib_direct_bytes (sc : BitVec 2) (ix : Reg) (d : Word) :
    decodeSib 0 (fields233 sc ix.bits 5) (wordBytes d) = some (.sibDirect sc ix d) := by
  unfold decodeSib
  rw [field20_fields233, field53_fields233, field76_fields233, if_pos ⟨rfl, rfl⟩, ofBits_bits]
  exact congrArg (fun w => some (MemOperand.sibDirect sc ix w)) (word_wordBytes d)

/-- 32-bit operands round-trip (R205, R206). -/
theorem decodeMem32_encodeMem {m : MemOperand} (digit : BitVec 3) (encodable : m.encodable = true)
    (is32 : m.is32 = true) : DecodesAs decodeMem32 digit m := by
  cases m with
  | direct16 d => cases is32
  | base16 b x => cases is32
  | direct32 d =>
    exact ⟨0, 5, wordBytes d, rfl, by decide,
      congrArg (fun w => some (MemOperand.direct32 w)) (word_wordBytes d)⟩
  | base32 b x =>
    obtain ⟨notEsp, form⟩ := Bool.and_eq_true_iff.1 encodable
    have notSib : b.bits ≠ 4 := fun h => by simp [bits_eq_four h] at notEsp
    refine ⟨x.mod, b.bits, x.bytes, rfl, disp32_mod_ne_three x, ?_⟩
    unfold decodeMem32
    rw [if_neg notSib, if_neg (not_disp32_form form), decodeDisp32_bytes, ofBits_bits]
    rfl
  | sib sc ix b x =>
    exact ⟨x.mod, 4, _, rfl, disp32_mod_ne_three x, decodeSib_bytes sc ix encodable⟩
  | sibDirect sc ix d => exact ⟨0, 4, _, rfl, by decide, decodeSib_direct_bytes sc ix d⟩

/-- The operand of LMSW and SMSW round-trips, behind a ModRM byte that carries the digit (R213). -/
theorem decodeRm16_encodeRm16 {a32 : Bool} {o : RM16} (digit : BitVec 3) (h : o.wf a32 = true) :
    ∃ m rest, encodeRm16 digit o = m :: rest ∧ field53 m = digit ∧ decodeRm16 a32 m rest = some o := by
  cases o with
  | reg r =>
    refine ⟨fields233 3 digit r.bits, [], rfl, field53_fields233 _ _ _, ?_⟩
    rw [decodeRm16, field76_fields233, if_pos rfl, field20_fields233, ofBits_bits]
  | mem m =>
    obtain ⟨encodable, size⟩ := Bool.and_eq_true_iff.1 h
    have size : m.is32 = a32 := by simpa using size
    cases a32 with
    | true =>
      obtain ⟨mod, rm, rest, bytes, memory, decoded⟩ := decodeMem32_encodeMem digit encodable size
      refine ⟨_, rest, bytes, field53_fields233 _ _ _, ?_⟩
      rw [decodeRm16, field76_fields233, if_neg memory, field20_fields233, decoded]
      rfl
    | false =>
      obtain ⟨mod, rm, rest, bytes, memory, decoded⟩ := decodeMem16_encodeMem digit encodable size
      refine ⟨_, rest, bytes, field53_fields233 _ _ _, ?_⟩
      rw [decodeRm16, field76_fields233, if_neg memory, field20_fields233, decoded]
      rfl

/-- The operand size byte, present or not, is read into its flag (R208). -/
theorem decodeFrom_opsize (d a lock : Bool) (seg : Option SegReg) (present : Bool) (l : List Byte) :
    decodeFrom d ⟨false, a, seg⟩ lock ((if present then [0x66] else []) ++ l) =
      decodeFrom d ⟨present, a, seg⟩ lock l := by
  cases present <;> rfl

/-- The address size byte likewise (R208). -/
theorem decodeFrom_addrsize (d o lock : Bool) (seg : Option SegReg) (present : Bool) (l : List Byte) :
    decodeFrom d ⟨o, false, seg⟩ lock ((if present then [0x67] else []) ++ l) =
      decodeFrom d ⟨o, present, seg⟩ lock l := by
  cases present <;> rfl

theorem prefixOf_override (r : SegReg) : prefixOf r.override = some (.seg r) := by
  cases r <;> rfl

/-- The segment override likewise (R208). -/
theorem decodeFrom_override (d o a lock : Bool) (r : SegReg) (l : List Byte) :
    decodeFrom d ⟨o, a, none⟩ lock (r.override :: l) = decodeFrom d ⟨o, a, some r⟩ lock l := by
  simp [decodeFrom, prefixOf_override]

/-- The prefixes an instruction carries are read, and the opcode follows (R208, R210). -/
theorem decode_prefixes (d : Bool) (p : Prefixes) {b : Byte} (opcode : prefixOf b = none) (rest : List Byte) :
    decode d (p.bytes ++ b :: rest) = decodeOpcode d p false b rest := by
  obtain ⟨o, a, seg⟩ := p
  rw [Prefixes.bytes, List.append_assoc, List.append_assoc, decode, decodeFrom_opsize, decodeFrom_addrsize]
  cases seg with
  | none => simp [decodeFrom, opcode]
  | some r =>
    rw [List.singleton_append, decodeFrom_override]
    simp [decodeFrom, opcode]

/-- The two-byte opcodes (R210). -/
theorem decode_twoByte (d : Bool) (p : Prefixes) (op2 : Byte) (rest : List Byte) :
    decode d (p.bytes ++ 0x0F :: op2 :: rest) = decodeTwoByte d p false op2 rest :=
  (decode_prefixes d p rfl _).trans rfl

/-- The register moves (R212). -/
theorem decode_encodeMov {op2 : Byte} {f : Prefixes → BitVec 3 → Reg → Instr}
    (h : movSpecial op2 = some f) (d : Bool) (p : Prefixes) (n : BitVec 3) (rm : Reg) :
    decode d (encodeMov op2 p n rm) = .instr (f p n rm) := by
  have notClts : op2 ≠ 0x06 := by
    rintro rfl
    exact absurd h (by simp [movSpecial])
  rw [encodeMov, decode_twoByte]
  unfold decodeTwoByte
  rw [if_neg notClts, h]
  simp [field76_fields233, field53_fields233, field20_fields233, ofBits_bits, finish]

/-- LMSW and SMSW, by their digit (R213). -/
theorem decode_group7 {d : Bool} {p : Prefixes} {o : RM16} (digit : BitVec 3)
    (h : o.wf (d ^^ p.addrsize) = true) :
    ∃ m rest, field53 m = digit ∧ decodeRm16 (d ^^ p.addrsize) m rest = some o ∧
      decode d (p.bytes ++ 0x0F :: 0x01 :: encodeRm16 digit o) = decodeGroup7 d p false m rest := by
  obtain ⟨m, rest, bytes, carries, decoded⟩ := decodeRm16_encodeRm16 digit h
  refine ⟨m, rest, carries, decoded, ?_⟩
  rw [bytes, decode_twoByte]
  rfl

theorem decode_smsw {d : Bool} {p : Prefixes} {o : RM16} (h : o.wf (d ^^ p.addrsize) = true) :
    decode d (encode (.smsw p o)) = .instr (.smsw p o) := by
  obtain ⟨m, rest, digit, operand, decoded⟩ := decode_group7 4 h
  rw [encode, decoded, decodeGroup7, if_pos digit, operand]
  rfl

theorem decode_lmsw {d : Bool} {p : Prefixes} {o : RM16} (h : o.wf (d ^^ p.addrsize) = true) :
    decode d (encode (.lmsw p o)) = .instr (.lmsw p o) := by
  obtain ⟨m, rest, digit, operand, decoded⟩ := decode_group7 6 h
  rw [encode, decoded, decodeGroup7, if_neg (by rw [digit]; decide), if_pos digit, operand]
  rfl

theorem decode_esc (d : Bool) (p : Prefixes) (low : BitVec 3) :
    decode d (encode (.esc p low)) = .instr (.esc p low) := by
  have opcode : ∀ low, prefixOf (fields233 3 3 low) = none := by decide
  rw [encode, decode_prefixes d p (opcode low), decodeOpcode, field53_fields233, field76_fields233,
    if_pos ⟨rfl, rfl⟩, field20_fields233]
  rfl

/-- Decoding inverts encoding (R210). -/
theorem decode_encode {d : Bool} {i : Instr} (h : i.wf d = true) : decode d (encode i) = .instr i := by
  cases i with
  | clts p => exact decode_twoByte d p 0x06 []
  | smsw p o => exact decode_smsw h
  | lmsw p o => exact decode_lmsw h
  | esc p low => exact decode_esc d p low
  | movR32Cr0 | movR32Cr1 | movR32Cr2 | movR32Cr3 =>
    exact decode_encodeMov (op2 := 0x20) (f := movFromCr) rfl d _ _ _
  | movCr0R32 | movCr1R32 | movCr2R32 | movCr3R32 =>
    exact decode_encodeMov (op2 := 0x22) (f := movToCr) rfl d _ _ _
  | movR32Dr0 | movR32Dr1 | movR32Dr2 | movR32Dr3 | movR32Dr6 | movR32Dr7 =>
    exact decode_encodeMov (op2 := 0x21) (f := movFromDr) rfl d _ _ _
  | movDr0R32 | movDr1R32 | movDr2R32 | movDr3R32 | movDr6R32 | movDr7R32 =>
    exact decode_encodeMov (op2 := 0x23) (f := movToDr) rfl d _ _ _
  | movR32Tr6 | movR32Tr7 =>
    exact decode_encodeMov (op2 := 0x24) (f := movFromTr) rfl d _ _ _
  | movTr6R32 | movTr7R32 =>
    exact decode_encodeMov (op2 := 0x26) (f := movToTr) rfl d _ _ _
  | movR32Cr4to7 p n rm =>
    exact (decode_encodeMov (op2 := 0x20) rfl d p _ rm).trans (by fin_cases n <;> rfl)
  | movCr4to7R32 p n rm =>
    exact (decode_encodeMov (op2 := 0x22) rfl d p _ rm).trans (by fin_cases n <;> rfl)
  | movR32Dr4to5 p n rm =>
    exact (decode_encodeMov (op2 := 0x21) rfl d p _ rm).trans (by fin_cases n <;> rfl)
  | movDr4to5R32 p n rm =>
    exact (decode_encodeMov (op2 := 0x23) rfl d p _ rm).trans (by fin_cases n <;> rfl)
  | movR32Tr0to3 p n rm =>
    exact (decode_encodeMov (op2 := 0x24) rfl d p _ rm).trans (by fin_cases n <;> rfl)
  | movR32Tr4to5 p n rm =>
    exact (decode_encodeMov (op2 := 0x24) rfl d p _ rm).trans (by fin_cases n <;> rfl)
  | movTr0to3R32 p n rm =>
    exact (decode_encodeMov (op2 := 0x26) rfl d p _ rm).trans (by fin_cases n <;> rfl)
  | movTr4to5R32 p n rm =>
    exact (decode_encodeMov (op2 := 0x26) rfl d p _ rm).trans (by fin_cases n <;> rfl)

theorem prefixes_length_le (p : Prefixes) : p.length ≤ 3 := by
  unfold Prefixes.length
  split_ifs <;> decide

theorem disp16_length_le (x : Disp16) : x.length ≤ 2 := by
  cases x <;> simp [Disp16.length]

theorem disp32_length_le (x : Disp32) : x.length ≤ 4 := by
  cases x <;> simp [Disp32.length]

theorem memOperand_length_le (m : MemOperand) : m.length ≤ 5 := by
  cases m with
  | direct16 d => exact (by decide : 2 ≤ 5)
  | base16 b x => exact (disp16_length_le x).trans (by decide)
  | direct32 d => exact (by decide : 4 ≤ 5)
  | base32 b x => exact (disp32_length_le x).trans (by decide)
  | sib sc ix b x => exact Nat.add_le_add_left (disp32_length_le x) 1
  | sibDirect sc ix d => exact le_refl 5

theorem groupLength_le (p : Prefixes) (o : RM16) : groupLength p o ≤ 11 := by
  have := prefixes_length_le p
  cases o with
  | reg r =>
    change p.length + 3 ≤ 11
    omega
  | mem m =>
    have := memOperand_length_le m
    change p.length + 3 + m.length ≤ 11
    omega

/-- No instruction is longer than three prefixes, two opcode bytes, ModRM, SIB and four displacement bytes
(R218). -/
theorem length_le (i : Instr) : i.length ≤ 11 := by
  have := prefixes_length_le i.prefixes
  cases i with
  | smsw p o | lmsw p o => exact groupLength_le p o
  | _ =>
    simp only [Instr.prefixes] at this
    simp only [Instr.length, movLength]
    omega

/-- The encoder writes as many bytes as the instruction is long (R218). -/
theorem encode_length (i : Instr) : (encode i).length = i.length := by
  cases i with
  | clts p => exact Laws.EncodeLength.clts p
  | esc p low => exact Laws.EncodeLength.esc p low
  | smsw p o => exact Laws.EncodeLength.smsw p o
  | lmsw p o => exact Laws.EncodeLength.lmsw p o
  | _ => exact Laws.EncodeLength.mov_length _ _ _ _

end Sys2Proof
end

section
/-!
Fetching: what a fetch answers where an instruction's bytes stand at CS:EIP, and what it leaves with paging
off.
-/

namespace Sys2Proof.Machine

/-- Segment translation of a fetch that lies inside the code segment (R128). -/
theorem segTranslate_fetch {s : State} {off : Word} (valid : s.pe = true → s.seg.cs.attr.valid = true)
    (inside : inLimit s.seg.cs off 1 = true) :
    segTranslate .cs off 1 .fetch s = .ok (s.seg.cs.base + off) s := by
  have valid : ¬(s.pe = true ∧ s.seg.cs.attr.valid = false) := fun ⟨pe, invalid⟩ => by
    simp [valid pe] at invalid
  simp [segTranslate, Segments.get, kindAllowed, inside, valid]

/-- Where no execution breakpoint stops the instruction, the check of its first byte changes nothing
(R322). -/
theorem instrBreakpoint_of_none {s : State} (h : NoExecutionBreakpoint s) :
    instrBreakpoint (s.seg.cs.base + s.eip) s = .ok () s := by
  refine if_neg fun ⟨hits, rf⟩ => ?_
  rcases h with noHits | resume
  · exact hits noHits
  · rw [resume] at rf
    cases rf

/-- A byte that stands at CS:EIP is fetched, and nothing changes (R201). -/
theorem fetchByte_placed {l : List Byte} {s : State} (placed : BytesAtEip l s)
    (unbroken : NoExecutionBreakpoint s) {j : Nat} (hj : j < l.length) : fetchByte j s = .ok l[j] s := by
  obtain ⟨pg, valid, bytes⟩ := placed
  obtain ⟨inside, byte⟩ := bytes j hj
  rw [List.getElem?_eq_getElem hj] at byte
  have checked : (if j = 0 then instrBreakpoint (s.seg.cs.base + (s.eip + BitVec.ofNat 32 j)) s
      else .ok () s) = .ok () s := by
    split
    · rename_i first
      rw [first, BitVec.add_zero]
      exact instrBreakpoint_of_none unbroken
    · rfl
  simp [fetchByte, segTranslate_fetch valid inside, checked, linTranslate_paging_off _ _ pg, span,
    physReadByte_of_byteAt byte]

/-- Where the bytes of an instruction stand at CS:EIP, a fetch that has read the first `k` of them and needs
more goes on to answer the instruction: by `decode_append` no shorter beginning means anything else. -/
theorem fetchInstr_placed {l : List Byte} {s : State} {i : Instr} (placed : BytesAtEip l s)
    (unbroken : NoExecutionBreakpoint s) (means : decode s.seg.cs.attr.d l = .instr i) {fuel k : Nat}
    (enough : l.length ≤ k + fuel) (more : decode s.seg.cs.attr.d (l.take k) = .more) :
    fetchInstr fuel (l.take k) s = .ok i s := by
  have hk : k < l.length := by
    by_contra all
    rw [List.take_of_length_le (by omega), means] at more
    cases more
  induction fuel generalizing k with
  | zero => omega
  | succ fuel ih =>
    have next : l.take k ++ [l[k]] = l.take (k + 1) := List.take_append_getElem hk
    rw [fetchInstr, List.length_take, Nat.min_eq_left hk.le, fetchByte_placed placed unbroken hk, bind_ok, next]
    by_cases more' : decode s.seg.cs.attr.d (l.take (k + 1)) = .more
    · have hk' : k + 1 < l.length := by
        by_contra all
        rw [List.take_of_length_le (by omega), means] at more'
        cases more'
      rw [more']
      exact ih (by omega) more' hk'
    · have settled := decode_append (l.drop (k + 1)) more'
      rw [List.take_append_drop, means] at settled
      rw [← settled]

/-- A running step is the fetch, the instruction's rule, and what follows every rule (R16). -/
theorem step_of_fetch {s t : State} {i : Instr} (running : Running s)
    (fetched : fetchInstr maxInstrBytes [] s = .ok i t) : step s = afterRule s.tf i.length (exec i t) := by
  obtain ⟨untrapped, notVirtual⟩ := running
  rw [step, untrapped, notVirtual, fetched]
  rfl

/-- Settles O10: the bytes are fetched by `fetchInstr_placed`, and mean the instruction by
`decode_encode`. -/
theorem stepRunsThePlacedInstruction : Obligations.StepRunsThePlacedInstruction := by
  intro s i running ⟨wf, placed⟩ unbroken
  have enough : (encode i).length ≤ 0 + maxInstrBytes := by
    rw [encode_length, Nat.zero_add]
    exact (length_le i).trans (by decide)
  exact step_of_fetch running (fetchInstr_placed (k := 0) placed unbroken (decode_encode wf) enough rfl)

/-- With paging off a fetched byte changes nothing (R201). -/
theorem fetchByte_ok_paging_off {j : Nat} {s t : State} {b : Byte} (pg : s.pg = false)
    (fetched : fetchByte j s = .ok b t) : t = s := by
  obtain ⟨la, u, segment, afterSegment⟩ := bind_eq_ok fetched
  obtain ⟨rfl, -⟩ := segTranslate_ok segment
  obtain ⟨_, v, check, afterCheck⟩ := bind_eq_ok afterSegment
  have checked : v = u := by
    unfold instrBreakpoint at check
    split_ifs at check <;> cases check <;> rfl
  rw [checked, linTranslate_paging_off _ _ pg (by decide)] at afterCheck
  exact (physReadByte_ok afterCheck).1

/-- With paging off a fetch changes nothing (R201). -/
theorem fetchInstr_ok_paging_off {fuel : Nat} {bytes : List Byte} {s t : State} {i : Instr}
    (pg : s.pg = false) (fetched : fetchInstr fuel bytes s = .ok i t) : t = s := by
  induction fuel generalizing bytes with
  | zero => cases fetched
  | succ fuel ih =>
    obtain ⟨b, u, byte, decoded⟩ := bind_eq_ok fetched
    rw [fetchByte_ok_paging_off pg byte] at decoded
    split at decoded
    · exact ih decoded
    · cases decoded
      rfl
    · cases decoded
    · cases decoded

/-- Settles O11: what the fetch can change is `fetchInstr_fetches`, which bytes it marks is
`fetchInstr_ok_marks`, what it answers is `decode_wf`. -/
theorem stepRunsTheFetchedInstruction : Obligations.StepRunsTheFetchedInstruction := by
  intro s t i fetched
  obtain ⟨l, decoded⟩ := fetchInstr_decoded fetched
  have walked : Walked s t := by
    have := fetchInstr_fetches maxInstrBytes [] s
    rw [fetched] at this
    exact this
  have nothingRead : ∀ k, k ≤ ([] : List Byte).length →
      decode s.seg.cs.attr.d (([] : List Byte).take k) = .more := fun k _ => by
    rw [List.take_nil]
    rfl
  obtain ⟨marks, -⟩ := fetchInstr_ok_marks (d := false)
    (las := (· ∈ span (s.seg.cs.base + s.eip) i.length)) nothingRead fetched fun _ ha => ha
  exact ⟨decode_wf decoded, walked.eq, marks.marked, fun pg => fetchInstr_ok_paging_off pg fetched,
    fun running => step_of_fetch running fetched⟩

end Sys2Proof.Machine
end

section
/-!
Reserved bits: a word holds nothing outside a mask.
-/

namespace Sys2Proof.Machine

/-- A bit of a word with the bits of a mask cleared. -/
theorem getLsbD_and_not (a mask : Word) (j : Nat) :
    (a &&& ~~~mask).getLsbD j = (a.getLsbD j && !mask.getLsbD j) := by
  by_cases word : j < 32
  · rw [BitVec.getLsbD_and, BitVec.getLsbD_not, decide_eq_true word, Bool.true_and]
  · rw [BitVec.getLsbD_of_ge _ _ (Nat.le_of_not_lt word), BitVec.getLsbD_of_ge a _ (Nat.le_of_not_lt word),
      Bool.false_and]

/-- `bitMask i` has bit `i` and no other. -/
theorem getLsbD_bitMask {i : Nat} (h : i < 32) (j : Nat) : (bitMask i).getLsbD j = decide (j = i) := by
  simp only [bitMask, BitVec.getLsbD_shiftLeft, BitVec.getLsbD_one]
  rw [Bool.eq_iff_iff]
  simp only [Bool.and_eq_true, Bool.not_eq_true', decide_eq_true_eq, decide_eq_false_iff_not]
  omega

/-- A word holds nothing outside a mask exactly where every set bit of it is one of the mask. -/
theorem and_not_eq_zero_iff {a mask : Word} :
    a &&& ~~~mask = 0 ↔ ∀ j, a.getLsbD j = true → mask.getLsbD j = true := by
  constructor
  · intro h j ha
    have bit : (a &&& ~~~mask).getLsbD j = false := by rw [h]; exact BitVec.getLsbD_zero
    rwa [getLsbD_and_not, ha, Bool.true_and, Bool.not_eq_false'] at bit
  · intro h
    apply BitVec.eq_of_getLsbD_eq
    intro j _
    rw [getLsbD_and_not]
    cases ha : a.getLsbD j
    · rw [Bool.false_and]; exact BitVec.getLsbD_zero.symm
    · rw [h j ha, Bool.not_true, Bool.and_false]; exact BitVec.getLsbD_zero.symm

theorem or_and_not_eq_zero {a b mask : Word} (ha : a &&& ~~~mask = 0) (hb : b &&& ~~~mask = 0) :
    (a ||| b) &&& ~~~mask = 0 := by
  rw [and_not_eq_zero_iff] at *
  intro j hj
  rw [BitVec.getLsbD_or, Bool.or_eq_true] at hj
  exact hj.elim (ha j) (hb j)

theorem and_left_and_not_eq_zero {a mask : Word} (b : Word) (ha : a &&& ~~~mask = 0) :
    a &&& b &&& ~~~mask = 0 := by
  rw [and_not_eq_zero_iff] at *
  intro j hj
  rw [BitVec.getLsbD_and, Bool.and_eq_true] at hj
  exact ha j hj.1

/-- A word with nothing outside a mask holds nothing outside a wider one. -/
theorem and_not_eq_zero_mono {a mask wider : Word} (h : a &&& ~~~mask = 0) (le : mask &&& ~~~wider = 0) :
    a &&& ~~~wider = 0 := by
  rw [and_not_eq_zero_iff] at *
  exact fun j hj => le j (h j hj)

/-- Bit `j` of the mask of the breakpoints that are not enabled is that of breakpoint `j` (R327). -/
theorem getLsbD_disabledMask {dr7 : Word} {j : Nat} (h : (disabledMask dr7).getLsbD j = true) :
    ∃ i : Fin 4, i.val = j ∧ enabledIn dr7 i = false := by
  have bit : ∀ i : Fin 4, (if enabledIn dr7 i then 0 else bitMask i.val).getLsbD j = true →
      i.val = j ∧ enabledIn dr7 i = false := by
    intro i hi
    split at hi
    · simp at hi
    · rename_i disabled
      rw [getLsbD_bitMask (by omega), decide_eq_true_eq] at hi
      exact ⟨hi.symm, Bool.eq_false_iff.2 disabled⟩
  simp only [disabledMask, BitVec.getLsbD_or, Bool.or_eq_true] at h
  rcases h with ((h | h) | h) | h
  · exact ⟨0, bit 0 h⟩
  · exact ⟨1, bit 1 h⟩
  · exact ⟨2, bit 2 h⟩
  · exact ⟨3, bit 3 h⟩

/-- That mask holds none of the reserved bits of DR6. -/
theorem disabledMask_reserved (dr7 : Word) : disabledMask dr7 &&& ~~~dr6Defined = 0 := by
  rw [and_not_eq_zero_iff]
  intro j hj
  obtain ⟨i, rfl, -⟩ := getLsbD_disabledMask hj
  have low : ∀ i : Fin 4, dr6Defined.getLsbD i.val = true := by decide
  exact low i

end Sys2Proof.Machine
end

section
/-!
The system registers that rules name the writers of: CR0 with the count of PG changes, CR2, DR6, DR7 and the
exception raised. What each part of a step does to them, and the step as its three phases.
-/

namespace Sys2Proof.Machine

/-- CR0, the count of PG changes, CR2, DR6, DR7 and the exception raised. -/
def State.system (s : State) : Word × Nat × Word × Word × Word × Option Trap :=
  (s.cr0, s.pgChanges, s.cr2, s.dr6, s.dr7, s.trapped)

/-- The writers of CR0: CLTS, MOV CR0 and LMSW. -/
def WritesCr0 (i : Instr) : Prop :=
  (∃ p, i = .clts p) ∨ (∃ p rm, i = .movCr0R32 p rm) ∨ ∃ p o, i = .lmsw p o

/-- Which system registers a completed instruction may change: each has its one instruction, CR0 three. -/
structure SystemWrites (i : Instr) (s t : State) : Prop where
  trapped : t.trapped = s.trapped
  cr0 : t.cr0 = s.cr0 ∨ WritesCr0 i
  pgChanges : t.pgChanges = s.pgChanges ∨ ∃ p rm, i = .movCr0R32 p rm
  cr2 : t.cr2 = s.cr2 ∨ ∃ p rm, i = .movCr2R32 p rm
  dr6 : t.dr6 = s.dr6 ∨ ∃ p rm, i = .movDr6R32 p rm
  dr7 : t.dr7 = s.dr7 ∨ ∃ p rm, i = .movDr7R32 p rm

theorem SystemWrites.of_same (i : Instr) {s t : State} (h : t.system = s.system) : SystemWrites i s t := by
  simp only [State.system, Prod.mk.injEq] at h
  obtain ⟨cr0, pgChanges, cr2, dr6, dr7, trapped⟩ := h
  exact ⟨trapped, .inl cr0, .inl pgChanges, .inl cr2, .inl dr6, .inl dr7⟩

theorem Walked.system {s t : State} (h : Walked s t) : t.system = s.system :=
  (congrArg State.system h.eq).trans rfl

theorem Touched.system {s t : State} (h : Touched s t) : t.system = s.system :=
  (congrArg State.system h.eq).trans rfl

theorem ToReg.system {rm : Reg} {s t : State} (h : ToReg rm s t) : t.system = s.system := by
  obtain ⟨v, u, rfl | rfl, rfl⟩ := h <;> rfl

theorem writeCr3_system (v : Word) (s : State) : (writeCr3 v s).system = s.system :=
  (congrArg State.system (writeCr3_frame v s)).trans rfl

/-- A completed instruction writes the system registers that name it as their writer, and no other. -/
theorem Done.systemWrites {i : Instr} {s t : State} (h : Done i s t) : SystemWrites i s t := by
  cases i with
  | movR32Cr0 | movR32Cr2 | movR32Cr3 | movR32Dr0 | movR32Dr1 | movR32Dr2 | movR32Dr3 | movR32Dr6
  | movR32Dr7 => exact .of_same _ (ToReg.system h)
  | movDr0R32 | movDr1R32 | movDr2R32 | movDr3R32 =>
    obtain rfl := h
    exact .of_same _ rfl
  | clts p =>
    obtain rfl := h
    exact ⟨rfl, .inr (.inl ⟨p, rfl⟩), .inl rfl, .inl rfl, .inl rfl, .inl rfl⟩
  | movCr0R32 p rm =>
    obtain ⟨-, -, rfl⟩ := h
    exact ⟨rfl, .inr (.inr (.inl ⟨p, rm, rfl⟩)), .inr ⟨p, rm, rfl⟩, .inl rfl, .inl rfl, .inl rfl⟩
  | movCr2R32 p rm =>
    obtain rfl := h
    exact ⟨rfl, .inl rfl, .inl rfl, .inr ⟨p, rm, rfl⟩, .inl rfl, .inl rfl⟩
  | movCr3R32 p rm =>
    obtain rfl := h
    exact .of_same _ (writeCr3_system (s.reg rm) s)
  | movDr6R32 p rm =>
    obtain rfl := h
    exact ⟨rfl, .inl rfl, .inl rfl, .inl rfl, .inr ⟨p, rm, rfl⟩, .inl rfl⟩
  | movDr7R32 p rm =>
    obtain rfl := h
    exact ⟨rfl, .inl rfl, .inl rfl, .inl rfl, .inl rfl, .inr ⟨p, rm, rfl⟩⟩
  | smsw p o =>
    cases o with
    | reg r =>
      obtain rfl := h
      exact .of_same _ ((congrArg State.system (storeMswReg_frame p r s)).trans rfl)
    | mem m => exact .of_same _ (Touched.system h)
  | lmsw p o =>
    obtain ⟨src, u, touched, rfl⟩ := h
    have same := touched.system
    simp only [State.system, Prod.mk.injEq] at same
    obtain ⟨-, pgChanges, cr2, dr6, dr7, trapped⟩ := same
    exact ⟨trapped, .inr (.inr (.inr ⟨p, o, rfl⟩)), .inl pgChanges, .inl cr2, .inl dr6, .inl dr7⟩
  | _ => exact h.elim

theorem ExecTrap.trapped {s t : State} (h : ExecTrap s t) : t.trapped.isSome = true := by
  cases h with
  | gp _ eq | gd _ _ eq | nm _ eq => rw [eq]; rfl
  | memory trap =>
    obtain ⟨x, e, u, -, ⟨-, la, rfl⟩ | ⟨-, rfl⟩⟩ := trap.ex <;> rfl

/-- Everything a step can do that answers a next state, by the phase that ends it: the fetch raises an
exception, the instruction's rule does, or the instruction completes and its traps are reported (R16). -/
theorem step_phases {s t : State} (h : step s = .next t) :
    FetchTrap s t ∨
      ∃ i u, fetchInstr maxInstrBytes [] s = .ok i u ∧ Walked s u ∧
        (ExecTrap u t ∨
          ∃ v, exec i u = .next v ∧ v.trapped = none ∧ Done i u v ∧
            t = reportTraps s.tf { v with eip := v.eip + BitVec.ofNat 32 i.length }) := by
  obtain ⟨⟨running, -⟩, trap | ⟨i, u, fetched, walked, v, ran, ended⟩⟩ := step_cases h
  · exact .inl trap
  refine .inr ⟨i, u, fetched, walked, ?_⟩
  rcases exec_cases ran with trap | ⟨-, done⟩
  · rcases ended with ⟨-, rfl⟩ | ⟨untrapped, -⟩
    · exact .inl trap
    · have := trap.trapped
      simp [untrapped] at this
  · have untrapped : v.trapped = none := by
      rw [done.systemWrites.trapped, walked.eq]
      exact running
    rcases ended with ⟨trapped, -⟩ | ⟨-, -, completed⟩
    · simp [untrapped] at trapped
    · exact .inr ⟨v, ran, untrapped, done, completed⟩

/-- The conditions that the end of a step reports: those pending, and the single step (R333). -/
def trapConditions (tf : Bool) (s : State) : Word := if tf then s.pendingDb ||| bsMask else s.pendingDb

/-- The end of a completed step clears RF and, where there are conditions to report, takes one debug trap with
them (R333). -/
theorem reportTraps_cases (tf : Bool) (s : State) :
    (trapConditions tf s = 0 ∧ reportTraps tf s = s.clearRf) ∨
      reportTraps tf s =
        debugException .trap (trapConditions tf s)
          { s.clearRf with pendingDb := trapConditions tf s } := by
  by_cases none : trapConditions tf s = 0
  · exact .inl ⟨none, if_pos none⟩
  · exact .inr (if_neg none)

end Sys2Proof.Machine
end

section
/-!
The invariant inside a step: all of `Inv`, with the conditions B0 to B3 allowed to be pending. Every part of a
step keeps it, and the end of a step, an exception or a completion, leaves nothing pending.
-/

namespace Sys2Proof.Machine

/-- The clauses of `Inv`, of the parts of a state that they are about, where conditions may be pending that
DR6 has a bit for. -/
structure InOrder (mem : List Host.Cell) (tlb : List TlbEntry) (cr0 dr6 dr7 pending : Word)
    (pgChanges : Nat) : Prop where
  memory : memoryWf mem = true
  tlb : TlbOk tlb
  cr0Reserved : cr0 &&& ~~~cr0Defined = 0
  dr6Reserved : dr6 &&& ~~~dr6Defined = 0
  dr7Reserved : dr7 &&& ~~~dr7Defined = 0
  pendingReserved : pending &&& ~~~dr6Defined = 0
  pagingProtected : cr0.getLsbD 31 = true → cr0.getLsbD 0 = true
  pgOnce : pgChanges ≤ 1

/-- The invariant inside a step. -/
def MidStep (s : State) : Prop := InOrder s.mem s.tlb s.cr0 s.dr6 s.dr7 s.pendingDb s.pgChanges

/-- Between steps the invariant is that inside a step with nothing pending. -/
theorem inv_iff {s : State} : Inv s ↔ MidStep s ∧ s.pendingDb = 0 := by
  constructor
  · intro h
    exact ⟨⟨h.memory, ⟨h.tlbSize, h.tlbPages⟩, h.cr0Reserved, h.dr6Reserved, h.dr7Reserved,
      by rw [h.nothingPending]; exact BitVec.zero_and, h.pagingProtected, h.pgOnce⟩, h.nothingPending⟩
  · rintro ⟨h, nothingPending⟩
    exact ⟨h.memory, h.tlb.1, h.tlb.2, h.cr0Reserved, h.dr6Reserved, h.dr7Reserved, nothingPending,
      h.pagingProtected, h.pgOnce⟩

theorem Touched.midStep {s t : State} (h : Touched s t) (hs : MidStep s) : MidStep t := by
  obtain ⟨b, pending⟩ := h.pending
  have bits : t.pendingDb &&& ~~~dr6Defined = 0 := by
    have low : b &&& 0xF &&& ~~~dr6Defined = 0 :=
      and_not_eq_zero_mono (and_and_not_self b 0xF) (by decide)
    rw [pending]
    exact or_and_not_eq_zero hs.pendingReserved low
  rw [h.eq]
  exact { hs with memory := h.mem hs.memory, tlb := h.tlb hs.tlb, pendingReserved := bits }

theorem Walked.midStep {s t : State} (h : Walked s t) (hs : MidStep s) : MidStep t :=
  h.touched.midStep hs

/-- Taking an exception leaves nothing pending (R324). -/
theorem takeException_inv (x : Exc) (c : ExcClass) (e : ErrorCode) {s : State} (hs : MidStep s) :
    Inv (takeException x c e s) :=
  inv_iff.2 ⟨{ hs with pendingReserved := BitVec.zero_and }, rfl⟩

/-- The debug exception keeps DR6 to its defined bits, where its causes are some of them (R44). -/
theorem debugException_inv (c : ExcClass) {b : Word} {s : State} (hs : MidStep s)
    (bits : b &&& ~~~dr6Defined = 0) : Inv (debugException c b s) := by
  refine takeException_inv .db c .none ?_
  have other : s.drawn &&& disabledMask s.dr7 &&& ~~~dr6Defined = 0 := by
    rw [BitVec.and_comm s.drawn]
    exact and_left_and_not_eq_zero _ (disabledMask_reserved s.dr7)
  exact { hs with
    dr6Reserved := or_and_not_eq_zero (or_and_not_eq_zero hs.dr6Reserved bits) other
    dr7Reserved := and_left_and_not_eq_zero _ hs.dr7Reserved }

theorem MemoryTrap.inv {s t : State} (h : MemoryTrap s t) (hs : MidStep s) : Inv t := by
  obtain ⟨x, e, u, touched, ⟨-, la, rfl⟩ | ⟨-, rfl⟩⟩ := h.ex
  · exact takeException_inv x .fault e (s := { u with cr2 := la }) (touched.midStep hs)
  · exact takeException_inv x .fault e (touched.midStep hs)

theorem FetchTrap.inv {s t : State} (h : FetchTrap s t) (hs : MidStep s) : Inv t := by
  cases h with
  | memory trap => exact trap.inv hs
  | lock u walked eq =>
    rw [eq]
    exact takeException_inv _ _ _ (walked.midStep hs)
  | breakpoint b u bits walked eq =>
    rw [eq]
    exact debugException_inv _ (walked.midStep hs) (and_not_eq_zero_mono bits (by decide))

theorem ExecTrap.inv {s t : State} (h : ExecTrap s t) (hs : MidStep s) : Inv t := by
  cases h with
  | gp _ eq | nm _ eq =>
    rw [eq]
    exact takeException_inv _ _ _ hs
  | gd _ _ eq =>
    rw [eq]
    exact debugException_inv _ hs (by decide)
  | memory trap => exact trap.inv hs

theorem writeCr0_pg (v : Word) (s : State) : (writeCr0 v s).pg = v.getLsbD 31 := by
  simp [State.pg, cr0Defined]

theorem writeCr0_pe (v : Word) (s : State) : (writeCr0 v s).pe = v.getLsbD 0 := by
  simp [State.pe, cr0Defined]

/-- CLTS changes no bit of CR0 but TS (R240). -/
theorem getLsbD_clearTs (cr0 : Word) {j : Nat} (h : j ≠ 3) :
    (cr0 &&& ~~~bitMask 3).getLsbD j = cr0.getLsbD j := by
  rw [getLsbD_and_not, getLsbD_bitMask (by decide), decide_eq_false h, Bool.not_false, Bool.and_true]

/-- A write of CR0 that the tests of MOV CR0 let through: reserved bits are stored as 0, PG asks for PE, and
a change of PG is the first (R30, R234, R242). -/
theorem writeCr0_midStep {v : Word} {s : State} (hs : MidStep s)
    (guarded : v.getLsbD 31 = true → v.getLsbD 0 = true) (once : v.getLsbD 31 = s.pg ∨ s.pgChanges = 0) :
    MidStep (writeCr0 v s) := by
  have pg : (writeCr0 v s).cr0.getLsbD 31 = v.getLsbD 31 := writeCr0_pg v s
  have pe : (writeCr0 v s).cr0.getLsbD 0 = v.getLsbD 0 := writeCr0_pe v s
  refine { hs with cr0Reserved := and_and_not_self v cr0Defined, pagingProtected := ?_, pgOnce := ?_ }
  · rwa [pg, pe]
  · rw [writeCr0_pgChanges]
    split
    · exact hs.pgOnce
    · rename_i changes
      rw [once.resolve_left changes]

/-- LMSW writes defined bits of CR0 only, and never clears PE (R238). -/
theorem writeMsw_midStep (v : Half) {s : State} (hs : MidStep s) : MidStep (writeMsw v s) := by
  refine { hs with cr0Reserved := and_not_eq_zero_iff.2 fun j hj => ?_, pagingProtected := fun pg => ?_ }
  · have low : ∀ j < 4, cr0Defined.getLsbD j = true := by decide
    by_cases hlow : j < 4
    · exact low j hlow
    · rw [getLsbD_writeMsw, if_neg (by omega), if_neg hlow] at hj
      exact and_not_eq_zero_iff.1 hs.cr0Reserved j hj
  · have pg : s.cr0.getLsbD 31 = true := by rwa [getLsbD_writeMsw] at pg
    rw [getLsbD_writeMsw, if_pos rfl, hs.pagingProtected pg, Bool.true_or]

/-- CLTS clears a bit of CR0 that is neither PE nor PG (R240). -/
theorem clearTs_midStep {s : State} (hs : MidStep s) : MidStep { s with cr0 := s.cr0 &&& ~~~bitMask 3 } := by
  refine { hs with cr0Reserved := and_left_and_not_eq_zero _ hs.cr0Reserved, pagingProtected := ?_ }
  rw [getLsbD_clearTs s.cr0 (by decide), getLsbD_clearTs s.cr0 (by decide)]
  exact hs.pagingProtected

/-- An emptied TLB is in order (R161). -/
theorem writeCr3_midStep (v : Word) {s : State} (hs : MidStep s) : MidStep (writeCr3 v s) := by
  have empty : TlbOk [] := ⟨Nat.zero_le _, List.nodup_nil⟩
  rw [writeCr3_frame]
  exact { hs with tlb := empty }

theorem ToReg.midStep {rm : Reg} {s t : State} (h : ToReg rm s t) (hs : MidStep s) : MidStep t := by
  obtain ⟨v, u, rfl | rfl, rfl⟩ := h <;> exact hs

/-- A completed instruction keeps the invariant inside a step. -/
theorem Done.midStep {i : Instr} {s t : State} (h : Done i s t) (hs : MidStep s) : MidStep t := by
  cases i with
  | movR32Cr0 | movR32Cr2 | movR32Cr3 | movR32Dr0 | movR32Dr1 | movR32Dr2 | movR32Dr3 | movR32Dr6
  | movR32Dr7 => exact ToReg.midStep h hs
  | movCr2R32 | movDr0R32 | movDr1R32 | movDr2R32 | movDr3R32 =>
    obtain rfl := h
    exact hs
  | clts =>
    obtain rfl := h
    exact clearTs_midStep hs
  | movCr0R32 =>
    obtain ⟨guarded, once, rfl⟩ := h
    exact writeCr0_midStep hs guarded once
  | movCr3R32 p rm =>
    obtain rfl := h
    exact writeCr3_midStep (s.reg rm) hs
  | movDr6R32 p rm =>
    obtain rfl := h
    exact { hs with dr6Reserved := and_and_not_self (s.reg rm) dr6Defined }
  | movDr7R32 p rm =>
    obtain rfl := h
    exact { hs with dr7Reserved := and_and_not_self (s.reg rm) dr7Defined }
  | smsw p o =>
    cases o with
    | reg r =>
      obtain rfl := h
      rw [storeMswReg_frame]
      exact hs
    | mem m => exact Touched.midStep h hs
  | lmsw p o =>
    obtain ⟨src, u, touched, rfl⟩ := h
    exact writeMsw_midStep src (touched.midStep hs)
  | _ => exact h.elim

/-- The end of a completed step reports what is pending, so that nothing is after it (R333). -/
theorem reportTraps_inv (tf : Bool) {s : State} (hs : MidStep s) : Inv (reportTraps tf s) := by
  rcases reportTraps_cases tf s with ⟨none, eq⟩ | eq
  · have nothingPending : s.pendingDb = 0 := by
      unfold trapConditions at none
      split at none
      · exact (BitVec.or_eq_zero_iff.1 none).1
      · exact none
    rw [eq]
    exact inv_iff.2 ⟨hs, nothingPending⟩
  · have bits : trapConditions tf s &&& ~~~dr6Defined = 0 := by
      unfold trapConditions
      split
      · exact or_and_not_eq_zero hs.pendingReserved (by decide)
      · exact hs.pendingReserved
    rw [eq]
    exact debugException_inv .trap { hs with pendingReserved := bits } bits

/-- Settles O53: each phase that can end a step keeps the invariant. -/
theorem stepKeepsTheInvariant : Obligations.StepKeepsTheInvariant := by
  intro s t inv h
  have hs : MidStep s := (inv_iff.1 inv).1
  rcases step_phases h with trap | ⟨i, u, -, walked, trap | ⟨v, -, -, done, rfl⟩⟩
  · exact trap.inv hs
  · exact trap.inv (walked.midStep hs)
  · exact reportTraps_inv s.tf (done.midStep (walked.midStep hs))

end Sys2Proof.Machine
end

section
/-!
The writers of the system registers: what the debug exception and the end of a step do to them, and which
instruction ran where one of them changed otherwise.
-/

namespace Sys2Proof.Machine

/-- What an exception or the end of a completed step can do to the system registers: a page fault loads CR2, a
debug exception adds to DR6 and clears GD. -/
structure StepEnd (s t : State) : Prop where
  cr0 : t.cr0 = s.cr0
  pgChanges : t.pgChanges = s.pgChanges
  cr2 : t.cr2 = s.cr2 ∨ ∃ e, t.trapped = some { exc := .pf, cls := .fault, err := e }
  dr6 : ∀ j, s.dr6.getLsbD j = true → t.dr6.getLsbD j = true
  dr7 : t.dr7 = s.dr7 ∨
    t.dr7 = s.dr7 &&& ~~~gdMask ∧ ∃ c, t.trapped = some { exc := .db, cls := c, err := .none }

/-- The end of a step is one of the state before it, where that has the same system registers. -/
theorem StepEnd.before {s u t : State} (h : StepEnd u t) (same : u.system = s.system) : StepEnd s t := by
  simp only [State.system, Prod.mk.injEq] at same
  obtain ⟨cr0, pgChanges, cr2, dr6, dr7, -⟩ := same
  obtain ⟨cr0', pgChanges', cr2', dr6', dr7'⟩ := h
  rw [cr0] at cr0'
  rw [pgChanges] at pgChanges'
  rw [cr2] at cr2'
  rw [dr6] at dr6'
  rw [dr7] at dr7'
  exact ⟨cr0', pgChanges', cr2', dr6', dr7'⟩

theorem takeException_stepEnd (x : Exc) (c : ExcClass) (e : ErrorCode) (s : State) :
    StepEnd s (takeException x c e s) :=
  ⟨rfl, rfl, .inl rfl, fun _ => id, .inl rfl⟩

/-- The debug exception keeps every set bit of DR6 and sets those of its causes (R43, R331). -/
theorem getLsbD_debugException_dr6 (c : ExcClass) (b : Word) (s : State) (j : Nat) :
    (debugException c b s).dr6.getLsbD j =
      ((s.dr6 ||| b).getLsbD j || s.drawn.getLsbD j && (disabledMask s.dr7).getLsbD j) := by
  rw [debugException_dr6, BitVec.getLsbD_or, BitVec.getLsbD_and]

theorem debugException_stepEnd (c : ExcClass) (b : Word) (s : State) : StepEnd s (debugException c b s) := by
  refine ⟨rfl, rfl, .inl rfl, fun j hj => ?_, .inr ⟨rfl, c, rfl⟩⟩
  rw [getLsbD_debugException_dr6, BitVec.getLsbD_or, hj, Bool.true_or, Bool.true_or]

theorem MemoryTrap.stepEnd {s t : State} (h : MemoryTrap s t) : StepEnd s t := by
  obtain ⟨x, e, u, touched, ⟨rfl, la, rfl⟩ | ⟨-, rfl⟩⟩ := h.ex
  · exact StepEnd.before (u := u) ⟨rfl, rfl, .inr ⟨e, rfl⟩, fun _ => id, .inl rfl⟩ touched.system
  · exact (takeException_stepEnd _ _ _ u).before touched.system

theorem FetchTrap.stepEnd {s t : State} (h : FetchTrap s t) : StepEnd s t := by
  cases h with
  | memory trap => exact trap.stepEnd
  | lock u walked eq =>
    rw [eq]
    exact (takeException_stepEnd _ _ _ u).before walked.system
  | breakpoint b u _ walked eq =>
    rw [eq]
    exact (debugException_stepEnd _ b u).before walked.system

theorem ExecTrap.stepEnd {s t : State} (h : ExecTrap s t) : StepEnd s t := by
  cases h with
  | gp _ eq | nm _ eq =>
    rw [eq]
    exact takeException_stepEnd _ _ _ s
  | gd _ _ eq =>
    rw [eq]
    exact debugException_stepEnd _ _ s
  | memory trap => exact trap.stepEnd

theorem reportTraps_stepEnd (tf : Bool) (s : State) : StepEnd s (reportTraps tf s) := by
  rcases reportTraps_cases tf s with ⟨-, eq⟩ | eq
  · rw [eq]
    exact ⟨rfl, rfl, .inl rfl, fun _ => id, .inl rfl⟩
  · rw [eq]
    exact (debugException_stepEnd .trap _ { s.clearRf with pendingDb := trapConditions tf s }).before rfl

/-- What a step does to the system registers: it ends in an exception before an instruction completes, or the
instruction it fetched completes, in a state with the same system registers, and the step ends. -/
theorem step_system {s t : State} (h : step s = .next t) :
    StepEnd s t ∨
      ∃ i u v, fetchInstr maxInstrBytes [] s = .ok i u ∧ u.system = s.system ∧ exec i u = .next v ∧
        v.trapped = none ∧ Done i u v ∧ StepEnd v t := by
  rcases step_phases h with trap | ⟨i, u, fetched, walked, trap | ⟨v, ran, untrapped, done, rfl⟩⟩
  · exact .inl trap.stepEnd
  · exact .inl (trap.stepEnd.before walked.system)
  · exact .inr ⟨i, u, v, fetched, walked.system, ran, untrapped, done,
      (reportTraps_stepEnd s.tf { v with eip := v.eip + BitVec.ofNat 32 i.length }).before rfl⟩

/-- Only MOV CR0 changes PG, only as its first change, and the change is counted (R234, R242). -/
theorem Done.pg {i : Instr} {s t : State} (h : Done i s t) (changes : t.pg ≠ s.pg) :
    (∃ p rm, i = .movCr0R32 p rm) ∧ s.pgChanges = 0 ∧ t.pgChanges = 1 := by
  rcases h.systemWrites.cr0 with same | ⟨p, rfl⟩ | ⟨p, rm, rfl⟩ | ⟨p, o, rfl⟩
  · exact absurd (congrArg (·.getLsbD 31) same) changes
  · obtain rfl := h
    exact absurd (getLsbD_clearTs s.cr0 (by decide)) changes
  · obtain ⟨-, once, rfl⟩ := h
    have changes : (s.reg rm).getLsbD 31 ≠ s.pg := fun same =>
      changes ((writeCr0_pg (s.reg rm) s).trans same)
    have first : s.pgChanges = 0 := once.resolve_left changes
    refine ⟨⟨p, rm, rfl⟩, first, ?_⟩
    rw [undefineStatus_pgChanges, writeCr0_pgChanges, if_neg changes, first]
  · obtain ⟨src, u, touched, rfl⟩ := h
    refine absurd ?_ changes
    calc (writeMsw src u).pg
      _ = u.pg := getLsbD_writeMsw src u 31
      _ = s.pg := by rw [touched.eq]; rfl

/-- Only MOV CR0 clears PE (R29, R238). -/
theorem Done.pe_cleared {i : Instr} {s t : State} (h : Done i s t) (before : s.pe = true)
    (after : t.pe = false) : ∃ p rm, i = .movCr0R32 p rm := by
  rcases h.systemWrites.cr0 with same | ⟨p, rfl⟩ | writer | ⟨p, o, rfl⟩
  · have : t.pe = s.pe := congrArg (·.getLsbD 0) same
    simp [this, before] at after
  · obtain rfl := h
    have : s.pe = false := (getLsbD_clearTs s.cr0 (by decide)).symm.trans after
    simp [this] at before
  · exact writer
  · obtain ⟨src, u, touched, rfl⟩ := h
    have pe : u.pe = s.pe := by rw [touched.eq]; rfl
    simp [writeMsw_pe, pe, before] at after

/-- Only MOV CR0 and LMSW set PE (R234, R238). -/
theorem Done.pe_set {i : Instr} {s t : State} (h : Done i s t) (before : s.pe = false)
    (after : t.pe = true) : (∃ p rm, i = .movCr0R32 p rm) ∨ ∃ p o, i = .lmsw p o := by
  rcases h.systemWrites.cr0 with same | ⟨p, rfl⟩ | writer
  · have : t.pe = s.pe := congrArg (·.getLsbD 0) same
    simp [this, before] at after
  · obtain rfl := h
    have : s.pe = true := (getLsbD_clearTs s.cr0 (by decide)).symm.trans after
    simp [this] at before
  · exact writer

/-- Settles O57: the end of a step keeps CR0, so that a change of it is the completed instruction's. -/
theorem controlBitsHaveTheirWriters : Obligations.ControlBitsHaveTheirWriters := by
  intro s t h
  rcases step_system h with ended | ⟨i, u, v, fetched, same, -, -, done, ended⟩
  · have bit : ∀ j, t.cr0.getLsbD j = s.cr0.getLsbD j := fun j => by rw [ended.cr0]
    refine ⟨fun changes => absurd (bit 31) changes, fun before after => ?_, fun before after => ?_,
      fun changes => absurd (bit 3) changes⟩
    · exact absurd before (Bool.eq_false_iff.1 ((bit 0).symm.trans after))
    · exact absurd ((bit 0).symm.trans after) (Bool.eq_false_iff.1 before)
  · simp only [State.system, Prod.mk.injEq] at same
    obtain ⟨cr0, pgChanges, -⟩ := same
    have before : ∀ j, u.cr0.getLsbD j = s.cr0.getLsbD j := fun j => by rw [cr0]
    have after : ∀ j, v.cr0.getLsbD j = t.cr0.getLsbD j := fun j => by rw [ended.cr0]
    refine ⟨fun changes => ?_, fun set cleared => ?_, fun clear set => ?_, fun changes => ?_⟩
    · have changes : v.pg ≠ u.pg := fun keeps =>
        changes ((after 31).symm.trans (keeps.trans (before 31)))
      obtain ⟨writer, first, counted⟩ := done.pg changes
      exact ⟨⟨i, u, fetched, writer⟩, pgChanges ▸ first, ended.pgChanges.trans counted⟩
    · exact ⟨i, u, fetched, done.pe_cleared ((before 0).trans set) ((after 0).trans cleared)⟩
    · exact ⟨i, u, fetched, done.pe_set ((before 0).trans clear) ((after 0).trans set)⟩
    · have changed : v.cr0 ≠ u.cr0 := fun keeps =>
        changes (by rw [State.ts, State.ts, ← after, ← before, keeps])
      exact ⟨i, u, fetched, done.systemWrites.cr0.resolve_left changed⟩

/-- Where GD is set MOV DR7 ends in an exception (R260). -/
theorem exec_movDr7_of_gd {p : Prefixes} {rm : Reg} {s t : State} (gd : s.gd = true)
    (h : exec (.movDr7R32 p rm) s = .next t) : ExecTrap s t := by
  rcases debugAccess_next h with ⟨unprivileged, eq⟩ | ⟨privileged, -, eq⟩ | ⟨-, clear, -⟩
  · exact .gp unprivileged eq
  · exact .gd privileged gd eq
  · simp [gd] at clear

/-- The end of a step changes no bit of DR7 but GD. -/
theorem StepEnd.getLsbD_dr7 {s t : State} (h : StepEnd s t) {j : Nat} (hj : j ≠ 13) :
    t.dr7.getLsbD j = s.dr7.getLsbD j := by
  rcases h.dr7 with same | ⟨cleared, -⟩
  · rw [same]
  · rw [cleared, show gdMask = bitMask 13 from rfl, getLsbD_and_not, getLsbD_bitMask (by decide),
      decide_eq_false hj, Bool.not_false, Bool.and_true]

/-- The end of a step never sets GD. -/
theorem StepEnd.gd_of_gd {s t : State} (h : StepEnd s t) (after : t.gd = true) : s.gd = true := by
  rcases h.dr7 with same | ⟨cleared, -⟩
  · rwa [State.gd, same] at after
  · rw [State.gd, cleared, BitVec.getLsbD_and, Bool.and_eq_true] at after
    exact after.1

/-- The end of a step clears GD by exception 1 alone (R330). -/
theorem StepEnd.gd_cleared {s t : State} (h : StepEnd s t) (before : s.gd = true) (after : t.gd = false) :
    ∃ c, t.trapped = some { exc := .db, cls := c, err := .none } := by
  rcases h.dr7 with same | ⟨-, taken⟩
  · rw [State.gd, same] at after
    exact absurd before (Bool.eq_false_iff.1 after)
  · exact taken

/-- Settles O58: the end of a step only adds to DR6 and only clears GD of DR7; the rest are the writes of the
completed instruction, and MOV DR7 does not complete with GD set. -/
theorem debugRegistersHaveTheirWriters : Obligations.DebugRegistersHaveTheirWriters := by
  intro s t h
  rcases step_system h with ended | ⟨i, u, v, fetched, same, ran, untrapped, done, ended⟩
  · refine ⟨fun j set cleared => ?_, fun j hj changes => absurd (ended.getLsbD_dr7 hj) changes,
      fun clear set => ?_, ended.gd_cleared⟩
    · exact absurd (ended.dr6 j set) (Bool.eq_false_iff.1 cleared)
    · exact absurd (ended.gd_of_gd set) (Bool.eq_false_iff.1 clear)
  · simp only [State.system, Prod.mk.injEq] at same
    obtain ⟨-, -, -, dr6, dr7, -⟩ := same
    have gd : u.gd = s.gd := by rw [State.gd, State.gd, dr7]
    refine ⟨fun j set cleared => ?_, fun j hj changes => ?_, fun clear set => ?_, fun set cleared => ?_⟩
    · refine ⟨i, u, fetched, done.systemWrites.dr6.resolve_left fun keeps => ?_⟩
      rw [← dr6, ← keeps] at set
      exact absurd (ended.dr6 j set) (Bool.eq_false_iff.1 cleared)
    · refine ⟨i, u, fetched, done.systemWrites.dr7.resolve_left fun keeps => changes ?_⟩
      rw [ended.getLsbD_dr7 hj, keeps, dr7]
    · refine ⟨i, u, fetched, done.systemWrites.dr7.resolve_left fun keeps => ?_⟩
      have set : v.gd = true := ended.gd_of_gd set
      rw [State.gd, keeps, dr7] at set
      exact absurd set (Bool.eq_false_iff.1 clear)
    · have setThen : u.gd = true := gd.trans set
      rcases done.systemWrites.dr7 with keeps | ⟨p, rm, rfl⟩
      · have setAfter : v.gd = true := by rwa [State.gd, keeps]
        exact ended.gd_cleared setAfter cleared
      · have := (exec_movDr7_of_gd setThen ran).trapped
        simp [untrapped] at this

/-- Settles O59: the end of a step changes CR2 by a page fault alone, a completed instruction by being
MOV CR2. -/
theorem pageFaultAddressHasItsWriters : Obligations.PageFaultAddressHasItsWriters := by
  intro s t h changes
  rcases step_system h with ended | ⟨i, u, v, fetched, same, -, -, done, ended⟩
  · exact .inl (ended.cr2.resolve_left changes)
  · simp only [State.system, Prod.mk.injEq] at same
    obtain ⟨-, -, cr2, -⟩ := same
    rcases ended.cr2 with keeps | fault
    · refine .inr ⟨i, u, fetched, done.systemWrites.cr2.resolve_left fun keeps' => changes ?_⟩
      rw [keeps, keeps', cr2]
    · exact .inl fault

/-- Settles O15: the bits of DR6 are `getLsbD_debugException_dr6`, the free ones those of
`getLsbD_disabledMask`; the rest is the definition. -/
theorem debugExceptionRecordsItsCauses : Obligations.DebugExceptionRecordsItsCauses := by
  intro c b s
  refine ⟨fun j hj => ?_, fun j hj => ?_, rfl, rfl, rfl, rfl⟩
  · rw [getLsbD_debugException_dr6, hj, Bool.true_or]
  · rw [getLsbD_debugException_dr6, Bool.or_eq_true, Bool.and_eq_true] at hj
    exact hj.imp id fun ⟨_, free⟩ => getLsbD_disabledMask free

end Sys2Proof.Machine
end

section
/-!
The moves to CR0, CR3, DR6 and DR7: their checks, what each completes with, and where it is refused.
-/

namespace Sys2Proof.Machine

theorem privileged_of_unprivileged {s : State} (h : s.unprivileged = true) (go : Out) :
    privileged s go = .next (takeException .gp .fault (.code 0) s) :=
  if_pos h

theorem privileged_of_may {s : State} (h : MayRunPrivileged s) (go : Out) : privileged s go = go :=
  if_neg (Bool.eq_false_iff.1 h)

theorem debugAccess_of_may {s : State} (h : MayAccessDebug s) (go : Out) : debugAccess s go = go := by
  obtain ⟨may, clear⟩ := h
  rw [debugAccess, privileged_of_may may]
  exact if_neg (Bool.eq_false_iff.1 clear)

/-- An instruction behind the privilege check is guarded by it (R230). -/
theorem guarded_of_privileged {i : Instr} {s : State} {go : Out} (h : exec i s = privileged s go) :
    Guarded i s := fun unprivileged => by
  rw [h, privileged_of_unprivileged unprivileged]

/-- An instruction behind the checks of a debug register access is guarded by them (R260). -/
theorem debugGuarded_of_debugAccess {i : Instr} {s : State} {go : Out} (h : exec i s = debugAccess s go) :
    DebugGuarded i s := by
  refine ⟨guarded_of_privileged h, fun may gd => ?_⟩
  rw [h, debugAccess, privileged_of_may may]
  exact if_pos gd

/-- Drawing the status flags changes no other flag (R230(b)). -/
theorem statusFlagsOnly_undefineStatus {s u : State} (eflags : u.eflags = s.eflags) :
    StatusFlagsOnly s u.undefineStatus := by
  rw [StatusFlagsOnly, undefineStatus_eflags, insertBits_and_not_mask, eflags]

/-- The end of a move to a special register, where the move itself wrote neither flags nor memory. -/
theorem movedToSpecial_undefineStatus {s u : State} (eflags : u.eflags = s.eflags) (mem : u.mem = s.mem)
    (platform : u.platform = s.platform) : MovedToSpecial u s u.undefineStatus :=
  ⟨statusFlagsOnly_undefineStatus eflags, byteAt_congr mem platform, rfl⟩

/-- MOV CR0 completes where PG asks for PE, PG keeps its value or changes for the first time with the window
stable, and PE is not set under a CS selector whose low bits are not 0 (R234, R241, R242). -/
theorem loadCr0_completes {len : Nat} {v : Word} {s : State}
    (guarded : v.getLsbD 31 = true → v.getLsbD 0 = true)
    (paging : v.getLsbD 31 = s.pg ∨
      s.pgChanges = 0 ∧ fetchWindowStable len s.pg s.cr3 (v.getLsbD 31) s.cr3 s = .ok true s)
    (level : s.pe = true ∨ v.getLsbD 0 = false ∨ s.seg.cs.sel.extractLsb' 0 2 = 0) :
    loadCr0 len v s = moveDone (writeCr0 v s) := by
  have change : peChangeRefused s (v.getLsbD 0) = false := by
    rcases level with pe | pe | sel
    · simp [peChangeRefused, pe]
    · rw [peChangeRefused, pe, Bool.and_false, Bool.false_and]
    · simp [peChangeRefused, sel]
  have finish : finishCr0 v s = moveDone (writeCr0 v s) := if_neg (Bool.eq_false_iff.1 change)
  have protection : ¬(v.getLsbD 31 = true ∧ v.getLsbD 0 = false) := fun ⟨pg, pe⟩ =>
    Bool.eq_false_iff.1 pe (guarded pg)
  rw [loadCr0, if_neg protection]
  split
  · exact finish
  · rename_i changes
    obtain ⟨first, stable⟩ := paging.resolve_left changes
    rw [if_neg (by omega), stable, thenOut_ok, if_pos rfl, finish]

/-- Settles O22: past the check it is `loadCr0_completes`. -/
theorem moveToCr0WritesTheDefinedBits : Obligations.MoveToCr0WritesTheDefinedBits := by
  intro p rm s
  refine ⟨guarded_of_privileged rfl, fun may guarded paging level => ?_⟩
  refine ⟨(writeCr0 (s.reg rm) s).undefineStatus, ?_, movedToSpecial_undefineStatus rfl rfl rfl⟩
  change privileged s _ = _
  rw [privileged_of_may may, loadCr0_completes guarded paging level]
  rfl

/-- The low twelve bits of a word are zero as a field exactly where they are under their mask. -/
theorem extractLsb'_low_eq_zero_iff (v : Word) : v.extractLsb' 0 12 = 0 ↔ v &&& 0xFFF = 0 := by
  have field : (v.extractLsb' 0 12).setWidth 32 = v &&& 0xFFF := by
    apply BitVec.eq_of_toNat_eq
    have : v.toNat &&& 4095 = v.toNat % 4096 := Nat.and_two_pow_sub_one_eq_mod v.toNat 12
    simp [BitVec.extractLsb'_toNat, this]
    omega
  rw [← field]
  constructor
  · intro h
    rw [h]
    rfl
  · intro h
    apply BitVec.eq_of_toNat_eq
    have low := (v.extractLsb' 0 12).isLt
    have value := congrArg BitVec.toNat h
    rwa [BitVec.toNat_setWidth, Nat.mod_eq_of_lt (by omega)] at value

/-- MOV CR3 stores bits 31:12 whatever the low bits are (R236). -/
theorem writeCr3_base (v : Word) (s : State) : (writeCr3 v s).cr3 &&& 0xFFFFF000 = v &&& 0xFFFFF000 := by
  rw [writeCr3_cr3]
  split
  · rfl
  · exact insertBits_and_not_mask 0xFFF v s.drawn

/-- The end of MOV CR3 (R236). -/
theorem writeCr3_movedToSpecial (v : Word) (s : State) :
    MovedToSpecial
      { s with cr3 := (writeCr3 v s).cr3, cr3LowZero := (writeCr3 v s).cr3LowZero, tlb := [] } s
      (writeCr3 v s).undefineStatus := by
  have frame := writeCr3_frame v s
  refine ⟨statusFlagsOnly_undefineStatus ?_, byteAt_congr ?_ ?_, ?_⟩
  · rw [frame]
  · rw [undefineStatus_mem, frame]
  · rw [undefineStatus_platform, frame]
  · unfold writeCr3
    split <;> rfl

/-- MOV CR3 completes with paging off, or with the window stable (R236). -/
theorem loadCr3_completes {len : Nat} {v : Word} {s : State}
    (h : s.pg = false ∨ fetchWindowStable len true s.cr3 true v s = .ok true s) :
    loadCr3 len v s = moveDone (writeCr3 v s) := by
  unfold loadCr3
  split
  · rename_i paging
    have stable := h.resolve_left fun off => Bool.eq_false_iff.1 off paging
    rw [stable, thenOut_ok, if_pos rfl]
  · rfl

/-- With paging on and the window not stable MOV CR3 is refused (R236, R416). -/
theorem loadCr3_refused {len : Nat} {v : Word} {s : State} (paging : s.pg = true)
    (unstable : fetchWindowStable len true s.cr3 true v s = .ok false s) :
    loadCr3 len v s = .refused .codeMappingChanges := by
  rw [loadCr3, if_pos paging, unstable, thenOut_ok]
  rfl

/-- Settles O25: past the check it is `loadCr3_completes` and `loadCr3_refused`. -/
theorem moveToCr3EmptiesTheTlb : Obligations.MoveToCr3EmptiesTheTlb := by
  intro p rm s
  refine ⟨guarded_of_privileged rfl, fun may stable => ?_, fun may paging unstable => ?_⟩
  · refine ⟨(writeCr3 (s.reg rm) s).undefineStatus, ?_, writeCr3_base _ s, fun zero => ?_, fun nonzero => ?_,
      writeCr3_tlb _ s, writeCr3_movedToSpecial _ s⟩
    · change privileged s _ = _
      rw [privileged_of_may may, loadCr3_completes stable]
      rfl
    · have zero := (extractLsb'_low_eq_zero_iff _).2 zero
      rw [undefineStatus_cr3, undefineStatus_cr3LowZero, writeCr3_cr3, writeCr3_cr3LowZero, if_pos zero]
      exact ⟨rfl, decide_eq_true zero⟩
    · rw [undefineStatus_cr3LowZero, writeCr3_cr3LowZero]
      exact decide_eq_false fun zero => nonzero ((extractLsb'_low_eq_zero_iff _).1 zero)
  · change privileged s _ = _
    rw [privileged_of_may may, loadCr3_refused paging unstable]

/-- Settles O34, from the checks and the end that the moves share. -/
theorem moveToDebugStatus : Obligations.MoveToDebugStatus := by
  intro p rm s
  refine ⟨debugGuarded_of_debugAccess rfl, fun may => ?_⟩
  exact ⟨_, debugAccess_of_may may _, movedToSpecial_undefineStatus rfl rfl rfl⟩

/-- Breakpoint `i` of a value of DR7 meets no refusal exactly where it is not enabled or is defined
(R266). -/
theorem breakpointRefusal_eq_none_iff (v : Word) (i : Fin 4) :
    breakpointRefusal v i = none ↔
      (enabledIn v i = true → lenIn v i ≠ 2 ∧ rwIn v i ≠ 2 ∧ (rwIn v i = 0 → lenIn v i = 0)) := by
  unfold breakpointRefusal
  split_ifs with disabled len kind execution
  · simp [disabled]
  · exact iff_of_false nofun fun defined => (defined (Bool.eq_true_of_not_eq_false disabled)).1 len
  · exact iff_of_false nofun fun defined => (defined (Bool.eq_true_of_not_eq_false disabled)).2.1 kind
  · exact iff_of_false nofun fun defined =>
      execution.2 ((defined (Bool.eq_true_of_not_eq_false disabled)).2.2 execution.1)
  · exact iff_of_true rfl fun _ => ⟨len, kind, fun fetch => not_not.1 fun long => execution ⟨fetch, long⟩⟩

/-- The refusal that a breakpoint meets has one of three names (R266). -/
theorem breakpointRefusal_mem {v : Word} {i : Fin 4} {r : Refusal} (h : breakpointRefusal v i = some r) :
    r ∈ [Refusal.undefinedLen, .undefinedRw, .executionLength] := by
  unfold breakpointRefusal at h
  split_ifs at h <;> cases h <;> decide

theorem dr7Refusal_eq_none_iff (v : Word) : dr7Refusal v = none ↔ ∀ i, breakpointRefusal v i = none := by
  simp [dr7Refusal, Option.or_eq_none_iff, Fin.forall_fin_succ]

/-- The refusal of a value of DR7 is that of one of its breakpoints (R266). -/
theorem dr7Refusal_mem {v : Word} {r : Refusal} (h : dr7Refusal v = some r) :
    r ∈ [Refusal.undefinedLen, .undefinedRw, .executionLength] := by
  simp only [dr7Refusal, Option.or_eq_some_iff] at h
  rcases h with h | ⟨-, h | ⟨-, h | ⟨-, h⟩⟩⟩ <;> exact breakpointRefusal_mem h

/-- A value of DR7 is refused exactly where a breakpoint that it enables is undefined (R266). -/
theorem dr7Refusal_isSome_of_undefined {v : Word} {i : Fin 4} (enabled : enabledIn v i = true)
    (undefined : lenIn v i = 2 ∨ rwIn v i = 2 ∨ rwIn v i = 0 ∧ lenIn v i ≠ 0) :
    ∃ r, dr7Refusal v = some r := by
  refine Option.ne_none_iff_exists'.1 fun none => ?_
  obtain ⟨len, kind, execution⟩ :=
    (breakpointRefusal_eq_none_iff v i).1 ((dr7Refusal_eq_none_iff v).1 none i) enabled
  rcases undefined with h | h | ⟨h, h'⟩
  · exact len h
  · exact kind h
  · exact h' (execution h)

/-- Settles O35: a value is written where `dr7Refusal` meets none, and refused with the name it meets. -/
theorem moveToDebugControl : Obligations.MoveToDebugControl := by
  intro p rm s
  have run : MayAccessDebug s → exec (.movDr7R32 p rm) s = loadDr7 (s.reg rm) s := fun may =>
    debugAccess_of_may may _
  refine ⟨debugGuarded_of_debugAccess rfl, fun may defined => ?_, fun may ⟨i, enabled, undefined⟩ => ?_⟩
  · have none : dr7Refusal (s.reg rm) = none :=
      (dr7Refusal_eq_none_iff _).2 fun i => (breakpointRefusal_eq_none_iff _ i).2 (defined i)
    refine ⟨_, ?_, movedToSpecial_undefineStatus rfl rfl rfl⟩
    rw [run may, loadDr7, none]
    rfl
  · obtain ⟨r, refusal⟩ := dr7Refusal_isSome_of_undefined enabled undefined
    refine ⟨r, dr7Refusal_mem refusal, ?_⟩
    rw [run may, loadDr7, refusal]

end Sys2Proof.Machine
end

section
/-!
Addresses and bytes: the aligned field of a breakpoint, and dwords of physical memory.
-/

namespace Sys2Proof.Machine

/-- An address is one of the `n` from `a` on where it is `a` plus some `j` below `n`. -/
theorem mem_span {a b : Word} {n : Nat} : b ∈ span a n ↔ ∃ j < n, a + BitVec.ofNat 32 j = b := by
  simp [span]

/-- The `2^k` addresses from an address with its low `k` bits cleared are those that share all its other
bits. -/
theorem mem_span_aligned {k : Nat} (hk : k ≤ 32) (a dr : Word) :
    a ∈ span (dr >>> k <<< k) (2 ^ k) ↔ a >>> k = dr >>> k := by
  have power : 2 ^ (32 - k) * 2 ^ k = 2 ^ 32 := by rw [← pow_add, Nat.sub_add_cancel hk]
  have block : (dr.toNat / 2 ^ k + 1) * 2 ^ k ≤ 2 ^ 32 := by
    have : dr.toNat / 2 ^ k < 2 ^ (32 - k) := Nat.div_lt_of_lt_mul (by rw [mul_comm, power]; exact dr.isLt)
    rw [← power]
    exact Nat.mul_le_mul_right _ this
  rw [add_mul, one_mul] at block
  have base : (dr >>> k <<< k).toNat = dr.toNat / 2 ^ k * 2 ^ k := by
    rw [BitVec.toNat_shiftLeft, BitVec.toNat_ushiftRight, Nat.shiftRight_eq_div_pow, Nat.shiftLeft_eq]
    exact Nat.mod_eq_of_lt (by have := Nat.two_pow_pos k; omega)
  have field : a >>> k = dr >>> k ↔ a.toNat / 2 ^ k = dr.toNat / 2 ^ k := by
    rw [← BitVec.toNat_inj, BitVec.toNat_ushiftRight, BitVec.toNat_ushiftRight, Nat.shiftRight_eq_div_pow,
      Nat.shiftRight_eq_div_pow]
  have sum : ∀ j < 2 ^ k, (dr >>> k <<< k + BitVec.ofNat 32 j).toNat = dr.toNat / 2 ^ k * 2 ^ k + j := by
    intro j hj
    rw [BitVec.toNat_add, BitVec.toNat_ofNat, base]
    omega
  rw [mem_span, field]
  constructor
  · rintro ⟨j, hj, rfl⟩
    rw [sum j hj, mul_comm, Nat.mul_add_div (Nat.two_pow_pos k), Nat.div_eq_of_lt hj, Nat.add_zero]
  · intro same
    have hj := Nat.mod_lt a.toNat (Nat.two_pow_pos k)
    refine ⟨a.toNat % 2 ^ k, hj, BitVec.eq_of_toNat_eq ?_⟩
    rw [sum _ hj, ← same, mul_comm]
    exact Nat.div_add_mod _ _

/-- Settles O48: the field of a defined length is an aligned span. -/
theorem breakpointFieldIsAligned : Obligations.BreakpointFieldIsAligned := by
  intro dr
  have word : dr &&& ~~~1#32 = dr >>> 1 <<< 1 := by
    rw [BitVec.shiftLeft_ushiftRight]
    rfl
  have dword : dr &&& ~~~3#32 = dr >>> 2 <<< 2 := by
    rw [BitVec.shiftLeft_ushiftRight]
    rfl
  refine ⟨⟨[dr], rfl, fun a => List.mem_singleton⟩, ⟨span (dr >>> 1 <<< 1) 2, ?_, fun a => ?_⟩,
    ⟨span (dr >>> 2 <<< 2) 4, ?_, fun a => ?_⟩, rfl⟩
  · rw [← word]
    rfl
  · exact mem_span_aligned (k := 1) (by decide) a dr
  · rw [← dword]
    rfl
  · exact mem_span_aligned (k := 2) (by decide) a dr

/-- The addresses of a span are distinct (R8). -/
theorem nodup_span (a : Word) {n : Nat} (h : n ≤ 2 ^ 32) : (span a n).Nodup := by
  refine List.Nodup.map_on (fun i hi j hj same => ?_) List.nodup_range
  have hi := List.mem_range.1 hi
  have hj := List.mem_range.1 hj
  have offsets := congrArg BitVec.toNat (add_left_cancel same)
  rw [BitVec.toNat_ofNat, BitVec.toNat_ofNat] at offsets
  omega

theorem span_four (a : Word) : span a 4 = [a, a + 1, a + 2, a + 3] := by
  simp [span, List.range, List.range.loop]

/-- The number that the bytes of a number make is the number, as far as they reach (R170). -/
theorem leNat_leBytes (n v : Nat) : leNat (leBytes n v) = v % 256 ^ n := by
  induction n generalizing v with
  | zero => rw [pow_zero, Nat.mod_one]; rfl
  | succ n ih =>
    rw [leBytes, leNat, ih, BitVec.toNat_ofNat, pow_succ' 256 n, Nat.mod_mul]

/-- A store changes no byte at another address (R11). -/
theorem byteAt_physWriteBytes_other {l : List (Word × Byte)} {s t : State} {u : Unit}
    (h : physWriteBytes l s = .ok u t) {a : Nat} (other : ∀ x ∈ l, x.1.toNat ≠ a) :
    t.byteAt a = s.byteAt a := by
  obtain ⟨frame, -, cells⟩ := physWriteBytes_ok h
  have ram : t.isRam a = s.isRam a := by rw [frame]; rfl
  rw [State.byteAt, State.byteAt, ram, cells a other]

/-- Bytes stored at distinct addresses are in memory afterwards. -/
theorem byteAt_physWriteBytes {l : List (Word × Byte)} {s t : State} {u : Unit}
    (h : physWriteBytes l s = .ok u t) (distinct : (l.map Prod.fst).Nodup) :
    ∀ x ∈ l, t.byteAt x.1.toNat = some x.2 := by
  induction l generalizing s with
  | nil => exact fun x hx => absurd hx List.not_mem_nil
  | cons y l ih =>
    obtain ⟨v, w, first, rest⟩ := bind_eq_ok h
    obtain ⟨fresh, distinct⟩ := List.nodup_cons.1 distinct
    intro x hx
    rcases List.mem_cons.1 hx with rfl | hx
    · have others : ∀ z ∈ l, z.1.toNat ≠ x.1.toNat := fun z hz same =>
        fresh (BitVec.eq_of_toNat_eq same ▸ List.mem_map_of_mem hz)
      rw [byteAt_physWriteBytes_other rest others, byteAt_write first, if_pos rfl]
    · exact ih rest distinct x hx

theorem length_leBytes (n v : Nat) : (leBytes n v).length = n := by
  induction n generalizing v with
  | zero => rfl
  | succ n ih => rw [leBytes, List.length_cons, ih]

/-- A dword that was written is read back (R11, R170). -/
theorem physRead32_physWrite32 {pa v : Word} {s t : State} {u : Unit} (h : physWrite32 pa v s = .ok u t) :
    physRead32 pa t = .ok v t := by
  have addresses : ((span pa 4).zip (leBytes 4 v.toNat)).map Prod.fst = span pa 4 :=
    List.map_fst_zip (by simp [span, length_leBytes])
  have values : ((span pa 4).zip (leBytes 4 v.toNat)).map Prod.snd = leBytes 4 v.toNat :=
    List.map_snd_zip (by simp [span, length_leBytes])
  have stored := byteAt_physWriteBytes h (addresses ▸ nodup_span pa (by decide))
  have bytes : (span pa 4).map (fun a => t.byteAt a.toNat) = (leBytes 4 v.toNat).map some := by
    conv_lhs => rw [← addresses, List.map_map]
    conv_rhs => rw [← values, List.map_map]
    exact List.map_congr_left stored
  rw [physRead32, physReadBytes_of_byteAt bytes, bind_ok, leNat_leBytes]
  congr 1
  apply BitVec.eq_of_toNat_eq
  have := v.isLt
  rw [BitVec.toNat_ofNat]
  omega

/-- A write of a dword changes no byte but its four. -/
theorem physWrite32_sameMemoryBut {pa v : Word} {s t : State} {u : Unit}
    (h : physWrite32 pa v s = .ok u t) : SameMemoryBut (span pa 4) s t := fun _ other =>
  byteAt_physWriteBytes_other h fun x hx => other x.1 (List.of_mem_zip hx).1

/-- Four bytes make a dword, the lowest address least significant (R170). -/
theorem ofNat_leNat_four (b0 b1 b2 b3 : Byte) :
    BitVec.ofNat 32 (leNat [b0, b1, b2, b3]) = b3 ++ b2 ++ b1 ++ b0 := by
  apply BitVec.eq_of_toNat_eq
  have := b0.isLt
  have := b1.isLt
  have := b2.isLt
  have := b3.isLt
  simp only [BitVec.toNat_append]
  rw [← Nat.shiftLeft_add_eq_or_of_lt b0.isLt, ← Nat.shiftLeft_add_eq_or_of_lt b1.isLt,
    ← Nat.shiftLeft_add_eq_or_of_lt b2.isLt]
  simp only [leNat, BitVec.toNat_ofNat, Nat.shiftLeft_eq]
  omega

/-- A dword whose four bytes memory holds is read (R11, R170). -/
theorem physRead32_of_byteAt {pa : Word} {s : State} {b0 b1 b2 b3 : Byte}
    (h0 : s.byteAt pa.toNat = some b0) (h1 : s.byteAt (pa + 1).toNat = some b1)
    (h2 : s.byteAt (pa + 2).toNat = some b2) (h3 : s.byteAt (pa + 3).toNat = some b3) :
    physRead32 pa s = .ok (b3 ++ b2 ++ b1 ++ b0) s := by
  have bytes : (span pa 4).map (fun a => s.byteAt a.toNat) = [b0, b1, b2, b3].map some := by
    simp only [span_four, List.map_cons, List.map_nil, h0, h1, h2, h3]
  rw [physRead32, physReadBytes_of_byteAt bytes, bind_ok, ofNat_leNat_four]

/-- A byte of memory that holds no value stops (R96). -/
theorem physReadByte_unwritten {pa : Word} {s : State} (ram : s.isRam pa.toNat = true)
    (unwritten : s.byteAt pa.toNat = none) :
    physReadByte pa s = .stop (.fault (.unwritten pa.toNat)) := by
  rw [State.byteAt, if_pos ram] at unwritten
  rw [physReadByte, if_pos ram, unwritten]

/-- What is no memory is refused (R176). -/
theorem physReadByte_notMemory {pa : Word} {s : State} (ram : s.isRam pa.toNat = false) :
    physReadByte pa s = .stop (.refused (.notMemory pa.toNat)) :=
  if_neg (Bool.eq_false_iff.1 ram)

/-- Settles O50: a write is read back, a read is of its four bytes, and the two stops. -/
theorem physicalMemoryReadsAndWrites : Obligations.PhysicalMemoryReadsAndWrites := by
  refine ⟨fun pa v s t written => ?_, fun pa s b0 b1 b2 b3 => physRead32_of_byteAt, fun pa s => ?_⟩
  · exact ⟨physRead32_physWrite32 written, physWrite32_sameMemoryBut written, (physWrite32_ok written).1⟩
  · exact ⟨physReadByte_unwritten, physReadByte_notMemory⟩

end Sys2Proof.Machine
end

section
/-!
Loading a segment register and LDTR: what a load that answers has tested, and what it leaves.
-/

namespace Sys2Proof.Machine

/-- What a quiet operation that answers leaves. -/
theorem Res.Quiet.walked {α : Type} {s t : State} {r : Res α} {a : α} (h : r.Quiet s) (ok : r = .ok a t) :
    Walked s t := by
  subst ok
  exact h

/-- Reading a descriptor changes memory, the TLB and the count of free values alone (R123). -/
theorem fetchDescriptorAt_walked {sel : Half} {s u : State} {ad : Word × BitVec 64}
    (h : fetchDescriptorAt sel s = .ok ad u) : Walked s u := by
  unfold fetchDescriptorAt raiseFault at h
  split at h
  · cases h
  · split at h
    · cases h
    · obtain ⟨bs, v, read, answer⟩ := bind_eq_ok h
      cases answer
      exact (linRead_quiet _ _ _ s).walked read

/-- The descriptor alone, of the one read with its address (R123). -/
theorem fetchDescriptor_of_at {sel : Half} {s u : State} {la : Word} {d : BitVec 64}
    (h : fetchDescriptorAt sel s = .ok (la, d) u) : fetchDescriptor sel s = .ok d u := by
  rw [fetchDescriptor, h, bind_ok]

/-- A descriptor that raises no exception is a present code or data segment that the register may hold
(R127). -/
theorem loadFault_eq_none {r : SegReg} {d : BitVec 64} {sel : Half} {cpl : BitVec 2}
    (h : loadFault r d sel cpl = none) :
    descS d = true ∧ descP d = true ∧ (r = .ss → stackLoadable d sel cpl = true) ∧
      (r ≠ .ss → dataLoadable d sel cpl = true) := by
  unfold loadFault at h
  split_ifs at h with system stack unloadable absent unloadable absent
  · exact ⟨Bool.eq_true_of_not_eq_false system, Bool.eq_true_of_not_eq_false absent,
      fun _ => Bool.eq_true_of_not_eq_false unloadable, fun other => absurd stack other⟩
  · exact ⟨Bool.eq_true_of_not_eq_false system, Bool.eq_true_of_not_eq_false absent,
      fun same => absurd same stack, fun _ => Bool.eq_true_of_not_eq_false unloadable⟩

/-- What SS may hold: writable data with DPL = RPL = CPL (R127). -/
theorem stackLoadable_iff {d : BitVec 64} {sel : Half} {cpl : BitVec 2} :
    stackLoadable d sel cpl = true ↔
      typeCode (descType d) = false ∧ typeRW (descType d) = true ∧ descDpl d = cpl ∧ selRpl sel = cpl := by
  simp only [stackLoadable, Bool.and_eq_true, Bool.not_eq_true', beq_iff_eq]
  tauto

/-- What DS, ES, FS and GS may hold: not execute-only code, and conforming code or a DPL that is large
enough (R127). -/
theorem dataLoadable_iff {d : BitVec 64} {sel : Half} {cpl : BitVec 2} :
    dataLoadable d sel cpl = true ↔
      (typeCode (descType d) = false ∨ typeRW (descType d) = true) ∧
        (typeCode (descType d) = true ∧ typeEC (descType d) = true ∨
          max cpl.toNat (selRpl sel).toNat ≤ (descDpl d).toNat) := by
  simp only [dataLoadable, Bool.and_eq_true, Bool.or_eq_true, Bool.not_eq_true', Bool.and_eq_false_iff,
    Bool.not_eq_false', decide_eq_true_eq]

/-- Everything a load of a segment register can do that answers: a null selector into a register other than
SS, or a descriptor that passed the tests, A set in memory where it was clear (R127). -/
theorem loadSeg_ok {r : SegReg} {sel : Half} {s t : State} {a : Unit} (h : loadSeg r sel s = .ok a t) :
    r ≠ .cs ∧ s.pe = true ∧
      ((selNull sel = true ∧ r ≠ .ss ∧ t = s.setSeg r (nullSegment sel (s.seg.get r))) ∨
        (selNull sel = false ∧
          ∃ d u v, fetchDescriptor sel s = .ok d u ∧ loadFault r d sel s.cpl = none ∧ Walked s v ∧
            t = v.setSeg r (loadedSegment sel d))) := by
  unfold loadSeg raiseFault at h
  split_ifs at h with cs real null stack
  · cases h
    exact ⟨cs, Bool.eq_true_of_not_eq_false real, .inl ⟨null, stack, rfl⟩⟩
  · refine ⟨cs, Bool.eq_true_of_not_eq_false real, .inr ⟨Bool.eq_false_iff.2 null, ?_⟩⟩
    obtain ⟨⟨la, d⟩, u, fetched, h⟩ := bind_eq_ok h
    have walked := fetchDescriptorAt_walked fetched
    have cpl : u.cpl = s.cpl := by
      apply cpl_congr <;> rw [walked.eq]
      rfl
    split at h
    · cases h
    · rename_i passed
      rw [cpl] at passed
      obtain ⟨_, v, marked, h⟩ := bind_eq_ok h
      cases h
      refine ⟨d, u, v, fetchDescriptor_of_at fetched, passed, walked.trans ?_, rfl⟩
      split at marked
      · cases marked
        exact .refl u
      · exact (linWrite_quiet _ _ _ u).walked marked

/-- What the load of a descriptor leaves: the register holds it, nothing else of the registers changes. -/
theorem setSeg_loaded_frame {s v : State} (walked : Walked s v) (r : SegReg) (g : Segment) :
    (∀ q, q ≠ r → (v.setSeg r g).seg.get q = s.seg.get q) ∧
      v.setSeg r g =
        { s with
          mem := (v.setSeg r g).mem, tlb := (v.setSeg r g).tlb, draws := (v.setSeg r g).draws,
          seg := (v.setSeg r g).seg } := by
  have seg : v.seg = s.seg := by rw [walked.eq]
  refine ⟨fun q hq => ?_, ?_⟩
  · rw [setSeg_seg, segGet_set_other _ _ hq, seg]
  · rw [walked.eq]
    rfl

/-- A null selector leaves LDTR with no table (R124). -/
theorem loadLdtr_null {sel : Half} (null : selNull sel = true) (s : State) :
    loadLdtr sel s = .ok () { s with ldtr := { s.ldtr with sel := sel, valid := false } } :=
  if_pos null

/-- A selector of the local table raises GP (R124). -/
theorem loadLdtr_local {sel : Half} (null : selNull sel = false) (ti : selTi sel = true) (s : State) :
    loadLdtr sel s = raiseFault .gp (selectorCode sel) s := by
  rw [loadLdtr, if_neg (Bool.eq_false_iff.1 null), if_pos ti]

/-- A selector of the global table loads the descriptor it names, or raises what that calls for (R124). -/
theorem loadLdtr_fetched {sel : Half} {s u : State} {d : BitVec 64} (null : selNull sel = false)
    (ti : selTi sel = false) (fetched : fetchDescriptor sel s = .ok d u) :
    loadLdtr sel s =
      if descS d ∨ descSystemType d ≠ 2 then raiseFault .gp (selectorCode sel) u
      else if descP d = false then raiseFault .np (selectorCode sel) u
      else
        .ok ()
          { u with
            ldtr :=
              { sel := sel, base := descBase d,
                limit := (effLimit (descLimit d) (descG d)).extractLsb' 0 16, valid := true } } := by
  rw [loadLdtr, if_neg (Bool.eq_false_iff.1 null), if_neg (Bool.eq_false_iff.1 ti), fetched, bind_ok]

/-- Settles O47: the two loads of `loadSeg_ok`, and the three of LDTR. -/
theorem segmentLoadKeepsItsPrivilegeRules : Obligations.SegmentLoadKeepsItsPrivilegeRules := by
  refine ⟨fun r sel s t loaded => ?_, fun sel s => ⟨fun null => ?_, fun null ti => loadLdtr_local null ti s,
    fun d u null ti fetched => ?_⟩⟩
  · obtain ⟨cs, pe, ⟨null, stack, rfl⟩ | ⟨null, d, u, v, fetched, passed, walked, rfl⟩⟩ :=
      loadSeg_ok loaded
    · obtain ⟨others, frame⟩ := setSeg_loaded_frame (.refl s) r (nullSegment sel (s.seg.get r))
      refine ⟨cs, pe, ?_, others, frame, fun _ => ⟨stack, ?_, rfl⟩, fun notNull => ?_⟩
      · rw [setSeg_seg, segGet_set_same]
        rfl
      · rw [setSeg_seg, segGet_set_same]
        rfl
      · simp [null] at notNull
    · obtain ⟨others, frame⟩ := setSeg_loaded_frame walked r (loadedSegment sel d)
      obtain ⟨s1, p1, stack, data⟩ := loadFault_eq_none passed
      have held : (v.setSeg r (loadedSegment sel d)).seg.get r = loadedSegment sel d := by
        rw [setSeg_seg, segGet_set_same]
      refine ⟨cs, pe, ?_, others, frame, fun isNull => ?_, fun _ => ?_⟩
      · rw [held]
        rfl
      · simp [null] at isNull
      · rw [held]
        exact ⟨⟨d, u, fetched, p1, s1, rfl, rfl, rfl, rfl, rfl⟩, rfl, p1, s1,
          fun same => stackLoadable_iff.1 (stack same), fun other => dataLoadable_iff.1 (data other)⟩
  · exact ⟨_, loadLdtr_null null s, rfl, rfl, rfl⟩
  · rw [loadLdtr_fetched null ti fetched]
    refine ⟨fun notLdt => if_pos notLdt, fun system ldt absent => ?_, fun system ldt present => ?_⟩
    · rw [if_neg (by simp [system, ldt]), if_pos absent]
      rfl
    · rw [if_neg (by simp [system, ldt]), if_neg (by simp [present])]

end Sys2Proof.Machine
end

section
/-!
Reset: every field is its parameter, and the invariant holds where the parameters are in order.
-/

namespace Sys2Proof.Machine

/-- The six bits of CR0 that reset is given, and no reserved one (R28, R95). -/
theorem cr0Of_bits : ∀ pe mp em ts et pg : Bool,
    (cr0Of pe mp em ts et pg).getLsbD 0 = pe ∧ (cr0Of pe mp em ts et pg).getLsbD 1 = mp ∧
      (cr0Of pe mp em ts et pg).getLsbD 2 = em ∧ (cr0Of pe mp em ts et pg).getLsbD 3 = ts ∧
        (cr0Of pe mp em ts et pg).getLsbD 4 = et ∧ (cr0Of pe mp em ts et pg).getLsbD 31 = pg ∧
          cr0Of pe mp em ts et pg &&& ~~~cr0Defined = 0 := by
  decide

/-- Reset meets the invariant where memory and the TLB are in order, DR6 and DR7 hold no reserved bit and PG
asks for PE. -/
theorem resetWith_inv {r : ResetParams} (memory : memoryWf r.mem = true) (tlb : TlbOk r.tlb)
    (dr6 : r.dr6 &&& ~~~dr6Defined = 0) (dr7 : r.dr7 &&& ~~~dr7Defined = 0)
    (paging : r.pg = true → r.pe = true) : Inv (resetWith r) := by
  obtain ⟨pe, -, -, -, -, pg, reserved⟩ := cr0Of_bits r.pe r.mp r.em r.ts r.et r.pg
  exact
    { memory := memory
      tlbSize := tlb.1
      tlbPages := tlb.2
      cr0Reserved := reserved
      dr6Reserved := dr6
      dr7Reserved := dr7
      nothingPending := rfl
      pagingProtected := fun on => pe.trans (paging (pg.symm.trans on))
      pgOnce := Nat.zero_le 1 }

/-- The suggested parameters of reset are in order (R95). -/
theorem reset_inv : Inv State.reset :=
  resetWith_inv memoryWf_reset ⟨Nat.zero_le _, List.nodup_nil⟩ rfl rfl nofun

/-- Settles O52: the bits of CR0 are `cr0Of_bits`, the invariant is `resetWith_inv`, the rest is the
definition of reset. -/
theorem resetStateMeetsTheInvariant : Obligations.ResetStateMeetsTheInvariant := by
  refine ⟨fun r => ?_, reset_inv, ⟨rfl, rfl⟩, rfl, rfl, rfl, rfl, rfl, rfl, rfl, rfl, rfl, rfl⟩
  obtain ⟨pe, mp, em, ts, et, pg, -⟩ := cr0Of_bits r.pe r.mp r.em r.ts r.et r.pg
  exact ⟨rfl, rfl, rfl, pe, mp, em, ts, et, pg, rfl, rfl,
    fun i => by fin_cases i <;> rfl, rfl, rfl, rfl, rfl, rfl, rfl, rfl, rfl, rfl, rfl, rfl, rfl, rfl, rfl, rfl,
    fun memory size pages dr6 dr7 paging => resetWith_inv memory ⟨size, pages⟩ dr6 dr7 paging⟩

end Sys2Proof.Machine
end

section
/-!
What a step does to memory: the marks of the fetch, the marks of the instruction, and the two bytes that SMSW
stores.
-/

namespace Sys2Proof.Machine

/-- Whether a byte is marked depends on what it reads as afterwards, and on nothing else of that state. -/
theorem Marked.congr {las : Word → Prop} {d : Bool} {s t u : State} {a : Nat} (h : Marked las d s t a)
    (same : u.byteAt a = t.byteAt a) : Marked las d s u a := by
  obtain ⟨pg, la, b, hl, before, after⟩ := h
  rw [← same] at after
  exact ⟨pg, la, b, hl, before, after⟩

/-- A byte after marks and after whatever kept it since. -/
theorem TablesMarked.at_same {las : Word → Prop} {d : Bool} {s t u : State} {a : Nat}
    (h : TablesMarked las d s t) (same : u.byteAt a = t.byteAt a) :
    u.byteAt a = s.byteAt a ∨ Marked las d s u a :=
  (h a).imp same.trans (·.congr same)

/-- Marks after marks, where what comes last may have written CR0 and CR3. -/
theorem Marks.tablesMarked {las : Word → Prop} {d : Bool} {s t u : State} (h : Marks las d s t)
    (k : TablesMarked las d t u) : TablesMarked las d s u :=
  (h.trans (u := { u with cr0 := t.cr0, cr3 := t.cr3 }) ⟨k, rfl, rfl⟩).marked

/-- With paging off no page table entry is written (R103). -/
theorem TablesMarked.sameMemory {las : Word → Prop} {d : Bool} {s t : State} (h : TablesMarked las d s t)
    (pg : s.pg = false) : SameMemory s t := fun a =>
  (h a).resolve_right fun ⟨on, _⟩ => Bool.eq_false_iff.1 pg on

/-- The end of a completed step leaves memory as it is. -/
theorem reportTraps_sameMemory (tf : Bool) (s : State) : SameMemory s (reportTraps tf s) := by
  rcases reportTraps_cases tf s with ⟨-, eq⟩ | eq <;> rw [eq] <;> exact byteAt_congr rfl rfl

/-- What follows an instruction's rule leaves memory as the rule left it (R16). -/
theorem afterRule_next {tf : Bool} {len : Nat} {o : Out} {t : State} (h : afterRule tf len o = .next t) :
    ∃ v, o = .next v ∧ SameMemory v t := by
  cases o with
  | fault f => cases h
  | refused r => cases h
  | next v =>
    refine ⟨v, rfl, ?_⟩
    by_cases trapped : v.trapped.isSome = true
    · rw [afterRule_of_trapped tf len trapped] at h
      cases h
      exact fun _ => rfl
    · rw [afterRule_of_running tf len (by simpa using trapped)] at h
      unfold complete at h
      split at h
      · cases h
      · cases h
        exact reportTraps_sameMemory tf { v with eip := v.eip + BitVec.ofNat 32 len }

/-- How a step comes to the memory it leaves: its fetch raised an exception, or the instruction it fetched ran
and the rest of the step kept memory (R16). -/
theorem step_memory {s t : State} (h : step s = .next t) :
    fetchInstr maxInstrBytes [] s = .stop (.next t) ∨
      ∃ i u v, fetchInstr maxInstrBytes [] s = .ok i u ∧ exec i u = .next v ∧ SameMemory v t := by
  obtain ⟨running, -⟩ := step_cases h
  rcases fetched : fetchInstr maxInstrBytes [] s with ⟨i, u⟩ | o
  · rw [step_of_fetch running fetched] at h
    obtain ⟨v, ran, same⟩ := afterRule_next h
    exact .inr ⟨i, u, v, rfl, ran, same⟩
  · obtain ⟨untrapped, notVirtual⟩ := running
    rw [step, untrapped, notVirtual, fetched] at h
    exact .inl (congrArg Res.stop h)

/-- `a` is one of the two physical addresses at which the step from `s` stored, as SMSW to memory (R239). -/
def StoredBySmsw (s : State) (a : Nat) : Prop :=
  ∃ p m u w v lo hi, fetchInstr maxInstrBytes [] s = .ok (.smsw p (.mem m)) u ∧
    OperandInside (operandSegment p m) (effectiveAddress m u) 2 .write u ∧
      dataBreakpoints .write (operandLinear p m u) 2 u.afterDraw = .ok () w ∧
        linTranslate (operandLinear p m u) 2 (operandAccess .write u) w = .ok [lo, hi] v ∧
          (a = lo.toNat ∨ a = hi.toNat)

/-- What becomes of a byte in a step: it keeps its value, it is marked, or SMSW stored it (R143,
R144, R239). -/
theorem step_byteAt {s t : State} (h : step s = .next t) (a : Nat) :
    t.byteAt a = s.byteAt a ∨ Marked (fun _ => True) true s t a ∨ StoredBySmsw s a := by
  have marks := fetchInstr_marks (las := fun _ => True) (d := true) (fuel := maxInstrBytes) (bytes := [])
    (s := s) fun _ => trivial
  rcases step_memory h with trap | ⟨i, u, v, fetched, ran, same⟩
  · rw [trap] at marks
    exact (marks.marked a).imp_right .inl
  · rw [fetched] at marks
    rcases exec_memory ran with tables | ⟨p, m, rfl, inside, w, x, lo, hi, checked, translated, marked, other⟩
    · exact ((Marks.tablesMarked marks tables).at_same (same a)).imp_right .inl
    · by_cases stored : a = lo.toNat ∨ a = hi.toNat
      · exact .inr (.inr ⟨p, m, u, w, x, lo, hi, fetched, inside, checked, translated, stored⟩)
      · have kept : t.byteAt a = x.byteAt a :=
          (same a).trans (other a (fun e => stored (.inl e)) fun e => stored (.inr e))
        exact ((Marks.trans marks marked).marked.at_same kept).imp_right .inl

/-- Settles O60: byte by byte it is `step_byteAt`; with paging off no byte is marked. -/
theorem onlySmswStores : Obligations.OnlySmswStores := by
  intro s t h
  refine ⟨step_byteAt h, fun pg => or_iff_not_imp_right.2 fun notSmsw a => ?_⟩
  rcases step_byteAt h a with same | ⟨on, -⟩ | ⟨p, m, u, _, _, _, _, fetched, -⟩
  · exact same
  · exact absurd on (Bool.eq_false_iff.1 pg)
  · exact absurd ⟨_, u, fetched, p, m, rfl⟩ notSmsw

end Sys2Proof.Machine
end

section
/-!
Page tables: where entries lie, whom a page admits, and an access with paging off.
-/

namespace Sys2Proof.Machine

/-- A base of 20 bits, a number of 10 and two zeros make the address of a table's entry (R135, R138). -/
theorem entryAddr_toNat (base : BitVec 20) (index : BitVec 10) :
    (base ++ index ++ 0#2).toNat = base.toNat * 4096 + index.toNat * 4 := by
  rw [BitVec.toNat_append, BitVec.toNat_append, ← Nat.shiftLeft_add_eq_or_of_lt index.isLt,
    ← Nat.shiftLeft_add_eq_or_of_lt (0#2).isLt]
  simp only [Nat.shiftLeft_eq, BitVec.toNat_ofNat]
  omega

/-- Settles O39: `entryAddr_toNat`, with the fields of each address as numbers. -/
theorem pageEntryAddresses : Obligations.PageEntryAddresses := by
  intro cr3 pde la
  have := cr3.isLt
  have := pde.isLt
  have := la.isLt
  rw [pdeAddr, pteAddr, entryAddr_toNat, entryAddr_toNat]
  simp only [BitVec.extractLsb'_toNat, Nat.shiftRight_eq_div_pow]
  omega

/-- Settles O38: the branches of `permitted` are the rows of the table. -/
theorem pagePermissionTable : Obligations.PagePermissionTable := by
  intro us rw acc
  refine ⟨fun supervisor => ?_, fun user us0 => ?_, fun user us1 write => ?_, fun user us1 read => ?_⟩
  · simp [permitted, supervisor]
  · simp [permitted, user, us0]
  · simp [permitted, user, us1, write]
  · simp [permitted, user, us1, read]

/-- Settles O40: eight bytes span two pages at most, and `linTranslate_paging_off` allows a page's worth. -/
theorem pagingOffIsTheIdentity : Obligations.PagingOffIsTheIdentity := fun _ la _ acc pg few =>
  linTranslate_paging_off la acc pg (few.trans (by decide))

end Sys2Proof.Machine
end

section
/-!
The walk of the page tables: a dword that a walk updates, what a walk leaves that succeeds, and what one
leaves that faults.
-/

namespace Sys2Proof.Machine

theorem sameMemoryBut_refl (stored : List Word) (s : State) : SameMemoryBut stored s s := fun _ _ => rfl

theorem SameMemoryBut.trans {l l' : List Word} {s t u : State} (h : SameMemoryBut l s t)
    (k : SameMemoryBut l' t u) : SameMemoryBut (l ++ l') s u := fun a other =>
  (k a fun pa hpa => other pa (List.mem_append_right _ hpa)).trans
    (h a fun pa hpa => other pa (List.mem_append_left _ hpa))

/-- A byte that memory holds is at an address that is memory. -/
theorem isRam_of_byteAt {s : State} {a : Nat} {b : Byte} (h : s.byteAt a = some b) : s.isRam a = true := by
  unfold State.byteAt at h
  split at h
  · assumption
  · cases h

/-- A dword reads the same where its four bytes do. -/
theorem physRead32_congr {pa v : Word} {s t : State} (h : physRead32 pa s = .ok v s)
    (same : ∀ a ∈ span pa 4, t.byteAt a.toNat = s.byteAt a.toNat) : physRead32 pa t = .ok v t := by
  obtain ⟨bs, u, read, value⟩ := bind_eq_ok h
  cases value
  have bytes : (span pa 4).map (fun a => t.byteAt a.toNat) = bs.map some := by
    rw [← (physReadBytes_ok read).2]
    exact List.map_congr_left same
  rw [physRead32, physReadBytes_of_byteAt bytes, bind_ok]

/-- Two aligned dwords at different addresses share no byte. -/
theorem span_disjoint_of_aligned {e e' : Word} (he : e.toNat % 4 = 0) (he' : e'.toNat % 4 = 0)
    (apart : e ≠ e') {a b : Word} (ha : a ∈ span e 4) (hb : b ∈ span e' 4) : b.toNat ≠ a.toNat := by
  obtain ⟨i, hi, rfl⟩ := mem_span.1 ha
  obtain ⟨j, hj, rfl⟩ := mem_span.1 hb
  have addresses : e.toNat ≠ e'.toNat := fun same => apart (BitVec.eq_of_toNat_eq same)
  rw [toNat_add_of_aligned he hi, toNat_add_of_aligned he' hj]
  omega

/-- A dword that can be read can be written: its bytes are memory (R176). -/
theorem physWrite32_of_physRead32 {pa v : Word} {s : State} (h : physRead32 pa s = .ok v s) (new : Word) :
    ∃ t, physWrite32 pa new s = .ok () t := by
  obtain ⟨bs, u, read, -⟩ := bind_eq_ok h
  refine physWriteBytes_of_isRam fun x hx => ?_
  have byte := List.mem_map_of_mem (f := fun a => s.byteAt a.toNat) (List.of_mem_zip hx).1
  rw [(physReadBytes_ok read).2] at byte
  obtain ⟨b, -, hb⟩ := List.mem_map.1 byte
  exact isRam_of_byteAt hb.symm

/-- `t` is `s` with the dword `v` at `pa` in memory, and nothing else changed. -/
structure Updated (pa v : Word) (s t : State) : Prop where
  read : physRead32 pa t = .ok v t
  other : SameMemoryBut (span pa 4) s t
  eq : t = { s with mem := t.mem }

theorem updated_of_physRead32 {pa v : Word} {s : State} (h : physRead32 pa s = .ok v s) : Updated pa v s s :=
  ⟨h, sameMemoryBut_refl _ s, rfl⟩

theorem updated_of_physWrite32 {pa v : Word} {s t : State} {u : Unit} (h : physWrite32 pa v s = .ok u t) :
    Updated pa v s t :=
  ⟨physRead32_physWrite32 h, physWrite32_sameMemoryBut h, (physWrite32_ok h).1⟩

/-- An update of one entry leaves every other as it was. -/
theorem Updated.physRead32_other {pa pa' v v' : Word} {s t : State} (h : Updated pa v s t)
    (aligned : pa.toNat % 4 = 0) (aligned' : pa'.toNat % 4 = 0) (apart : pa ≠ pa')
    (before : physRead32 pa' s = .ok v' s) : physRead32 pa' t = .ok v' t :=
  physRead32_congr before fun a ha =>
    h.other a.toNat fun _ hb => span_disjoint_of_aligned aligned' aligned (Ne.symm apart) ha hb

/-- A walk leaves A set in a directory entry (R141, R143). -/
theorem setPdeA_updated {pa pde : Word} {s s1 : State} {u : Unit} (read : physRead32 pa s = .ok pde s)
    (h : setPdeA pa pde s = .ok u s1) : Updated pa (pde ||| 0x20) s s1 := by
  unfold setPdeA at h
  split at h
  · rename_i accessed
    cases h
    have kept : pde ||| 0x20 = pde := by
      apply BitVec.eq_of_getLsbD_eq
      intro i _
      have bit : pde.getLsbD 5 = true := accessed
      rw [show (0x20 : Word) = bitMask 5 from rfl, BitVec.getLsbD_or, getLsbD_bitMask (by decide)]
      by_cases five : i = 5 <;> simp [five, bit]
    rw [kept]
    exact updated_of_physRead32 read
  · exact updated_of_physWrite32 h

/-- The TLB entry that a walk stores (R158). -/
def walkEntry (pde pte la : Word) (acc : Access) : TlbEntry where
  v := true
  d := (touchedPte pte acc).getLsbD 6
  us := entryUs pde && entryUs pte
  rw := entryRw pde && entryRw pte
  page := pageOf la
  frame := pte.extractLsb' 12 20

/-- The end of a walk always succeeds: the page table entry updated, and the entry in the TLB (R141, R158). -/
theorem finishWalk_eq {pa pde pte la : Word} {acc : Access} {s : State} (read : physRead32 pa s = .ok pte s) :
    ∃ t, finishWalk pa pde pte la acc s =
        .ok (pte.extractLsb' 12 20) (tlbStore (walkEntry pde pte la acc) t) ∧
      Updated pa (touchedPte pte acc) s t := by
  unfold finishWalk
  dsimp only
  split
  · rename_i kept
    refine ⟨s, rfl, ?_⟩
    rw [kept]
    exact updated_of_physRead32 read
  · obtain ⟨t, written⟩ := physWrite32_of_physRead32 read (touchedPte pte acc)
    refine ⟨t, ?_, updated_of_physWrite32 written⟩
    rw [written, bind_ok]
    rfl

/-- D of a page table entry after a walk: as it was, or set by a write (R144). -/
theorem getLsbD_touchedPte_dirty (pte : Word) (acc : Access) :
    (touchedPte pte acc).getLsbD 6 = (pte.getLsbD 6 || decide (acc.kind = .write)) := by
  unfold touchedPte
  split <;> simp [*]

/-- The entry that was stored last is the one that a lookup finds (R157, R158). -/
theorem tlbFind_tlbInsert (l : List TlbEntry) {e : TlbEntry} (valid : e.v = true) (pick : Word) :
    tlbFind (tlbInsert l e pick) e.page = some e := by
  unfold tlbInsert
  dsimp only
  split <;> simp [tlbFind, valid]

/-- A walk whose directory entry is present goes on to the page table entry (R141). -/
theorem walk_of_present {s s1 : State} {la pde pte : Word} {acc : Access}
    (directory : physRead32 (pdeAddr s.cr3 la) s = .ok pde s) (present : entryP pde = true)
    (accessed : setPdeA (pdeAddr s.cr3 la) pde s = .ok () s1)
    (table : physRead32 (pteAddr pde la) s1 = .ok pte s1) :
    walk la acc s =
      if entryP pte = false then .stop (.next (faultAtPte pde la acc false s s1))
      else if permitted (entryUs pde && entryUs pte) (entryRw pde && entryRw pte) acc = false then
        .stop (.next (faultAtPte pde la acc true s s1))
      else finishWalk (pteAddr pde la) pde pte la acc s1 := by
  rw [walk, directory, bind_ok, if_neg (by simp [present]), accessed, bind_ok, table, bind_ok]

/-- Settles O41: the directory entry is `setPdeA_updated`, the table entry and the TLB are `finishWalk_eq`. -/
theorem successfulWalkMarksAndFills : Obligations.SuccessfulWalkMarksAndFills := by
  intro s s1 la pde pte acc directory present accessed table presentPte allowed
  obtain ⟨u, finished, pteUpdated⟩ := finishWalk_eq (pde := pde) (la := la) (acc := acc) table
  have pdeUpdated := setPdeA_updated directory accessed
  have run : walk la acc s = .ok (pte.extractLsb' 12 20) (tlbStore (walkEntry pde pte la acc) u) := by
    rw [walk_of_present directory present accessed table, if_neg (by simp [presentPte]),
      if_neg (by simp [allowed]), finished]
  have stored : SameMemory u (tlbStore (walkEntry pde pte la acc) u) := byteAt_congr rfl rfl
  have others := pdeUpdated.other.trans pteUpdated.other
  refine ⟨_, run, physRead32_congr pteUpdated.read fun a _ => stored _, fun apart => ?_,
    ⟨walkEntry pde pte la acc, ?_, rfl, rfl, rfl, getLsbD_touchedPte_dirty pte acc⟩,
    fun a ha => (stored a).trans (others a ha), ((walk_quiet la acc s).walked run).eq⟩
  · have kept := pteUpdated.physRead32_other (pteAddr_aligned pde la) (pdeAddr_aligned _ la) apart
      pdeUpdated.read
    exact physRead32_congr kept fun a _ => stored _
  · exact tlbFind_tlbInsert _ rfl _

end Sys2Proof.Machine
end

section
/-!
Page faults: where a walk raises one, what it leaves, and a TLB entry that agrees with the tables.
-/

namespace Sys2Proof.Machine

theorem pageTranslate_of_miss {s : State} {la : Word} {acc : Access} (pg : s.pg = true)
    (miss : tlbFind s.tlb (pageOf la) = none) : pageTranslate la acc s = walk la acc s := by
  simp [pageTranslate, pg, miss]

/-- A walk that meets a directory entry with P = 0 raises the page fault (R141, R150). -/
theorem walk_of_absent {s : State} {la pde : Word} {acc : Access}
    (directory : physRead32 (pdeAddr s.cr3 la) s = .ok pde s) (absent : entryP pde = false) :
    walk la acc s = .stop (.next (pageFault la acc false s)) := by
  rw [walk, directory, bind_ok, if_pos absent]

/-- A walk that faults at the page table entry records that entry's P (R141, R306). -/
theorem walk_of_refused {s s1 : State} {la pde pte : Word} {acc : Access}
    (directory : physRead32 (pdeAddr s.cr3 la) s = .ok pde s) (present : entryP pde = true)
    (accessed : setPdeA (pdeAddr s.cr3 la) pde s = .ok () s1)
    (table : physRead32 (pteAddr pde la) s1 = .ok pte s1)
    (refused : entryP pte = false ∨
      permitted (entryUs pde && entryUs pte) (entryRw pde && entryRw pte) acc = false) :
    walk la acc s = .stop (.next (faultAtPte pde la acc (entryP pte) s s1)) := by
  rw [walk_of_present directory present accessed table]
  cases presentPte : entryP pte
  · rw [if_pos rfl]
  · have refused := refused.resolve_left (by simp [presentPte])
    rw [if_neg (by simp), if_pos refused]

/-- What is left where a walk faults at the page table entry is a page fault, taken in the state before the
directory entry's A was written or the one after it, as a free value says (R143). -/
theorem faultAtPte_eq (pde la : Word) (acc : Access) (p : Bool) (s0 s1 : State) :
    ∃ u, faultAtPte pde la acc p s0 s1 = pageFault la acc p u ∧
      (u = s1 ∨ u = s1.afterDraw ∨ u = s0.afterDraw) := by
  unfold faultAtPte
  split_ifs
  · exact ⟨s1, rfl, .inl rfl⟩
  · exact ⟨s1.afterDraw, rfl, .inr (.inl rfl)⟩
  · exact ⟨s0.afterDraw, rfl, .inr (.inr rfl)⟩

/-- What the translation of `la` can have done by the time it raises a page fault: entries dropped from the
TLB, free values drawn, and A set in the lowest byte of the directory entry (R143). -/
structure BeforeFault (la : Word) (s u : State) : Prop where
  tlb : ∀ e ∈ u.tlb, e ∈ s.tlb
  bytes : ∀ a, u.byteAt a = s.byteAt a ∨
    a = (pdeAddr s.cr3 la).toNat ∧ ∃ b, s.byteAt a = some b ∧ u.byteAt a = some (b ||| 0x20)
  eq : u = { s with mem := u.mem, tlb := u.tlb, draws := u.draws }

theorem BeforeFault.refl (la : Word) (s : State) : BeforeFault la s s :=
  ⟨fun _ => id, fun _ => .inl rfl, rfl⟩

theorem BeforeFault.afterDraw {la : Word} {s u : State} (h : BeforeFault la s u) :
    BeforeFault la s u.afterDraw := by
  refine ⟨h.tlb, h.bytes, ?_⟩
  rw [h.eq]
  rfl

/-- A translation may draw a free value and drop TLB entries before it walks (R160). -/
theorem BeforeFault.of_walk {la : Word} {s s' u : State} (h : BeforeFault la s' u)
    (eq : s' = { s with tlb := s'.tlb, draws := s'.draws }) (kept : ∀ e ∈ s'.tlb, e ∈ s.tlb) :
    BeforeFault la s u := by
  rw [eq] at h
  refine ⟨fun e he => kept e (h.tlb e he), h.bytes, ?_⟩
  rw [h.eq]

theorem setPdeA_beforeFault {la pde : Word} {s s1 : State} {v : Unit}
    (directory : physRead32 (pdeAddr s.cr3 la) s = .ok pde s)
    (accessed : setPdeA (pdeAddr s.cr3 la) pde s = .ok v s1) : BeforeFault la s s1 := by
  unfold setPdeA at accessed
  split at accessed
  · cases accessed
    exact .refl la s
  · obtain ⟨b, before, after⟩ :=
      byteAt_physWrite32_or (mb := 0x20) rfl (pdeAddr_aligned _ la) directory accessed
    have frame := (physWrite32_ok accessed).1
    refine ⟨by rw [frame]; exact fun _ => id, fun a => ?_, by rw [frame]⟩
    rw [after]
    split
    · rename_i low
      exact .inr ⟨low, b, low ▸ before, rfl⟩
    · exact .inl rfl

theorem faultAtPte_beforeFault {s s1 : State} (pde la : Word) (acc : Access) (p : Bool)
    (h : BeforeFault la s s1) :
    ∃ u, faultAtPte pde la acc p s s1 = pageFault la acc p u ∧ BeforeFault la s u := by
  obtain ⟨u, fault, rfl | rfl | rfl⟩ := faultAtPte_eq pde la acc p s s1
  · exact ⟨_, fault, h⟩
  · exact ⟨_, fault, h.afterDraw⟩
  · exact ⟨_, fault, (BeforeFault.refl la s).afterDraw⟩

theorem setPdeA_ne_next (pa pde : Word) (s t : State) : setPdeA pa pde s ≠ .stop (.next t) := by
  unfold setPdeA
  split
  · nofun
  · exact physWrite32_ne_next _ _ s t

theorem finishWalk_ne_next (pa pde pte la : Word) (acc : Access) (s t : State) :
    finishWalk pa pde pte la acc s ≠ .stop (.next t) := by
  intro h
  rcases bind_eq_stop h with h | ⟨_, _, -, h⟩
  · split at h
    · cases h
    · exact physWrite32_ne_next _ _ _ _ h
  · cases h

/-- Every exception of a walk is a page fault for the address walked (R150). -/
theorem walk_next {la : Word} {acc : Access} {s t : State} (h : walk la acc s = .stop (.next t)) :
    ∃ p u, t = pageFault la acc p u ∧ BeforeFault la s u := by
  rcases bind_eq_stop h with read | ⟨pde, s', directory, rest⟩
  · exact absurd read (physRead32_ne_next _ _ _)
  obtain rfl := physRead32_ok directory
  split at rest
  · cases rest
    exact ⟨false, _, rfl, .refl la _⟩
  rcases bind_eq_stop rest with write | ⟨_, s1, accessed, afterDirectory⟩
  · exact absurd write (setPdeA_ne_next _ _ _ _)
  rcases bind_eq_stop afterDirectory with read | ⟨pte, s1', table, afterTable⟩
  · exact absurd read (physRead32_ne_next _ _ _)
  obtain rfl := physRead32_ok table
  have before := setPdeA_beforeFault directory accessed
  split at afterTable
  · cases afterTable
    exact ⟨false, faultAtPte_beforeFault pde la acc false before⟩
  · split at afterTable
    · cases afterTable
      exact ⟨true, faultAtPte_beforeFault pde la acc true before⟩
    · exact absurd afterTable (finishWalk_ne_next _ _ _ _ _ _ _)

/-- Every exception of a page translation is a page fault for its address, and it is raised with paging on
(R141, R150). -/
theorem pageTranslate_next {la : Word} {acc : Access} {s t : State}
    (h : pageTranslate la acc s = .stop (.next t)) :
    s.pg = true ∧ ∃ p u, t = pageFault la acc p u ∧ BeforeFault la s u := by
  unfold pageTranslate at h
  split at h
  · cases h
  rename_i paging
  refine ⟨Bool.eq_true_of_not_eq_false paging, ?_⟩
  split at h
  · exact walk_next h
  split at h
  · split at h
    · cases h
      exact ⟨true, _, rfl, (BeforeFault.refl la s).afterDraw⟩
    · split at h
      · obtain ⟨p, u, fault, before⟩ := walk_next h
        exact ⟨p, u, fault, before.of_walk rfl fun _ => id⟩
      · cases h
  · obtain ⟨p, u, fault, before⟩ := walk_next h
    exact ⟨p, u, fault, before.of_walk rfl fun _ he => (List.mem_filter.1 he).1⟩

/-- Settles O42: where a walk faults are `walk_of_absent` and `walk_of_refused`, and what every page fault
leaves is `pageTranslate_next`. -/
theorem pageFaultsAreRaisedAndRecorded : Obligations.PageFaultsAreRaisedAndRecorded := by
  refine ⟨fun s la pde acc pg miss directory => ?_, fun s t la acc h => ?_⟩
  · rw [pageTranslate_of_miss pg miss]
    refine ⟨walk_of_absent directory, fun s1 pte present accessed table refused => ?_⟩
    obtain ⟨u, fault, -⟩ := faultAtPte_eq pde la acc (entryP pte) s s1
    refine ⟨_, walk_of_refused directory present accessed table refused, ?_⟩
    rw [fault]
    rfl
  · obtain ⟨pg, p, u, rfl, before⟩ := pageTranslate_next h
    refine ⟨pg, rfl, ⟨p, rfl⟩, before.tlb, before.bytes, ?_⟩
    rw [before.eq]
    rfl

/-- Whether a TLB entry agrees with the tables depends on memory and CR3 alone. -/
theorem EntryMatchesTables.congr {e : TlbEntry} {la : Word} {s t : State} (h : EntryMatchesTables e la s)
    (mem : t.mem = s.mem) (platform : t.platform = s.platform) (cr3 : t.cr3 = s.cr3) :
    EntryMatchesTables e la t := by
  obtain ⟨pde, pte, directory, present, accessed, table, rest⟩ := h
  have same : ∀ {pa v : Word}, physRead32 pa s = .ok v s → physRead32 pa t = .ok v t := fun read =>
    physRead32_congr read fun _ _ => byteAt_congr mem platform _
  exact ⟨pde, pte, cr3 ▸ same directory, present, accessed, same table, rest⟩

/-- A walk where the tables hold what a TLB entry says: it answers the entry's frame or faults with P = 1, as
the entry's attributes say (R148, R160). -/
theorem walk_of_match {e : TlbEntry} {la : Word} {acc : Access} {s : State} (h : EntryMatchesTables e la s) :
    (permitted e.us e.rw acc = true → ∃ t, walk la acc s = .ok e.frame t) ∧
      (permitted e.us e.rw acc = false → walk la acc s = .stop (.next (pageFault la acc true s))) := by
  obtain ⟨pde, pte, directory, present, accessed, table, presentPte, frame, user, writable⟩ := h
  have kept : setPdeA (pdeAddr s.cr3 la) pde s = .ok () s := if_pos accessed
  rw [frame, user, writable]
  refine ⟨fun allowed => ?_, fun refused => ?_⟩
  · obtain ⟨u, finished, -⟩ := finishWalk_eq (pde := pde) (la := la) (acc := acc) table
    refine ⟨tlbStore (walkEntry pde pte la acc) u, ?_⟩
    rw [walk_of_present directory present kept table, if_neg (by simp [presentPte]),
      if_neg (by simp [allowed]), finished]
  · rw [walk_of_refused directory present kept table (.inr refused), presentPte, faultAtPte, if_pos accessed]

/-- A translation that meets a TLB entry takes its answer from the entry, or walks in a state with the same
memory and CR3 (R157, R159, R160). -/
theorem pageTranslate_of_hit {s : State} {la : Word} {acc : Access} {e : TlbEntry} (pg : s.pg = true)
    (hit : tlbFind s.tlb (pageOf la) = some e) :
    (∃ u, u.mem = s.mem ∧ u.platform = s.platform ∧ u.cr3 = s.cr3 ∧
        pageTranslate la acc s = walk la acc u) ∨
      (permitted e.us e.rw acc = false ∧
        pageTranslate la acc s = .stop (.next (pageFault la acc true s.afterDraw))) ∨
        (permitted e.us e.rw acc = true ∧ pageTranslate la acc s = .ok e.frame s.afterDraw) := by
  unfold pageTranslate
  rw [if_neg (by simp [pg]), hit]
  dsimp only
  split_ifs with use refused dirty
  · exact .inr (.inl ⟨refused, rfl⟩)
  · exact .inl ⟨s.afterDraw, rfl, rfl, rfl, rfl⟩
  · exact .inr (.inr ⟨Bool.eq_true_of_not_eq_false refused, rfl⟩)
  · exact .inl ⟨{ s.afterDraw with tlb := tlbDrop s.tlb (pageOf la) }, rfl, rfl, rfl, rfl⟩

/-- Settles O43: a translation that walks does what `walk_of_match` says, and the entry says the same. -/
theorem tlbHitAgreesWithTheTables : Obligations.TlbHitAgreesWithTheTables := by
  intro s la acc e pg hit agrees
  rcases pageTranslate_of_hit (acc := acc) pg hit with
    ⟨u, mem, platform, cr3, walks⟩ | ⟨refused, faults⟩ | ⟨allowed, answers⟩
  · obtain ⟨answer, fault⟩ := walk_of_match (acc := acc) (agrees.congr mem platform cr3)
    rw [walks]
    exact ⟨answer, fun refused => ⟨_, fault refused, rfl, rfl⟩⟩
  · exact ⟨fun allowed => absurd refused (by simp [allowed]), fun _ => ⟨_, faults, rfl, rfl⟩⟩
  · exact ⟨fun _ => ⟨_, answers⟩, fun refused => absurd refused (by simp [allowed])⟩

end Sys2Proof.Machine
end

section
/-!
Segments: what a segment translation that answers has tested, and the descriptor that a selector names.
-/

namespace Sys2Proof.Machine

/-- Segment translation that answers has passed the limit and, in protected mode, the tests of the register
and of the kind of access (R128). -/
theorem segTranslate_ok_tests {r : SegReg} {off : Word} {n : Nat} {k : AccessKind} {s t : State} {la : Word}
    (h : segTranslate r off n k s = .ok la t) :
    inLimit (s.seg.get r) off n = true ∧
      (s.pe = true →
        (s.seg.get r).attr.valid = true ∧ kindAllowed (s.seg.get r).attr.typ k = true) := by
  unfold segTranslate raiseFault at h
  split_ifs at h with real invalid kind limit
  refine ⟨Bool.eq_true_of_not_eq_false limit, fun pe => ⟨?_, ?_⟩⟩
  · exact Bool.eq_true_of_not_eq_false fun bad => invalid ⟨pe, bad⟩
  · exact Bool.eq_true_of_not_eq_false fun bad => kind ⟨pe, bad⟩

/-- Inside the limit of a segment that does not expand down, by the number of its last byte (R129). -/
theorem inLimit_expandUp {g : Segment} {off : Word} {n : Nat}
    (up : typeCode g.attr.typ = true ∨ typeEC g.attr.typ = false) (h : inLimit g off n = true) :
    off.toNat + n ≤ g.limit.toNat + 1 := by
  have kind : (!typeCode g.attr.typ && typeEC g.attr.typ) = false := by
    rcases up with code | up
    · rw [code, Bool.not_true, Bool.false_and]
    · rw [up, Bool.and_false]
  rw [inLimit, kind, if_neg Bool.false_ne_true, decide_eq_true_eq] at h
  omega

/-- Inside an expand-down segment: above the limit, and not past the top that D gives (R129). -/
theorem inLimit_expandDown {g : Segment} {off : Word} {n : Nat}
    (data : typeCode g.attr.typ = false) (down : typeEC g.attr.typ = true) (h : inLimit g off n = true) :
    g.limit.toNat < off.toNat ∧ off.toNat + n ≤ if g.attr.d = true then 0x100000000 else 0x10000 := by
  have kind : (!typeCode g.attr.typ && typeEC g.attr.typ) = true := by rw [data, down]; rfl
  rw [inLimit, kind, if_pos rfl] at h
  cases size : g.attr.d <;> simp [size] at h ⊢ <;> omega

/-- A segment that may be written is writable data (R128). -/
theorem kindAllowed_write {t : BitVec 3} :
    kindAllowed t .write = true ↔ typeCode t = false ∧ typeRW t = true := by
  simp [kindAllowed]

/-- A segment that may be read is not execute-only code (R128). -/
theorem kindAllowed_read {t : BitVec 3} :
    kindAllowed t .read = true ↔ typeCode t = false ∨ typeRW t = true := by
  simp [kindAllowed]

/-- Settles O45: the tests are `segTranslate_ok_tests`, the limits the two lemmas on `inLimit`. -/
theorem segmentAccessesStayInside : Obligations.SegmentAccessesStayInside := by
  intro r off la n k s t _ h
  obtain ⟨same, address⟩ := segTranslate_ok h
  obtain ⟨limit, tests⟩ := segTranslate_ok_tests h
  refine ⟨same, address, fun up => inLimit_expandUp up limit,
    fun data down => inLimit_expandDown data down limit, fun pe => ?_⟩
  obtain ⟨valid, kind⟩ := tests pe
  exact ⟨valid, fun write => kindAllowed_write.1 (write ▸ kind),
    fun read => kindAllowed_read.1 (read ▸ kind)⟩

/-- A selector's index times 8, as a number (R121, R123). -/
theorem tableOffset_toNat (sel : Half) : (tableOffset sel).toNat = sel.toNat / 8 * 8 := by
  have := sel.isLt
  simp only [tableOffset, selIndex, BitVec.truncate_eq_setWidth, BitVec.toNat_mul, BitVec.toNat_setWidth,
    BitVec.extractLsb'_toNat, Nat.shiftRight_eq_div_pow, show (8 : Word).toNat = 8 from rfl]
  omega

theorem tableOf_global {sel : Half} (global : selTi sel = false) (s : State) :
    tableOf sel s = some (s.gdtr.base, s.gdtr.limit) :=
  if_pos global

theorem tableOf_local {sel : Half} {s : State} (ti : selTi sel = true) (valid : s.ldtr.valid = true) :
    tableOf sel s = some (s.ldtr.base, s.ldtr.limit) := by
  simp [tableOf, ti, valid]

theorem tableOf_noLdt {sel : Half} {s : State} (ti : selTi sel = true) (invalid : s.ldtr.valid = false) :
    tableOf sel s = none := by
  simp [tableOf, ti, invalid]

/-- A selector of the local table where there is none (R123). -/
theorem fetchDescriptor_noTable {sel : Half} {s : State} (none : tableOf sel s = none) :
    fetchDescriptor sel s = raiseFault .gp (selectorCode sel) s := by
  rw [fetchDescriptor, fetchDescriptorAt, none]
  rfl

/-- A selector whose descriptor does not lie whole within its table (R123). -/
theorem fetchDescriptor_outside {sel : Half} {s : State} {base : Word} {limit : Half}
    (table : tableOf sel s = some (base, limit)) (outside : limit.toNat < sel.toNat / 8 * 8 + 7) :
    fetchDescriptor sel s = raiseFault .gp (selectorCode sel) s := by
  rw [fetchDescriptor, fetchDescriptorAt, table]
  dsimp only
  rw [if_pos (by rw [tableOffset_toNat]; exact outside)]
  rfl

/-- With paging off the descriptor is the eight bytes at its place in the table, and nothing changes (R123). -/
theorem fetchDescriptor_paging_off {sel : Half} {s : State} {base : Word} {limit : Half} {bs : List Byte}
    (table : tableOf sel s = some (base, limit)) (inside : sel.toNat / 8 * 8 + 7 ≤ limit.toNat)
    (pg : s.pg = false)
    (bytes : (span (base + tableOffset sel) 8).map (fun a => s.byteAt a.toNat) = bs.map some) :
    fetchDescriptor sel s = .ok (BitVec.ofNat 64 (leNat bs)) s := by
  rw [fetchDescriptor, fetchDescriptorAt, table]
  dsimp only
  rw [if_neg (by rw [tableOffset_toNat]; omega), linRead, linTranslate_paging_off _ _ pg (by decide), bind_ok,
    physReadBytes_of_byteAt bytes]
  rfl

/-- The bytes of a span, by their numbers. -/
theorem map_span_eq {a : Word} {n : Nat} {s : State} {bs : List Byte} (length : bs.length = n)
    (bytes : ∀ j, j < n → s.byteAt (a + BitVec.ofNat 32 j).toNat = bs[j]?) :
    (span a n).map (fun a => s.byteAt a.toNat) = bs.map some := by
  refine List.ext_getElem (by simp [span, length]) fun j _ inBytes => ?_
  have inBytes : j < bs.length := by simpa using inBytes
  simp only [span, List.getElem_map, List.getElem_range]
  rw [bytes j (length ▸ inBytes), List.getElem?_eq_getElem inBytes]

/-- A bit of the number that bytes make is a bit of one of the bytes (R170). -/
theorem getLsbD_leNat {w : Nat} {bs : List Byte} {k i : Nat} (hk : k < bs.length) (hi : i < 8)
    (fits : 8 * bs.length ≤ w) : (BitVec.ofNat w (leNat bs)).getLsbD (8 * k + i) = bs[k].getLsbD i := by
  have inside : 8 * k + i < w := by omega
  rw [BitVec.getLsbD_ofNat, decide_eq_true inside, Bool.true_and]
  clear fits inside
  induction bs generalizing k with
  | nil => simp at hk
  | cons b bs ih =>
    rw [leNat, Nat.add_comm, Nat.testBit_two_pow_mul_add (i := 8) _ b.isLt]
    cases k with
    | zero =>
      rw [if_pos (by omega), Nat.mul_zero, Nat.zero_add]
      rfl
    | succ k =>
      have hk : k < bs.length := by simpa using hk
      rw [if_neg (by omega), show 8 * (k + 1) + i - 8 = 8 * k + i by omega, ih hk]
      rfl

/-- A field within one byte of the number that bytes make (R170). -/
theorem extractLsb'_leNat {w : Nat} {bs : List Byte} {k : Nat} (hk : k < bs.length)
    (fits : 8 * bs.length ≤ w) {start len : Nat} (byte : start + len ≤ 8) :
    (BitVec.ofNat w (leNat bs)).extractLsb' (8 * k + start) len = bs[k].extractLsb' start len := by
  apply BitVec.eq_of_getLsbD_eq
  intro i hi
  rw [BitVec.getLsbD_extractLsb', BitVec.getLsbD_extractLsb', Nat.add_assoc,
    getLsbD_leNat hk (by omega) fits]

/-- A field of two bytes of it. -/
theorem extractLsb'_leNat_two {w : Nat} {bs : List Byte} {k : Nat} (hk : k + 1 < bs.length)
    (fits : 8 * bs.length ≤ w) :
    (BitVec.ofNat w (leNat bs)).extractLsb' (8 * k) 16 = bs[k + 1] ++ bs[k] := by
  apply BitVec.eq_of_getLsbD_eq
  intro i hi
  rw [BitVec.getLsbD_extractLsb', decide_eq_true hi, Bool.true_and, BitVec.getLsbD_append]
  split
  · rename_i low
    exact getLsbD_leNat _ low fits
  · rw [show 8 * k + i = 8 * (k + 1) + (i - 8) by omega]
    exact getLsbD_leNat hk (by omega) fits

/-- BASE of a descriptor's eight bytes: the last, the fifth and two in the middle (R106). -/
theorem descBase_leNat {bs : List Byte} (length : bs.length = 8) :
    descBase (BitVec.ofNat 64 (leNat bs)) = bs[7] ++ bs[4] ++ bs[3] ++ bs[2] := by
  have fits : 8 * bs.length ≤ 64 := by omega
  have byte7 : (BitVec.ofNat 64 (leNat bs)).extractLsb' 56 8 = bs[7] :=
    (extractLsb'_leNat (k := 7) (start := 0) (by omega) fits (by decide)).trans BitVec.extractLsb'_eq_self
  have byte4 : (BitVec.ofNat 64 (leNat bs)).extractLsb' 32 8 = bs[4] :=
    (extractLsb'_leNat (k := 4) (start := 0) (by omega) fits (by decide)).trans BitVec.extractLsb'_eq_self
  have bytes32 : (BitVec.ofNat 64 (leNat bs)).extractLsb' 16 16 = bs[3] ++ bs[2] :=
    extractLsb'_leNat_two (k := 2) (by omega) fits
  rw [descBase, byte7, byte4, bytes32]
  exact (BitVec.append_assoc (x₁ := bs[7] ++ bs[4]) (x₂ := bs[3]) (x₃ := bs[2])).symm

/-- LIMIT of a descriptor's eight bytes: half of the seventh and the first two (R106). -/
theorem descLimit_leNat {bs : List Byte} (length : bs.length = 8) :
    descLimit (BitVec.ofNat 64 (leNat bs)) = bs[6].extractLsb' 0 4 ++ bs[1] ++ bs[0] := by
  have fits : 8 * bs.length ≤ 64 := by omega
  have nibble : (BitVec.ofNat 64 (leNat bs)).extractLsb' 48 4 = bs[6].extractLsb' 0 4 :=
    extractLsb'_leNat (k := 6) (start := 0) (by omega) fits (by decide)
  have bytes10 : (BitVec.ofNat 64 (leNat bs)).extractLsb' 0 16 = bs[1] ++ bs[0] :=
    extractLsb'_leNat_two (k := 0) (by omega) fits
  rw [descLimit, nibble, bytes10]
  exact (BitVec.append_assoc (x₁ := bs[6].extractLsb' 0 4) (x₂ := bs[1]) (x₃ := bs[0])).symm

theorem effLimit_bytes (l : BitVec 20) : (effLimit l false).toNat = l.toNat := by
  have := l.isLt
  simp only [effLimit, Bool.false_eq_true, if_false, BitVec.truncate_eq_setWidth, BitVec.toNat_setWidth]
  omega

theorem effLimit_pages (l : BitVec 20) : (effLimit l true).toNat = l.toNat * 4096 + 4095 := by
  rw [effLimit, if_pos rfl, BitVec.toNat_append, ← Nat.shiftLeft_add_eq_or_of_lt (0xFFF#12).isLt,
    Nat.shiftLeft_eq]
  rfl

/-- Settles O46: the faults are `fetchDescriptor_noTable` and `fetchDescriptor_outside`, the bytes
`fetchDescriptor_paging_off`, and the fields are bits of the bytes. -/
theorem descriptorsAreFetchedAndLaidOut : Obligations.DescriptorsAreFetchedAndLaidOut := by
  refine ⟨fun sel s => ⟨fun ti invalid => fetchDescriptor_noTable (tableOf_noLdt ti invalid),
    fun base limit names => ?_⟩, fun b0 b1 b2 b3 b4 b5 b6 b7 => ?_,
    fun l => ⟨effLimit_bytes l, effLimit_pages l⟩⟩
  · have table : tableOf sel s = some (base, limit) := by
      rcases names with ⟨global, rfl, rfl⟩ | ⟨ti, valid, rfl, rfl⟩
      · exact tableOf_global global s
      · exact tableOf_local ti valid
    refine ⟨fetchDescriptor_outside table, fun inside pg bs length bytes =>
      fetchDescriptor_paging_off table inside pg (map_span_eq length fun j hj => ?_)⟩
    have offset : tableOffset sel = BitVec.ofNat 32 (sel.toNat / 8 * 8) := by
      rw [← tableOffset_toNat, BitVec.ofNat_toNat, BitVec.setWidth_eq]
    rw [← bytes j hj, offset, BitVec.ofNat_add, BitVec.add_assoc]
  · have six : 6 < [b0, b1, b2, b3, b4, b5, b6, b7].length := by simp
    have five : 5 < [b0, b1, b2, b3, b4, b5, b6, b7].length := by simp
    have fits : 8 * [b0, b1, b2, b3, b4, b5, b6, b7].length ≤ 64 := by simp
    exact ⟨descBase_leNat rfl, descLimit_leNat rfl,
      getLsbD_leNat (i := 7) six (by decide) fits, getLsbD_leNat (i := 6) six (by decide) fits,
      getLsbD_leNat (i := 7) five (by decide) fits, extractLsb'_leNat (start := 5) five fits (by decide),
      getLsbD_leNat (i := 4) five (by decide) fits, extractLsb'_leNat (start := 1) five fits (by decide),
      getLsbD_leNat (i := 0) five (by decide) fits⟩

end Sys2Proof.Machine
end

section
/-!
Memory operands of SMSW and LMSW: what LMSW leaves, where the operand stops the instruction, and a store that
faults at its second page.
-/

namespace Sys2Proof.Machine

/-- LMSW writes where PE keeps its value, or the low bits of the CS selector are 0 (R238, R241). -/
theorem loadMsw_completes {v : Half} {s : State}
    (level : s.pe = true ∨ v.getLsbD 0 = false ∨ s.seg.cs.sel.extractLsb' 0 2 = 0) :
    loadMsw v s = .next (writeMsw v s) := by
  refine if_neg (Bool.eq_false_iff.1 ?_)
  rcases level with pe | clear | sel
  · rw [peChangeRefused, pe, Bool.not_true, Bool.false_and, Bool.false_and]
  · rw [peChangeRefused, clear, Bool.and_false, Bool.false_and]
  · simp [peChangeRefused, sel]

/-- What reading the source of LMSW leaves (R11, R238). -/
theorem readRm16_touched {p : Prefixes} {o : RM16} {s u : State} {src : Half}
    (read : readRm16 p o s = .ok src u) : Touched s u := by
  have := readRm16_checked p o s
  rw [read] at this
  exact this

/-- Reading the source of LMSW changes no byte of memory but for A in the page table entries for a memory
source (R143, R238). -/
theorem readRm16_tablesMarked {p : Prefixes} {o : RM16} {s u : State} {src : Half}
    (read : readRm16 p o s = .ok src u) :
    TablesMarked (fun a => ∃ m, o = .mem m ∧ a ∈ span (operandLinear p m s) 2) false s u := by
  cases o with
  | reg r =>
    cases read
    exact fun _ => .inl rfl
  | mem m =>
    have marks := readRm16_marks (d := false) (s := s) (p := p) (m := m)
      (las := fun a => ∃ m', RM16.mem m = .mem m' ∧ a ∈ span (operandLinear p m' s) 2)
      fun a ha => ⟨m, rfl, ha⟩
    rw [read] at marks
    exact marks.marked

/-- Settles O26: the bits are those of `writeMsw`, and what came before it is `readRm16_touched` and
`readRm16_tablesMarked`. -/
theorem loadMswWritesFourBits : Obligations.LoadMswWritesFourBits := by
  intro p o s u src
  refine ⟨guarded_of_privileged rfl, fun r => rfl, fun may read level => ?_⟩
  have frame := (readRm16_touched read).eq
  have marked := readRm16_tablesMarked read
  have cr0 : u.cr0 = s.cr0 := by rw [frame]
  have pe : u.pe = s.pe := by rw [State.pe, cr0, State.pe]
  have run : exec (.lmsw p o) s = .next (writeMsw src u) := by
    have levelAfter : u.pe = true ∨ src.getLsbD 0 = false ∨ u.seg.cs.sel.extractLsb' 0 2 = 0 := by
      rw [pe, show u.seg = s.seg by rw [frame]]
      exact level
    change privileged s _ = _
    rw [privileged_of_may may, read, thenOut_ok, loadMsw_completes levelAfter]
  refine ⟨writeMsw src u, run, by rw [writeMsw_pe, pe], writeMsw_mp src u, writeMsw_em src u,
    writeMsw_ts src u, fun j high => ?_, byteAt_congr rfl rfl, rfl, frame, marked.sameMemory, ?_⟩
  · rw [getLsbD_writeMsw, if_neg (by omega), if_neg (by omega), cr0]
  · rintro m rfl a
    refine (marked a).imp_right (·.mono ?_ id)
    rintro la ⟨m', ⟨⟩, ha⟩
    exact ha

/-- In real mode a read or a write of an operand is refused (R131). -/
theorem segTranslate_real {r : SegReg} {off : Word} {n : Nat} {k : AccessKind} {s : State}
    (pe : s.pe = false) (notFetch : k ≠ .fetch) :
    segTranslate r off n k s = .stop (.refused .realModeOperand) :=
  if_pos ⟨pe, notFetch⟩

/-- A segment register that holds no descriptor raises GP(0) (R128). -/
theorem segTranslate_noDescriptor {r : SegReg} {off : Word} {n : Nat} {k : AccessKind} {s : State}
    (pe : s.pe = true) (invalid : (s.seg.get r).attr.valid = false) :
    segTranslate r off n k s = raiseFault .gp (.code 0) s := by
  simp [segTranslate, pe, invalid]

/-- An operand that the type or the limit of its segment does not allow raises SS(0) or GP(0) (R128). -/
theorem segTranslate_violation {r : SegReg} {off : Word} {n : Nat} {k : AccessKind} {s : State}
    (pe : s.pe = true) (valid : (s.seg.get r).attr.valid = true)
    (bad : kindAllowed (s.seg.get r).attr.typ k = false ∨ inLimit (s.seg.get r) off n = false) :
    segTranslate r off n k s = raiseFault (segViolation r) (.code 0) s := by
  rcases bad with kind | limit
  · simp [segTranslate, pe, valid, kind]
  · simp [segTranslate, pe, valid, limit]

/-- `i` accesses the memory operand `m`, `k` says how, and the instruction comes as far as its operand. -/
def ReachesOperand (p : Prefixes) (m : MemOperand) (i : Instr) (k : AccessKind) (s : State) : Prop :=
  i = .smsw p (.mem m) ∧ k = .write ∨ i = .lmsw p (.mem m) ∧ k = .read ∧ MayRunPrivileged s

/-- What segment translation stops with is what the instruction ends with; SMSW has drawn its free value
before (R11). -/
theorem exec_of_segTranslate_stop {p : Prefixes} {m : MemOperand} {i : Instr} {k : AccessKind} {s : State}
    (reaches : ReachesOperand p m i k s) :
    ∃ u, (u = s ∨ u = s.afterDraw) ∧
      ∀ o, segTranslate (operandSegment p m) (effectiveAddress m s) 2 k u = .stop o → exec i s = o := by
  rcases reaches with ⟨rfl, rfl⟩ | ⟨rfl, rfl, may⟩
  · refine ⟨s.afterDraw, .inr rfl, fun o stop => ?_⟩
    change (memWrite _ _ (effectiveAddress m s) (leBytes 2 (readMsw s).toNat) s.afterDraw).thenOut _ = _
    rw [memWrite, show (leBytes 2 (readMsw s).toNat).length = 2 from rfl, stop]
    rfl
  · refine ⟨s, .inl rfl, fun o stop => ?_⟩
    change privileged s _ = _
    rw [privileged_of_may may, readRm16, memRead, stop]
    rfl

/-- In real mode an instruction that comes to its memory operand is refused (R131). -/
theorem exec_operand_real {p : Prefixes} {m : MemOperand} {i : Instr} {k : AccessKind} {s : State}
    (reaches : ReachesOperand p m i k s) (pe : s.pe = false) : exec i s = .refused .realModeOperand := by
  have notFetch : k ≠ .fetch := by rcases reaches with ⟨-, rfl⟩ | ⟨-, rfl, -⟩ <;> nofun
  obtain ⟨u, rfl | rfl, ends⟩ := exec_of_segTranslate_stop reaches
  · exact ends _ (segTranslate_real pe notFetch)
  · exact ends _ (segTranslate_real pe notFetch)

/-- A fault of segment translation ends the instruction with no register and no byte of memory changed. -/
theorem exec_operand_fault {p : Prefixes} {m : MemOperand} {i : Instr} {k : AccessKind} {s : State} {x : Exc}
    (reaches : ReachesOperand p m i k s)
    (faults : ∀ u, u = s ∨ u = s.afterDraw →
      segTranslate (operandSegment p m) (effectiveAddress m s) 2 k u = raiseFault x (.code 0) u) :
    ∃ t, exec i s = .next t ∧ t.regs = s.regs ∧ t.cr0 = s.cr0 ∧ SameMemory s t ∧
      t.trapped = some { exc := x, cls := .fault, err := .code 0 } := by
  obtain ⟨u, hu, ends⟩ := exec_of_segTranslate_stop reaches
  refine ⟨takeException x .fault (.code 0) u, ends _ (faults u hu), ?_⟩
  rcases hu with rfl | rfl <;> exact ⟨rfl, rfl, byteAt_congr rfl rfl, rfl⟩

/-- SMSW to memory past the checks of its operand: the translation of both bytes, the test of R183, the
store (R11, R140, R239). -/
theorem exec_smsw_mem_translates {p : Prefixes} {m : MemOperand} {s w : State}
    (inside : OperandInside (operandSegment p m) (effectiveAddress m s) 2 .write s)
    (checked : dataBreakpoints .write (operandLinear p m s) 2 s.afterDraw = .ok () w) :
    exec (.smsw p (.mem m)) s =
      ((linTranslate (operandLinear p m s) 2 (operandAccess .write s) w).bind fun pas u =>
        if intoStream (groupLength p (.mem m)) (operandLinear p m s) 2 u then
          .stop (.refused .storeIntoStream)
        else physWriteBytes (pas.zip (leBytes 2 (readMsw s).toNat)) u).thenOut fun _ u => .next u := by
  have segment : segTranslate (operandSegment p m) (effectiveAddress m s) 2 .write s.afterDraw =
      .ok (operandLinear p m s) s.afterDraw :=
    segTranslate_of_inside inside
  have access : operandAccess .write w = operandAccess .write s :=
    (operandAccess_of_dataBreakpoints checked).trans rfl
  change (memWrite _ _ (effectiveAddress m s) (leBytes 2 (readMsw s).toNat) s.afterDraw).thenOut _ = _
  rw [memWrite, show (leBytes 2 (readMsw s).toNat).length = 2 from rfl, segment, bind_ok, checked, bind_ok,
    access]

/-- A store into the instruction stream is refused (R183). -/
theorem exec_smsw_mem_intoStream {p : Prefixes} {m : MemOperand} {s w u : State} {pas : List Word}
    (inside : OperandInside (operandSegment p m) (effectiveAddress m s) 2 .write s)
    (checked : dataBreakpoints .write (operandLinear p m s) 2 s.afterDraw = .ok () w)
    (translated : linTranslate (operandLinear p m s) 2 (operandAccess .write s) w = .ok pas u)
    (stream : intoStream (groupLength p (.mem m)) (operandLinear p m s) 2 s = true) :
    exec (.smsw p (.mem m)) s = .refused .storeIntoStream := by
  obtain ⟨frame, -⟩ := translated_for_write (by decide) checked translated
  have stream : intoStream (groupLength p (.mem m)) (operandLinear p m s) 2 u = true := by
    rw [← stream]
    apply intoStream_congr <;> rw [frame]
  rw [exec_smsw_mem_translates inside checked, translated, bind_ok, if_pos stream, thenOut_stop]

/-- Settles O30: the stops of segment translation reach the instruction's end by
`exec_of_segTranslate_stop`, the store into the stream is `exec_smsw_mem_intoStream`. -/
theorem memoryOperandsThatStop : Obligations.MemoryOperandsThatStop := by
  intro p m s
  refine ⟨fun real => ?_, fun i k reaches pe => ⟨fun invalid => ?_, fun valid bad => ?_⟩,
    fun w u pas inside checked translated stream => exec_smsw_mem_intoStream inside checked translated stream,
    fun r real set sel => ?_⟩
  · have may : MayRunPrivileged s := by rw [MayRunPrivileged, State.unprivileged, real, Bool.false_and]
    exact ⟨exec_operand_real (.inl ⟨rfl, rfl⟩) real, exec_operand_real (.inr ⟨rfl, rfl, may⟩) real⟩
  · refine exec_operand_fault reaches fun u hu => ?_
    rcases hu with rfl | rfl <;> exact segTranslate_noDescriptor pe invalid
  · refine exec_operand_fault reaches fun u hu => ?_
    rcases hu with rfl | rfl <;> exact segTranslate_violation pe valid bad
  · have may : MayRunPrivileged s := by rw [MayRunPrivileged, State.unprivileged, real, Bool.false_and]
    have source : (s.reg16 r).getLsbD 0 = true := by simpa [State.reg16] using set
    have refused : peChangeRefused s ((s.reg16 r).getLsbD 0) = true := by
      simpa [peChangeRefused, real, source] using sel
    change privileged s (loadMsw (s.reg16 r) s) = _
    rw [privileged_of_may may, loadMsw, if_pos refused]

/-- The data breakpoint check of SMSW leaves the page tables as they are (R324). -/
theorem marks_of_dataBreakpoints {las : Word → Prop} {d : Bool} {k : AccessKind} {la : Word} {n : Nat}
    {s w : State} {u : Unit} (checked : dataBreakpoints k la n s.afterDraw = .ok u w) : Marks las d s w := by
  rw [dataBreakpoints_ok checked]
  exact .of_same rfl rfl rfl rfl

/-- Two bytes of which the first is a page's last are translated one by one, the lower first (R140). -/
theorem linTranslate_two_split {la : Word} {acc : Access} {s u : State} {frame : BitVec 20} {o : Out}
    (last : offsetOf la = 0xFFF) (first : pageTranslate la acc s = .ok frame u)
    (second : pageTranslate (la + 1) acc u = .stop o) : linTranslate la 2 acc s = .stop o := by
  have piece : firstPiece la 2 = 1 := by rw [firstPiece, last]; rfl
  rw [linTranslate, first, bind_ok, piece]
  dsimp only
  rw [if_neg (by decide), show la + BitVec.ofNat 32 1 = la + 1 from rfl, second, bind_stop]

/-- Settles O44: SMSW ends as the translation of its second byte does, by `linTranslate_two_split`; the fault
is that of `pageTranslate_next`. -/
theorem splitStoreFaultsBeforeItWrites : Obligations.SplitStoreFaultsBeforeItWrites := by
  intro p m s w u t frame inside checked last first second
  have stops := linTranslate_two_split last first second
  have run : exec (.smsw p (.mem m)) s = .next t := by
    rw [exec_smsw_mem_translates inside checked, stops, bind_stop, thenOut_stop]
  have marks : Marks (· ∈ span (operandLinear p m s) 2) true s t := by
    have translation := linTranslate_marks (las := (· ∈ span (operandLinear p m s) 2)) (d := true) (s := w)
      (acc := operandAccess .write s) (fun _ ha => ha) (by decide) fun _ => rfl
    rw [stops] at translation
    exact (marks_of_dataBreakpoints checked).trans translation
  have nextPage : (operandLinear p m s + 1).toNat % 4096 = 0 := by
    have offset := offsetOf_next_page (la := operandLinear p m s) (k := 1) (by rw [last]; rfl)
    rwa [offsetOf_toNat] at offset
  obtain ⟨-, present, v, rfl, fault⟩ := pageTranslate_next second
  obtain ⟨regs, cr0, eip⟩ : v.regs = s.regs ∧ v.cr0 = s.cr0 ∧ v.eip = s.eip := by
    rw [fault.eq, ((pageTranslate_quiet _ _ w).walked first).eq, dataBreakpoints_ok checked]
    exact ⟨rfl, rfl, rfl⟩
  exact ⟨run, rfl, nextPage, ⟨present, rfl⟩, marks.marked, regs, cr0, eip⟩

end Sys2Proof.Machine
end

section
/-!
Decoding and encoding agree: the round trip both ways, and where an instruction ends.
-/

namespace Sys2Proof

/-- Settles O1: what `decode_encode` reads is not changed by the bytes that follow, by `decode_append`. -/
theorem decodeInvertsEncode : Obligations.DecodeInvertsEncode := by
  intro d i rest wf
  have decoded := decode_encode wf
  rw [decode_append rest (by rw [decoded]; nofun), decoded]

/-- Settles O2, by the lemmas on each decoding function that `decode_wf` puts together. -/
theorem decodedInstructionIsWellFormed : Obligations.DecodedInstructionIsWellFormed :=
  fun _ _ _ decoded => decode_wf decoded

/-- The loop over the prefixes ends at an opcode, and the instruction carries the prefixes it has read
(R208, R210). -/
theorem decodeFrom_opcode {d : Bool} {p : Prefixes} {l : List Byte} {i : Instr}
    (h : decodeFrom d p false l = .instr i) :
    ∃ q pre b rest, l = pre ++ b :: rest ∧ q.length = p.length + pre.length ∧
      decodeOpcode d q false b rest = .instr i := by
  induction l generalizing p with
  | nil => cases h
  | cons b l ih =>
    have read : ∀ q : Prefixes, q.length = p.length + 1 → decodeFrom d q false l = .instr i →
        ∃ q pre c rest, b :: l = pre ++ c :: rest ∧ q.length = p.length + pre.length ∧
          decodeOpcode d q false c rest = .instr i := by
      intro q longer decoded
      obtain ⟨q', pre, c, rest, rfl, length, opcode⟩ := ih decoded
      exact ⟨q', b :: pre, c, rest, rfl, by rw [length, longer, List.length_cons]; omega, opcode⟩
    unfold decodeFrom at h
    split at h
    · exact ⟨p, [], b, l, rfl, rfl, h⟩
    · cases h
    · split_ifs at h with present
      exact read _ (by simp [Prefixes.length, present]; omega) h
    · split_ifs at h with present
      exact read _ (by simp [Prefixes.length, present]; omega) h
    · split_ifs at h with present
      exact read _ (by simp [Prefixes.length, present]) h
    · exact absurd h decodeFrom_lock

theorem decodeDisp32_length_le {mod : BitVec 2} {rest : List Byte} {x : Disp32}
    (h : decodeDisp32 mod rest = some x) : x.length ≤ rest.length := by
  unfold decodeDisp32 at h
  split at h <;> cases h <;> simp [Disp32.length]

theorem decodeMem16_length_le {mod : BitVec 2} {rm : BitVec 3} {rest : List Byte} {m : MemOperand}
    (h : decodeMem16 mod rm rest = some m) : m.length ≤ rest.length := by
  unfold decodeMem16 at h
  split at h
  · split_ifs at h
    · split at h <;> cases h
      simp [MemOperand.length]
    · cases h
      exact Nat.zero_le _
  all_goals
    cases h <;> simp [MemOperand.length, Disp16.length]

theorem decodeSib_length_le {mod : BitVec 2} {sib : Byte} {rest : List Byte} {m : MemOperand}
    (h : decodeSib mod sib rest = some m) : m.length ≤ 1 + rest.length := by
  unfold decodeSib at h
  split_ifs at h
  · split at h <;> cases h
    simp [MemOperand.length]
    omega
  · obtain ⟨x, hx, rfl⟩ := Option.map_eq_some_iff.1 h
    exact Nat.add_le_add_left (decodeDisp32_length_le hx) 1

theorem decodeMem32_length_le {mod : BitVec 2} {rm : BitVec 3} {rest : List Byte} {m : MemOperand}
    (h : decodeMem32 mod rm rest = some m) : m.length ≤ rest.length := by
  unfold decodeMem32 at h
  split_ifs at h
  · split at h
    · exact (decodeSib_length_le h).trans (by simp; omega)
    · cases h
  · split at h <;> cases h
    simp [MemOperand.length]
  · obtain ⟨x, hx, rfl⟩ := Option.map_eq_some_iff.1 h
    exact decodeDisp32_length_le hx

theorem decodeRm16_length_le {a32 : Bool} {m : Byte} {rest : List Byte} {o : RM16} (p : Prefixes)
    (h : decodeRm16 a32 m rest = some o) : groupLength p o ≤ p.length + 3 + rest.length := by
  unfold decodeRm16 at h
  split_ifs at h
  · cases h
    exact Nat.le_add_right _ _
  · obtain ⟨x, hx, rfl⟩ := Option.map_eq_some_iff.1 h
    exact Nat.add_le_add_left (decodeMem32_length_le hx) _
  · obtain ⟨x, hx, rfl⟩ := Option.map_eq_some_iff.1 h
    exact Nat.add_le_add_left (decodeMem16_length_le hx) _

theorem decodeGroup7_length_le {d : Bool} {p : Prefixes} {m : Byte} {rest : List Byte} {i : Instr}
    (h : decodeGroup7 d p false m rest = .instr i) : i.length ≤ p.length + 3 + rest.length := by
  unfold decodeGroup7 at h
  split_ifs at h
  all_goals
    split at h
    · rename_i operand
      obtain rfl := finish_eq_instr h
      exact decodeRm16_length_le p operand
    · cases h

theorem decodeTwoByte_length_le {d : Bool} {p : Prefixes} {op2 : Byte} {rest : List Byte} {i : Instr}
    (h : decodeTwoByte d p false op2 rest = .instr i) : i.length ≤ p.length + 2 + rest.length := by
  unfold decodeTwoByte at h
  split at h
  · obtain rfl := finish_eq_instr h
    exact Nat.le_add_right _ _
  · split at h
    · cases h
    · rename_i move
      split_ifs at h
      obtain rfl := finish_eq_instr h
      rw [movSpecial_length move, List.length_cons]
      omega
    · split_ifs at h
      split at h
      · cases h
      · exact (decodeGroup7_length_le h).trans (by rw [List.length_cons]; omega)

theorem decodeOpcode_length_le {d : Bool} {p : Prefixes} {b : Byte} {rest : List Byte} {i : Instr}
    (h : decodeOpcode d p false b rest = .instr i) : i.length ≤ p.length + 1 + rest.length := by
  unfold decodeOpcode at h
  split_ifs at h
  · obtain rfl := finish_eq_instr h
    exact Nat.le_add_right _ _
  · split at h
    · cases h
    · exact (decodeTwoByte_length_le h).trans (by rw [List.length_cons]; omega)

/-- An instruction is decoded from no fewer bytes than its length says (R210, R218). -/
theorem decode_length_le {d : Bool} {l : List Byte} {i : Instr} (h : decode d l = .instr i) :
    i.length ≤ l.length := by
  obtain ⟨q, pre, b, rest, rfl, prefixes, opcode⟩ := decodeFrom_opcode h
  have := decodeOpcode_length_le opcode
  have none : Prefixes.length {} = 0 := rfl
  rw [List.length_append, List.length_cons]
  omega

/-- Settles O3: an answer on fewer bytes would be the instruction, by `decode_append`, and too short for
it, by `decode_length_le`. -/
theorem decodeAsksForEveryByteOfTheInstruction : Obligations.DecodeAsksForEveryByteOfTheInstruction := by
  intro d i k wf short
  by_contra settled
  have decoded := decode_append ((encode i).drop k) settled
  rw [List.take_append_drop, decode_encode wf] at decoded
  have enough := decode_length_le decoded.symm
  rw [List.length_take] at enough
  omega

end Sys2Proof
end

section
/-!
Twelve bytes settle the decoder: how many bytes each decoding function can have been given and still ask for
one.
-/

namespace Sys2Proof

theorem decodeDisp32_none {mod : BitVec 2} {rest : List Byte} (memory : mod ≠ 3)
    (h : decodeDisp32 mod rest = none) : rest.length ≤ 3 := by
  by_contra! enough
  match rest, enough with
  | _ :: _ :: _ :: _ :: _, _ =>
    fin_cases mod
    · cases h
    · cases h
    · cases h
    · exact memory rfl

theorem decodeMem16_none {mod : BitVec 2} {rm : BitVec 3} {rest : List Byte} (memory : mod ≠ 3)
    (h : decodeMem16 mod rm rest = none) : rest.length ≤ 1 := by
  by_contra! enough
  match rest, enough with
  | _ :: _ :: _, _ =>
    fin_cases mod
    · change (if rm = 6 then some _ else some _) = none at h
      split_ifs at h
    · cases h
    · cases h
    · exact memory rfl

/-- A `disp32` with no base asks for its four bytes (R205, R206). -/
theorem decodeSib_none {mod : BitVec 2} {sib : Byte} {rest : List Byte} (memory : mod ≠ 3)
    (h : decodeSib mod sib rest = none) : rest.length ≤ 3 := by
  unfold decodeSib at h
  split_ifs at h
  · by_contra! enough
    match rest, enough with
    | _ :: _ :: _ :: _ :: _, _ => cases h
  · exact decodeDisp32_none memory (Option.map_eq_none_iff.1 h)

theorem decodeMem32_none {mod : BitVec 2} {rm : BitVec 3} {rest : List Byte} (memory : mod ≠ 3)
    (h : decodeMem32 mod rm rest = none) : rest.length ≤ 4 := by
  unfold decodeMem32 at h
  split_ifs at h
  · split at h
    · exact Nat.succ_le_succ (decodeSib_none memory h)
    · exact Nat.zero_le _
  · by_contra! enough
    match rest, enough with
    | _ :: _ :: _ :: _ :: _ :: _, _ => cases h
  · exact (decodeDisp32_none memory (Option.map_eq_none_iff.1 h)).trans (by decide)

theorem decodeRm16_none {a32 : Bool} {m : Byte} {rest : List Byte} (h : decodeRm16 a32 m rest = none) :
    rest.length ≤ 4 := by
  unfold decodeRm16 at h
  split_ifs at h with register
  · exact decodeMem32_none register (Option.map_eq_none_iff.1 h)
  · exact (decodeMem16_none register (Option.map_eq_none_iff.1 h)).trans (by decide)

/-- LOCK or not, a complete instruction asks for no byte. -/
theorem finish_ne_more (lock : Bool) (i : Instr) : finish lock i ≠ .more := by
  cases lock <;> nofun

theorem decodeGroup7_more {d lock : Bool} {p : Prefixes} {m : Byte} {rest : List Byte}
    (h : decodeGroup7 d p lock m rest = .more) : rest.length ≤ 4 := by
  unfold decodeGroup7 at h
  split_ifs at h
  all_goals
    split at h
    · exact absurd h (finish_ne_more _ _)
    · rename_i operand
      exact decodeRm16_none operand

theorem decodeTwoByte_more {d lock : Bool} {p : Prefixes} {op2 : Byte} {rest : List Byte}
    (h : decodeTwoByte d p lock op2 rest = .more) : rest.length ≤ 5 := by
  unfold decodeTwoByte at h
  split at h
  · exact absurd h (finish_ne_more _ _)
  · split at h
    · exact Nat.zero_le _
    · split_ifs at h
      exact absurd h (finish_ne_more _ _)
    · split_ifs at h
      split at h
      · exact Nat.zero_le _
      · exact Nat.succ_le_succ (decodeGroup7_more h)

theorem decodeOpcode_more {d lock : Bool} {p : Prefixes} {b : Byte} {rest : List Byte}
    (h : decodeOpcode d p lock b rest = .more) : rest.length ≤ 6 := by
  unfold decodeOpcode at h
  split_ifs at h
  · exact absurd h (finish_ne_more _ _)
  · split at h
    · exact Nat.zero_le _
    · exact Nat.succ_le_succ (decodeTwoByte_more h)

/-- The prefixes read so far, LOCK among them, and the bytes still to read are eleven at most where the
decoder asks for one more: no kind is read twice (R208). -/
theorem decodeFrom_more {d lock : Bool} {p : Prefixes} {l : List Byte} (h : decodeFrom d p lock l = .more) :
    p.length + lock.toNat + l.length ≤ 11 := by
  have prefixes := prefixes_length_le p
  have locked := Bool.toNat_le lock
  induction l generalizing p lock with
  | nil => rw [List.length_nil]; omega
  | cons b l ih =>
    have read : ∀ (q : Prefixes) (lock' : Bool), q.length + lock'.toNat = p.length + lock.toNat + 1 →
        decodeFrom d q lock' l = .more → p.length + lock.toNat + (b :: l).length ≤ 11 := by
      intro q lock' longer more
      have := ih more (prefixes_length_le q) (Bool.toNat_le lock')
      rw [List.length_cons]
      omega
    unfold decodeFrom at h
    split at h
    · have := decodeOpcode_more h
      rw [List.length_cons]
      omega
    · cases h
    · split_ifs at h with present
      exact read _ _ (by simp [Prefixes.length, present]; omega) h
    · split_ifs at h with present
      exact read _ _ (by simp [Prefixes.length, present]; omega) h
    · split_ifs at h with present
      exact read _ _ (by simp [Prefixes.length, present]; omega) h
    · split_ifs at h with present
      exact read _ _ (by simp [present]) h

/-- Settles O4: the answer is final by `decode_append`, and `decodeFrom_more` bounds the bytes without
one. -/
theorem decodeIsSettledByTwelveBytes : Obligations.DecodeIsSettledByTwelveBytes := by
  refine ⟨fun d a b settled => decode_append b settled, fun d bytes enough more => ?_⟩
  have := decodeFrom_more more
  omega

end Sys2Proof
end

section
/-!
The opcode table: no two rows match the same bytes, and the row of an instruction matches the bytes it is
decoded from.
-/

namespace Sys2Proof

/-- Two patterns, each with its mask, agree wherever both masks look: some bytes may match both (R214). -/
def patternsMeet : List Byte → List Byte → List Byte → List Byte → Bool
  | p :: ps, m :: ms, q :: qs, n :: ns => p &&& n == q &&& m && patternsMeet ps ms qs ns
  | _, _, _, _ => true

/-- Patterns that the same bytes match meet. -/
theorem patternsMeet_of_matchesMasked {ps ms qs ns bytes : List Byte}
    (left : matchesMasked ps ms bytes = true) (right : matchesMasked qs ns bytes = true) :
    patternsMeet ps ms qs ns = true := by
  induction ps generalizing ms qs ns bytes with
  | nil => rfl
  | cons p ps ih =>
    match ms, qs, ns, bytes with
    | [], _, _, _ | _ :: _, [], _, _ | _ :: _, _ :: _, [], _ => rfl
    | m :: ms, q :: qs, n :: ns, b :: bytes =>
      simp only [matchesMasked, Bool.and_eq_true, beq_iff_eq] at left right
      obtain ⟨rfl, left⟩ := left
      obtain ⟨rfl, right⟩ := right
      simp [patternsMeet, ih left right, BitVec.and_assoc, BitVec.and_comm n m]

/-- No two rows of the table meet (R214). -/
theorem opcodeTable_apart :
    opcodeTable.Pairwise fun r t => patternsMeet r.pattern r.mask t.pattern t.mask = false := by
  decide

/-- A list that a relation holds across and between whose elements it never holds has one element at most. -/
theorem length_le_one_of_pairwise {α : Type} {R : α → α → Prop} {l : List α} (across : l.Pairwise R)
    (never : ∀ a ∈ l, ∀ b ∈ l, ¬R a b) : l.length ≤ 1 := by
  match l with
  | [] => exact Nat.zero_le 1
  | [_] => exact le_refl 1
  | a :: b :: _ => exact absurd (List.rel_of_pairwise_cons across (by simp)) (never a (by simp) b (by simp))

/-- At most one row of the table matches (R214). -/
theorem matching_rows_length_le_one (bytes : List Byte) :
    (opcodeTable.filter fun r => r.matches bytes).length ≤ 1 := by
  refine length_le_one_of_pairwise (opcodeTable_apart.filter _) fun r hr t ht => ?_
  rw [Bool.not_eq_false]
  exact patternsMeet_of_matchesMasked (List.mem_filter.1 hr).2 (List.mem_filter.1 ht).2

/-- The place of an instruction's row in the table (R214). -/
def Instr.rowIndex : Instr → Fin 36
  | .clts _ => 0
  | .movR32Cr0 _ _ => 1
  | .movR32Cr2 _ _ => 2
  | .movR32Cr3 _ _ => 3
  | .movCr0R32 _ _ => 4
  | .movCr2R32 _ _ => 5
  | .movCr3R32 _ _ => 6
  | .movR32Cr1 _ _ => 7
  | .movR32Cr4to7 _ _ _ => 8
  | .movCr1R32 _ _ => 9
  | .movCr4to7R32 _ _ _ => 10
  | .movR32Dr0 _ _ => 11
  | .movR32Dr1 _ _ => 12
  | .movR32Dr2 _ _ => 13
  | .movR32Dr3 _ _ => 14
  | .movR32Dr6 _ _ => 15
  | .movR32Dr7 _ _ => 16
  | .movDr0R32 _ _ => 17
  | .movDr1R32 _ _ => 18
  | .movDr2R32 _ _ => 19
  | .movDr3R32 _ _ => 20
  | .movDr6R32 _ _ => 21
  | .movDr7R32 _ _ => 22
  | .movR32Dr4to5 _ _ _ => 23
  | .movDr4to5R32 _ _ _ => 24
  | .movR32Tr6 _ _ => 25
  | .movR32Tr7 _ _ => 26
  | .movTr6R32 _ _ => 27
  | .movTr7R32 _ _ => 28
  | .movR32Tr0to3 _ _ _ => 29
  | .movR32Tr4to5 _ _ _ => 30
  | .movTr0to3R32 _ _ _ => 31
  | .movTr4to5R32 _ _ _ => 32
  | .smsw _ _ => 33
  | .lmsw _ _ => 34
  | .esc _ _ => 35

/-- The row of the table an instruction belongs to (R214). -/
def Instr.row (i : Instr) : OpcodeRow := opcodeTable[i.rowIndex]

theorem row_mem (i : Instr) : i.row ∈ opcodeTable := List.getElem_mem _

theorem row_mnemonic (i : Instr) : i.row.mnemonic = i.mnemonic := by
  cases i <;> rfl

/-- A pattern looks at no byte past its last (R214). -/
theorem matchesMasked_append {ps ms bytes : List Byte} (ext : List Byte)
    (h : matchesMasked ps ms bytes = true) : matchesMasked ps ms (bytes ++ ext) = true := by
  induction bytes generalizing ps ms with
  | nil =>
    unfold matchesMasked at h
    split at h <;> simp_all [matchesMasked]
  | cons b bytes ih =>
    match ps, ms with
    | [], [] => rfl
    | p :: ps, m :: ms =>
      obtain ⟨first, others⟩ := Bool.and_eq_true_iff.1 h
      exact Bool.and_eq_true_iff.2 ⟨first, ih others⟩

/-- A byte is its three fields (R203, R206). -/
theorem fields233_of_fields : ∀ b : Byte, fields233 (field76 b) (field53 b) (field20 b) = b := by
  decide

/-- A register move carries the prefixes it is given, and its row is settled by its second opcode byte and its
reg field (R212, R214). -/
theorem movSpecial_prefixes_row {op2 : Byte} {f : Prefixes → BitVec 3 → Reg → Instr}
    (h : movSpecial op2 = some f) (p : Prefixes) (n : BitVec 3) (rm : Reg) :
    (f p n rm).prefixes = p ∧ (f p n rm).row = (f {} n .eax).row := by
  unfold movSpecial at h
  split at h <;> cases h
  · unfold movFromCr; split <;> exact ⟨rfl, rfl⟩
  · unfold movFromDr; split <;> exact ⟨rfl, rfl⟩
  · unfold movToCr; split <;> exact ⟨rfl, rfl⟩
  · unfold movToDr; split <;> exact ⟨rfl, rfl⟩
  · unfold movFromTr; split <;> exact ⟨rfl, rfl⟩
  · unfold movToTr; split <;> exact ⟨rfl, rfl⟩

/-- The row of each register move matches its three bytes, by its reg and rm fields (R212, R214). -/
theorem movSpecial_row_matches_fields {op2 : Byte} {f : Prefixes → BitVec 3 → Reg → Instr}
    (h : movSpecial op2 = some f) :
    ∀ n low : BitVec 3, (f {} n .eax).row.matches [0x0F, op2, fields233 3 n low] = true := by
  unfold movSpecial at h
  split at h <;> cases h
  all_goals
    rename_i byte
    rw [show op2 = BitVec.ofNat 8 op2.toNat by simp, byte]
    decide

/-- The row of a register move matches its bytes, whatever follows (R212, R214). -/
theorem movSpecial_row_matches {op2 m : Byte} {f : Prefixes → BitVec 3 → Reg → Instr}
    (h : movSpecial op2 = some f) (register : field76 m = 3) (p : Prefixes) (rm : Reg) (rest : List Byte) :
    (f p (field53 m) rm).row.matches (0x0F :: op2 :: m :: rest) = true := by
  have three := movSpecial_row_matches_fields h (field53 m) (field20 m)
  rw [← register, fields233_of_fields] at three
  obtain ⟨-, row⟩ := movSpecial_prefixes_row h p (field53 m) rm
  rw [row]
  exact matchesMasked_append rest three

/-- Settles O5: the rows are apart by `opcodeTable_patterns_apart`, and a MOVSPEC sequence is matched by the
row of the register move it decodes to. -/
theorem opcodeRowsAreDisjoint : Obligations.OpcodeRowsAreDisjoint := by
  refine ⟨matching_rows_length_le_one, fun op2 moves mm rest register => ?_⟩
  have move : ∃ f, movSpecial op2 = some f := by
    revert op2
    simp [movSpecial]
  obtain ⟨f, move⟩ := move
  have matching : (f {} (field53 mm) .eax).row ∈
      opcodeTable.filter fun r => r.matches (0x0F :: op2 :: mm :: rest) :=
    List.mem_filter.2 ⟨row_mem _, movSpecial_row_matches move register _ _ _⟩
  exact le_antisymm (matching_rows_length_le_one _) (List.length_pos_of_mem matching)

/-- SMSW and LMSW carry the prefixes, and match their rows by the digit (R213). -/
theorem decodeGroup7_row {d : Bool} {p : Prefixes} {m : Byte} {rest : List Byte} {i : Instr}
    (h : decodeGroup7 d p false m rest = .instr i) :
    i.prefixes = p ∧ i.row.matches (0x0F :: 0x01 :: m :: rest) = true := by
  have rows : ∀ hi low,
      matchesMasked [0x0F, 0x01, 0x20] [0xFF, 0xFF, 0x38] [0x0F, 0x01, fields233 hi 4 low] ∧
        matchesMasked [0x0F, 0x01, 0x30] [0xFF, 0xFF, 0x38] [0x0F, 0x01, fields233 hi 6 low] := by decide
  obtain ⟨smswRow, lmswRow⟩ := rows (field76 m) (field20 m)
  unfold decodeGroup7 at h
  split_ifs at h with four six
  · rw [← four, fields233_of_fields] at smswRow
    split at h
    · obtain rfl := finish_eq_instr h
      exact ⟨rfl, matchesMasked_append rest smswRow⟩
    · cases h
  · rw [← six, fields233_of_fields] at lmswRow
    split at h
    · obtain rfl := finish_eq_instr h
      exact ⟨rfl, matchesMasked_append rest lmswRow⟩
    · cases h

theorem decodeTwoByte_row {d : Bool} {p : Prefixes} {op2 : Byte} {rest : List Byte} {i : Instr}
    (h : decodeTwoByte d p false op2 rest = .instr i) :
    i.prefixes = p ∧ i.row.matches (0x0F :: op2 :: rest) = true := by
  unfold decodeTwoByte at h
  split at h
  · rename_i clts
    obtain rfl := finish_eq_instr h
    exact ⟨rfl, by rw [clts]; rfl⟩
  · split at h
    · cases h
    · rename_i move
      split_ifs at h with register
      obtain rfl := finish_eq_instr h
      obtain ⟨prefixes, -⟩ := movSpecial_prefixes_row move p (field53 _) (Reg.ofBits (field20 _))
      exact ⟨prefixes, movSpecial_row_matches move register _ _ _⟩
    · split_ifs at h with group
      split at h
      · cases h
      · rw [group]
        exact decodeGroup7_row h

/-- The row of an instruction matches the bytes from its opcode on (R210, R214). -/
theorem decodeOpcode_row {d : Bool} {p : Prefixes} {b : Byte} {rest : List Byte} {i : Instr}
    (h : decodeOpcode d p false b rest = .instr i) :
    i.prefixes = p ∧ i.row.matches (b :: rest) = true := by
  unfold decodeOpcode at h
  split_ifs at h with esc twoByte
  · obtain ⟨digit, top⟩ := esc
    have rows : ∀ low, matchesMasked [0xD8] [0xF8] [fields233 3 3 low] := by decide
    have row := rows (field20 b)
    rw [← digit, ← top, fields233_of_fields] at row
    obtain rfl := finish_eq_instr h
    exact ⟨rfl, matchesMasked_append rest row⟩
  · rw [twoByte]
    split at h
    · cases h
    · exact decodeTwoByte_row h

/-- Settles O6: past its prefixes the bytes match the instruction's row, by `decodeOpcode_row`, and no
other, by `matching_rows_length_le_one`. -/
theorem decodeAgreesWithOpcodeTable : Obligations.DecodeAgreesWithOpcodeTable := by
  intro d bytes i decoded
  obtain ⟨q, pre, b, rest, rfl, length, opcode⟩ := decodeFrom_opcode decoded
  obtain ⟨rfl, row⟩ := decodeOpcode_row opcode
  have past : i.prefixes.length = pre.length := length.trans (Nat.zero_add _)
  rw [past, List.drop_left]
  have matching : i.row ∈ opcodeTable.filter fun r => r.matches (b :: rest) :=
    List.mem_filter.2 ⟨row_mem i, row⟩
  have one := le_antisymm (matching_rows_length_le_one _) (List.length_pos_of_mem matching)
  obtain ⟨r, only⟩ := List.length_eq_one_iff.1 one
  rw [only, List.mem_singleton] at matching
  rw [only, ← matching, List.map_singleton, row_mnemonic]

end Sys2Proof
end

section
/-!
LOCK and the order of the prefixes: what the loop over the prefixes makes of each.
-/

namespace Sys2Proof

/-- An answer with LOCK before the bytes: an instruction is an invalid opcode, and what is no
instruction is so with LOCK too (R210). -/
def Decoded.locked : Decoded → Decoded
  | .more => .more
  | .instr _ => .lockInvalid
  | .lockInvalid => .lockInvalid
  | .refused why => .refused why

theorem decodeGroup7_locked (d : Bool) (p : Prefixes) (m : Byte) (rest : List Byte) :
    decodeGroup7 d p true m rest = (decodeGroup7 d p false m rest).locked := by
  unfold decodeGroup7
  cases decodeRm16 (d ^^ p.addrsize) m rest <;> split_ifs <;> rfl

theorem decodeTwoByte_locked (d : Bool) (p : Prefixes) (op2 : Byte) (rest : List Byte) :
    decodeTwoByte d p true op2 rest = (decodeTwoByte d p false op2 rest).locked := by
  unfold decodeTwoByte
  by_cases clts : op2 = 0x06
  · rw [if_pos clts, if_pos clts]
    rfl
  · rw [if_neg clts, if_neg clts]
    cases movSpecial op2 with
    | some f =>
      cases rest with
      | nil => rfl
      | cons m rest =>
        dsimp only
        split_ifs <;> rfl
    | none =>
      dsimp only
      split_ifs
      · cases rest with
        | nil => rfl
        | cons m rest => exact decodeGroup7_locked d p m rest
      · rfl

theorem decodeOpcode_locked (d : Bool) (p : Prefixes) (b : Byte) (rest : List Byte) :
    decodeOpcode d p true b rest = (decodeOpcode d p false b rest).locked := by
  unfold decodeOpcode
  split_ifs
  · rfl
  · cases rest with
    | nil => rfl
    | cons op2 rest => exact decodeTwoByte_locked d p op2 rest
  · rfl

/-- With LOCK before them, the bytes of an instruction are an invalid opcode (R208, R210). -/
theorem decodeFrom_locked {d : Bool} {p : Prefixes} {l : List Byte} {i : Instr}
    (h : decodeFrom d p false l = .instr i) : decodeFrom d p true l = .lockInvalid := by
  induction l generalizing p with
  | nil => cases h
  | cons b l ih =>
    unfold decodeFrom at h ⊢
    split
    · rename_i opcode
      simp only [opcode] at h
      rw [decodeOpcode_locked, h]
      rfl
    all_goals
      rename_i isPrefix
      simp only [isPrefix] at h
    · cases h
    · split_ifs at h with present
      rw [if_neg present, ih h]
    · split_ifs at h with present
      rw [if_neg present, ih h]
    · split_ifs at h with present
      rw [if_neg present, ih h]
    · exact absurd h decodeFrom_lock

/-- LOCK before the bytes of a well-formed instruction, whatever follows them, is an invalid opcode (R208,
R210). -/
theorem decode_locked_encode {d : Bool} {i : Instr} (wf : i.wf d = true) (rest : List Byte) :
    decode d (0xF0 :: (encode i ++ rest)) = .lockInvalid :=
  decodeFrom_locked (decodeInvertsEncode d i rest wf)

/-- Settles O7. -/
theorem lockPrefixIsInvalidOpcode : Obligations.LockPrefixIsInvalidOpcode :=
  fun _ _ rest wf => decode_locked_encode wf rest

/-- What has been read, LOCK or not, with one more of the prefixes noted; `none` where its kind has been read
(R208). -/
def PrefixByte.note : PrefixByte → Prefixes × Bool → Option (Prefixes × Bool)
  | .opsize, (p, locked) => if p.opsize then none else some ({ p with opsize := true }, locked)
  | .addrsize, (p, locked) => if p.addrsize then none else some ({ p with addrsize := true }, locked)
  | .seg r, (p, locked) => if p.seg.isSome then none else some ({ p with seg := some r }, locked)
  | .lock, (p, locked) => if locked then none else some (p, true)
  | .rep, _ => none

/-- What the decoder does at one of the prefixes other than F2H and F3H is to note it (R208). -/
theorem decodeFrom_note {d lock : Bool} {p : Prefixes} {b : Byte} {x : PrefixByte} {l : List Byte}
    (isPrefix : prefixOf b = some x) (notRep : x ≠ .rep) :
    decodeFrom d p lock (b :: l) =
      (x.note (p, lock)).elim (.refused .repeatedPrefix) fun s => decodeFrom d s.1 s.2 l := by
  rw [decodeFrom, isPrefix]
  cases x with
  | rep => exact absurd rfl notRep
  | opsize | addrsize | seg r | lock =>
    dsimp only [PrefixByte.note]
    split_ifs
    · rfl
    · rfl

/-- Two prefixes are noted in either order alike (R208), whichever of the four kinds have been read. -/
theorem note_comm (x y : PrefixByte) (s : Prefixes × Bool) :
    (x.note s).bind y.note = (y.note s).bind x.note := by
  obtain ⟨⟨o, a, seg⟩, lock⟩ := s
  cases o <;> cases a <;> cases seg <;> cases lock
  all_goals cases x <;> cases y <;> rfl

/-- What the decoder does at two such prefixes is to note the one, then the other (R208). -/
theorem decodeFrom_two_notes {d lock : Bool} {p : Prefixes} {b c : Byte} {x y : PrefixByte} {l : List Byte}
    (isX : prefixOf b = some x) (notRepX : x ≠ .rep) (isY : prefixOf c = some y) (notRepY : y ≠ .rep) :
    decodeFrom d p lock (b :: c :: l) =
      ((x.note (p, lock)).bind y.note).elim (.refused .repeatedPrefix) fun s => decodeFrom d s.1 s.2 l := by
  rw [decodeFrom_note isX notRepX]
  cases x.note (p, lock) with
  | none => rfl
  | some s => exact decodeFrom_note isY notRepY

/-- The bytes are prefixes, and none is F2H or F3H (R208). -/
def AllPrefixes (l : List Byte) : Prop := ∀ b ∈ l, ∃ x, prefixOf b = some x ∧ x ≠ .rep

/-- The decoder reads prefixes in any order alike (R208). -/
theorem decodeFrom_perm {d lock : Bool} {p : Prefixes} {l k : List Byte} (perm : l.Perm k)
    (prefixes : AllPrefixes l) (rest : List Byte) :
    decodeFrom d p lock (l ++ rest) = decodeFrom d p lock (k ++ rest) := by
  induction perm generalizing p lock with
  | nil => rfl
  | cons b _ ih =>
    obtain ⟨x, isPrefix, notRep⟩ := prefixes b List.mem_cons_self
    have tail := fun p lock => ih (p := p) (lock := lock) fun c hc => prefixes c (List.mem_cons_of_mem _ hc)
    simp only [List.cons_append, decodeFrom_note isPrefix notRep, tail]
  | swap b c l =>
    obtain ⟨x, isX, notRepX⟩ := prefixes b (by simp)
    obtain ⟨y, isY, notRepY⟩ := prefixes c (by simp)
    rw [List.cons_append, List.cons_append, decodeFrom_two_notes isY notRepY isX notRepX, note_comm,
      ← decodeFrom_two_notes isX notRepX isY notRepY]
    rfl
  | trans first _ ih ih' =>
    rw [ih prefixes, ih' fun b hb => prefixes b (first.mem_iff.2 hb)]

/-- The bytes of an instruction's prefixes are such prefixes (R208). -/
theorem allPrefixes_bytes (p : Prefixes) : AllPrefixes p.bytes := by
  intro b hb
  obtain ⟨o, a, seg⟩ := p
  rcases List.mem_append.1 hb with sizes | override
  · rcases List.mem_append.1 sizes with opsize | addrsize
    · obtain ⟨-, rfl⟩ : o = true ∧ b = 0x66 := by simpa using opsize
      exact ⟨.opsize, rfl, nofun⟩
    · obtain ⟨-, rfl⟩ : a = true ∧ b = 0x67 := by simpa using addrsize
      exact ⟨.addrsize, rfl, nofun⟩
  · cases seg with
    | none => cases override
    | some r =>
      obtain rfl := List.mem_singleton.1 override
      exact ⟨.seg r, prefixOf_override r, nofun⟩

/-- Settles O8, by `decodeFrom_perm`. -/
theorem prefixOrderDoesNotMatter : Obligations.PrefixOrderDoesNotMatter :=
  fun _ p _ rest perm =>
    decodeFrom_perm perm (fun b hb => allPrefixes_bytes p b (perm.mem_iff.1 hb)) rest

/-- Settles O9: each word evaluates. -/
theorem specWordsDecode : Obligations.SpecWordsDecode := by
  unfold Obligations.SpecWordsDecode
  decide

end Sys2Proof
end

section
/-!
The first byte of an instruction, and LOCK, in a step: the order of the checks of a fetch.
-/

namespace Sys2Proof.Machine

/-- Where the fetch ends the instruction, so does the step (R16). -/
theorem step_of_fetch_stop {s t : State} (running : Running s)
    (stopped : fetchInstr maxInstrBytes [] s = .stop (.next t)) : step s = .next t := by
  obtain ⟨untrapped, notVirtual⟩ := running
  rw [step, untrapped, notVirtual, stopped]
  rfl

/-- Where the first byte is not fetched, no instruction is (R201). -/
theorem fetchInstr_first_stop {s t : State} (fuel : Nat) (stopped : fetchByte 0 s = .stop (.next t)) :
    fetchInstr (fuel + 1) [] s = .stop (.next t) := by
  rw [fetchInstr, List.length_nil, stopped, bind_stop]

/-- A first byte outside the code segment raises GP(0) (R128, R345). -/
theorem fetchByte_outside {s : State} (valid : s.pe = true → s.seg.cs.attr.valid = true)
    (outside : inLimit s.seg.cs s.eip 1 = false) :
    fetchByte 0 s = .stop (.next (takeException .gp .fault (.code 0) s)) := by
  have valid : ¬(s.pe = true ∧ s.seg.cs.attr.valid = false) := fun ⟨pe, invalid⟩ => by
    simp [valid pe] at invalid
  simp [fetchByte, segTranslate, Segments.get, kindAllowed, segViolation, outside, valid, raiseFault]

/-- An execution breakpoint on a first byte inside the code segment is the debug fault (R322, R345). -/
theorem fetchByte_breakpoint {s : State} (valid : s.pe = true → s.seg.cs.attr.valid = true)
    (inside : inLimit s.seg.cs s.eip 1 = true) (hits : executionHits s (s.seg.cs.base + s.eip) ≠ 0)
    (rf : s.rf = false) :
    fetchByte 0 s =
      .stop (.next (debugException .fault (executionHits s (s.seg.cs.base + s.eip)) s)) := by
  have first : s.eip + BitVec.ofNat 32 0 = s.eip := BitVec.add_zero _
  rw [fetchByte, first, segTranslate_fetch valid inside, bind_ok, if_pos rfl, instrBreakpoint,
    if_pos ⟨hits, rf⟩, bind_stop]

/-- Breakpoint `i` is enabled, watches execution, and holds the linear address `la` (R322). -/
def executionHit (s : State) (la : Word) (i : Fin 4) : Bool :=
  enabledIn s.dr7 i && rwIn s.dr7 i == 0 && s.breakpoint i == la

/-- Bit `i` of the hits is that of breakpoint `i` (R322). -/
theorem getLsbD_executionHits (s : State) (la : Word) (i : Fin 4) :
    (executionHits s la).getLsbD i.val = executionHit s la i := by
  have bits : ∀ a b c d : Bool,
      ((if a then bitMask 0 else 0) ||| (if b then bitMask 1 else 0) |||
        (if c then bitMask 2 else 0) ||| (if d then bitMask 3 else 0)).getLsbD i.val =
          match i with
          | 0 => a
          | 1 => b
          | 2 => c
          | 3 => d := by
    revert i
    decide
  refine (bits _ _ _ _).trans ?_
  fin_cases i <;> rfl

/-- Settles O17: the limit is tested first (`fetchByte_outside`), then the breakpoints
(`fetchByte_breakpoint`); either ends the step. -/
theorem firstByteChecksComeInOrder : Obligations.FirstByteChecksComeInOrder := by
  intro s
  refine ⟨fun running valid => ⟨fun outside => ?_, fun inside hits rf => ?_⟩, getLsbD_executionHits s⟩
  · exact step_of_fetch_stop running (fetchInstr_first_stop _ (fetchByte_outside valid outside))
  · exact step_of_fetch_stop running (fetchInstr_first_stop _ (fetchByte_breakpoint valid inside hits rf))

/-- What a fetch answers in state `s`, where the decoder's answer is `x` (R208, R210, R316). -/
def fetchAnswer (x : Decoded) (s : State) : Res Instr :=
  match x with
  | .more => raiseFault .gp (.code 0) s
  | .instr i => .ok i s
  | .lockInvalid => raiseFault .ud .none s
  | .refused why => .stop (.refused (.decode why))

/-- Where the bytes at CS:EIP settle the decoder, a fetch that has read the first `k` of them and needs more
goes on to answer as they do: by `decode_append` no shorter beginning means anything else. -/
theorem fetchInstr_settled {l : List Byte} {s : State} (placed : BytesAtEip l s)
    (unbroken : NoExecutionBreakpoint s) (settled : decode s.seg.cs.attr.d l ≠ .more) {fuel k : Nat}
    (enough : l.length ≤ k + fuel) (more : decode s.seg.cs.attr.d (l.take k) = .more) :
    fetchInstr fuel (l.take k) s = fetchAnswer (decode s.seg.cs.attr.d l) s := by
  have short : ∀ {j}, decode s.seg.cs.attr.d (l.take j) = .more → j < l.length := fun {j} more => by
    by_contra all
    rw [List.take_of_length_le (by omega)] at more
    exact settled more
  induction fuel generalizing k with
  | zero => exact absurd enough (Nat.not_le.2 (short more))
  | succ fuel ih =>
    have next : l.take k ++ [l[k]'(short more)] = l.take (k + 1) := List.take_append_getElem (short more)
    rw [fetchInstr, List.length_take, Nat.min_eq_left (short more).le,
      fetchByte_placed placed unbroken (short more), bind_ok, next]
    by_cases more' : decode s.seg.cs.attr.d (l.take (k + 1)) = .more
    · rw [more']
      exact ih (by omega) more'
    · have final := decode_append (l.drop (k + 1)) more'
      rw [List.take_append_drop] at final
      rw [final]
      cases answer : decode s.seg.cs.attr.d (l.take (k + 1)) with
      | more => exact absurd answer more'
      | instr i => rfl
      | lockInvalid => rfl
      | refused why => rfl

/-- Settles O18: the bytes are fetched by `fetchInstr_settled`, and are an invalid opcode by
`decode_locked_encode`. -/
theorem lockedInstructionRaisesInvalidOpcode : Obligations.LockedInstructionRaisesInvalidOpcode := by
  intro s i running wf placed unbroken
  have invalid : decode s.seg.cs.attr.d (0xF0 :: encode i) = .lockInvalid := by
    simpa using decode_locked_encode wf []
  have enough : (0xF0 :: encode i).length ≤ 0 + maxInstrBytes := by
    rw [List.length_cons, encode_length, Nat.zero_add]
    exact (Nat.succ_le_succ (length_le i)).trans (by decide)
  have fetched := fetchInstr_settled (k := 0) placed unbroken (by rw [invalid]; nofun) enough rfl
  rw [invalid] at fetched
  exact step_of_fetch_stop running fetched

end Sys2Proof.Machine
end

section
/-!
What an unprivileged program cannot do: how a step that an exception ends, or that SMSW completes, leaves the
registers behind the privilege check.
-/

namespace Sys2Proof.Machine

/-- `s` with all that the end of a step may change whatever the end is, taken from `t`. -/
def State.endedAs (s t : State) : State :=
  { s with
    eip := t.eip, eflags := t.eflags, mem := t.mem, tlb := t.tlb, draws := t.draws,
    pendingDb := t.pendingDb, trapped := t.trapped }

/-- What an exception or the end of a completed step leaves of the whole state: a page fault writes CR2
besides, a debug exception adds to DR6 and clears GD (R305, R330, R331). -/
inductive EndsFrom (s t : State) : Prop where
  | plain (eq : t = s.endedAs t)
  | page (e : ErrorCode) (trapped : t.trapped = some { exc := .pf, cls := .fault, err := e })
      (eq : t = { s with cr2 := t.cr2 }.endedAs t)
  | debug (c : ExcClass) (b : Word) (trapped : t.trapped = some { exc := .db, cls := c, err := .none })
      (eq : t = { s with dr6 := s.dr6 ||| b, dr7 := s.dr7 &&& ~~~gdMask }.endedAs t)

theorem Touched.endedAs {s t : State} (h : Touched s t) : t = s.endedAs t := by
  rw [h.eq]
  rfl

theorem Walked.endedAs {s t : State} (h : Walked s t) : t = s.endedAs t := h.touched.endedAs

/-- What every end of a step may change may as well have changed before it. -/
theorem EndsFrom.before {s u t : State} (h : EndsFrom u t) (same : u = s.endedAs u) : EndsFrom s t := by
  cases h with
  | plain eq => exact .plain (eq.trans (by rw [same]; rfl))
  | page e trapped eq => exact .page e trapped (eq.trans (by rw [same]; rfl))
  | debug c b trapped eq => exact .debug c b trapped (eq.trans (by rw [same]; rfl))

theorem debugException_endsFrom (c : ExcClass) (b : Word) (s : State) :
    EndsFrom s (debugException c b s) := by
  refine .debug c (b ||| (s.drawn &&& disabledMask s.dr7)) rfl ?_
  rw [← BitVec.or_assoc]
  rfl

theorem MemoryTrap.endsFrom {s t : State} (h : MemoryTrap s t) : EndsFrom s t := by
  obtain ⟨x, e, u, touched, ⟨rfl, la, rfl⟩ | ⟨-, rfl⟩⟩ := h.ex
  · exact (EndsFrom.page (s := u) e rfl rfl).before touched.endedAs
  · exact (EndsFrom.plain (s := u) rfl).before touched.endedAs

theorem FetchTrap.endsFrom {s t : State} (h : FetchTrap s t) : EndsFrom s t := by
  cases h with
  | memory trap => exact trap.endsFrom
  | lock u walked eq =>
    rw [eq]
    exact (EndsFrom.plain (s := u) rfl).before walked.endedAs
  | breakpoint b u _ walked eq =>
    rw [eq]
    exact (debugException_endsFrom .fault b u).before walked.endedAs

theorem ExecTrap.endsFrom {s t : State} (h : ExecTrap s t) : EndsFrom s t := by
  cases h with
  | gp _ eq | nm _ eq =>
    rw [eq]
    exact .plain rfl
  | gd _ _ eq =>
    rw [eq]
    exact debugException_endsFrom .fault bdMask s
  | memory trap => exact trap.endsFrom

theorem reportTraps_endsFrom (tf : Bool) (s : State) : EndsFrom s (reportTraps tf s) := by
  rcases reportTraps_cases tf s with ⟨-, eq⟩ | eq
  · rw [eq]
    exact .plain rfl
  · rw [eq]
    exact (debugException_endsFrom .trap _ { s.clearRf with pendingDb := trapConditions tf s }).before rfl

/-- SMSW changes a general register, or does what an operand access does (R239). -/
theorem Done.smsw_endedAs {p : Prefixes} {o : RM16} {s t : State} (h : Done (.smsw p o) s t) :
    t = { s with regs := t.regs }.endedAs t := by
  cases o with
  | reg r =>
    obtain rfl := h
    rw [storeMswReg_frame]
    rfl
  | mem m =>
    have touched : Touched s t := h
    rw [touched.eq]
    rfl

/-- Where a privileged instruction may not run a step ends by an exception before its instruction completes,
or the instruction is SMSW (R230, R367). -/
theorem step_unprivileged {s t : State} (unprivileged : s.unprivileged = true) (h : step s = .next t) :
    ∃ g, (g = s.regs ∨ StepRan (fun i => ∃ p o, i = .smsw p o) s) ∧ EndsFrom { s with regs := g } t := by
  rcases step_phases h with trap | ⟨i, u, fetched, walked, trap | ⟨v, ran, untrapped, -, rfl⟩⟩
  · exact ⟨s.regs, .inl rfl, trap.endsFrom⟩
  · exact ⟨s.regs, .inl rfl, trap.endsFrom.before walked.endedAs⟩
  · have same : u.unprivileged = s.unprivileged := by rw [walked.eq]; rfl
    rcases exec_cases ran with trap | ⟨⟨p, o, rfl⟩ | may, done⟩
    · have := trap.trapped
      simp [untrapped] at this
    · have frame : v = { s with regs := v.regs }.endedAs v :=
        done.smsw_endedAs.trans (by rw [walked.eq]; rfl)
      have ends := reportTraps_endsFrom s.tf { v with eip := v.eip + BitVec.ofNat 32 (Instr.smsw p o).length }
      exact ⟨v.regs, .inr ⟨_, u, fetched, p, o, rfl⟩, (ends.before rfl).before frame⟩
    · rw [same, unprivileged] at may
      cases may

/-- Settles O55: `step_unprivileged`, and each way a step can end read off for the registers named. -/
theorem unprivilegedStepsAreConfined : Obligations.UnprivilegedStepsAreConfined := by
  intro s t unprivileged h
  obtain ⟨g, written, ends⟩ := step_unprivileged unprivileged h
  have regs : ∀ {u : State}, u.regs = g → u.regs = s.regs ∨ StepRan (fun i => ∃ p o, i = .smsw p o) s :=
    fun same => written.imp same.trans id
  cases ends with
  | plain eq =>
    rw [eq]
    exact ⟨rfl, rfl, rfl, rfl, rfl, rfl, rfl, rfl, .inl rfl, .inl ⟨rfl, rfl⟩, regs rfl⟩
  | page e trapped eq =>
    rw [eq]
    exact ⟨rfl, rfl, rfl, rfl, rfl, rfl, rfl, rfl, .inr ⟨e, trapped⟩, .inl ⟨rfl, rfl⟩, regs rfl⟩
  | debug c b trapped eq =>
    have gains : ∀ j, s.dr6.getLsbD j = true → (s.dr6 ||| b).getLsbD j = true := fun j set => by
      rw [BitVec.getLsbD_or, set, Bool.true_or]
    rw [eq]
    exact ⟨rfl, rfl, rfl, rfl, rfl, rfl, rfl, rfl, .inl rfl, .inr ⟨⟨c, trapped⟩, gains, rfl⟩, regs rfl⟩

end Sys2Proof.Machine
end

section
/-!
CLTS and the moves to and from the control registers: what each reads or writes behind the privilege check, and
where a move is refused.
-/

namespace Sys2Proof.Machine

/-- Settles O19: the bits of the new CR0 are `getLsbD_clearTs` and, for TS, `getLsbD_bitMask`. -/
theorem clearTaskSwitchedFlag : Obligations.ClearTaskSwitchedFlag := by
  intro p s
  refine ⟨guarded_of_privileged rfl, fun may => ?_⟩
  have cleared : (s.cr0 &&& ~~~bitMask 3).getLsbD 3 = false := by
    rw [getLsbD_and_not, getLsbD_bitMask (by decide), decide_eq_true rfl, Bool.not_true, Bool.and_false]
  exact ⟨{ s with cr0 := s.cr0 &&& ~~~bitMask 3 }, privileged_of_may may _, cleared,
    fun _ other => getLsbD_clearTs s.cr0 other, byteAt_congr rfl rfl, rfl⟩

/-- The end of a move to a general register of a value whose bits in `known` are those of `w`, with or without
a free value drawn for the others (R230(b)). -/
theorem movedToReg_undefineStatus {rm : Reg} {v w known : Word} {s u : State}
    (drawn : u = s ∨ u = s.afterDraw) (bits : v &&& known = w &&& known) :
    MovedToReg rm known w s (u.setReg rm v).undefineStatus := by
  have stored : (u.setReg rm v).undefineStatus.reg rm = v := reg_setReg_same u rm v
  have others : ∀ r, r ≠ rm → (u.setReg rm v).undefineStatus.reg r = u.reg r := fun _ other =>
    reg_setReg_other u v other
  rcases drawn with rfl | rfl
  · exact ⟨by rw [stored, bits], others, statusFlagsOnly_undefineStatus rfl, byteAt_congr rfl rfl, rfl⟩
  · exact ⟨by rw [stored, bits], others, statusFlagsOnly_undefineStatus rfl, byteAt_congr rfl rfl, rfl⟩

/-- Settles O20: `readCr0` takes the defined bits from CR0. -/
theorem moveFromCr0ReadsTheDefinedBits : Obligations.MoveFromCr0ReadsTheDefinedBits := by
  intro p rm s
  refine ⟨guarded_of_privileged rfl, fun may => ?_⟩
  have bits : readCr0 s &&& cr0Defined = s.cr0 &&& cr0Defined := insertBits_and_mask _ _ _
  exact ⟨_, privileged_of_may may _, movedToReg_undefineStatus (.inr rfl) bits⟩

/-- Bits 31:12 of CR3 are read as they are, whatever was written below them (R233). -/
theorem readCr3_base (s : State) : readCr3 s &&& 0xFFFFF000 = s.cr3 &&& 0xFFFFF000 := by
  unfold readCr3
  split
  · exact (BitVec.and_assoc _ _ _).trans (congrArg (s.cr3 &&& ·) (by decide))
  · exact insertBits_and_not_mask 0xFFF s.cr3 s.drawn

/-- Zeros last written below them are read as zeros (R39, R233). -/
theorem readCr3_low {s : State} (zero : s.cr3LowZero = true) : readCr3 s &&& 0xFFF = 0 := by
  rw [readCr3, if_pos zero]
  exact (BitVec.and_assoc _ _ _).trans BitVec.and_zero

/-- Settles O21: the bits of CR3 are `readCr3_base` and `readCr3_low`. -/
theorem movesFromCr2AndCr3ReadThem : Obligations.MovesFromCr2AndCr3ReadThem := by
  intro p rm s
  refine ⟨⟨guarded_of_privileged rfl, fun may => ?_⟩, guarded_of_privileged rfl, fun may => ?_⟩
  · exact ⟨_, privileged_of_may may _, movedToReg_undefineStatus (.inl rfl) rfl⟩
  · refine ⟨(s.afterDraw.setReg rm (readCr3 s)).undefineStatus, privileged_of_may may _,
      movedToReg_undefineStatus (.inr rfl) (readCr3_base s), fun zero => ?_⟩
    have stored : (s.afterDraw.setReg rm (readCr3 s)).undefineStatus.reg rm = readCr3 s :=
      reg_setReg_same s.afterDraw rm (readCr3 s)
    rw [stored, readCr3_low zero]

/-- Settles O24, from the check and the end that the moves share. -/
theorem moveToCr2StoresTheValue : Obligations.MoveToCr2StoresTheValue := by
  intro p rm s
  refine ⟨guarded_of_privileged rfl, fun may => ?_⟩
  exact ⟨_, privileged_of_may may _, movedToSpecial_undefineStatus rfl rfl rfl⟩

/-- PG asks for PE (R234). -/
theorem loadCr0_pagingWithoutProtection {len : Nat} {v : Word} {s : State} (pg : v.getLsbD 31 = true)
    (pe : v.getLsbD 0 = false) : loadCr0 len v s = .refused .pagingWithoutProtection :=
  if_pos ⟨pg, pe⟩

/-- Past that test MOV CR0 goes by whether PG changes (R234, R242). -/
theorem loadCr0_of_protected {len : Nat} {v : Word} {s : State}
    (guarded : v.getLsbD 31 = true → v.getLsbD 0 = true) :
    loadCr0 len v s =
      if v.getLsbD 31 = s.pg then finishCr0 v s
      else if s.pgChanges ≥ 1 then .refused .pgChangedTwice
      else
        (fetchWindowStable len s.pg s.cr3 (v.getLsbD 31) s.cr3 s).thenOut fun stable s =>
          if stable then finishCr0 v s else .refused .codeMappingChanges :=
  if_neg fun ⟨pg, pe⟩ => Bool.eq_false_iff.1 pe (guarded pg)

/-- PE is not set under a CS selector whose low bits are not 0 (R241). -/
theorem finishCr0_refused {v : Word} {s : State} (real : s.pe = false) (sets : v.getLsbD 0 = true)
    (level : s.seg.cs.sel.extractLsb' 0 2 ≠ 0) : finishCr0 v s = .refused .cplAfterPeSet := by
  have change : peChangeRefused s (v.getLsbD 0) = true := by
    simpa [peChangeRefused, real, sets] using level
  exact if_pos change

/-- Settles O23: the tests of `loadCr0`, in their order. -/
theorem moveToCr0Refusals : Obligations.MoveToCr0Refusals := by
  intro p rm s may
  have run : exec (.movCr0R32 p rm) s = loadCr0 (movLength p) (s.reg rm) s := privileged_of_may may _
  rw [run]
  refine ⟨loadCr0_pagingWithoutProtection, fun guarded => ?_⟩
  rw [loadCr0_of_protected guarded]
  refine ⟨fun changes again => ?_, fun changes first unstable => ?_, fun keeps real sets level => ?_⟩
  · rw [if_neg changes, if_pos again]
  · rw [if_neg changes, if_neg (by omega), unstable, thenOut_ok]
    rfl
  · rw [if_pos keeps, finishCr0_refused real sets level]

/-- Settles O37: each of the rows is its check, `privileged` or `debugAccess`, before its refusal. -/
theorem reservedRegisterMovesAreRefused : Obligations.ReservedRegisterMovesAreRefused := by
  intro p rm s
  refine ⟨⟨?_, fun n => ?_, fun n => ?_⟩, fun may => ?_, fun may n => ?_⟩
  · simp only [List.forall_mem_cons]
    exact ⟨guarded_of_privileged rfl, guarded_of_privileged rfl, guarded_of_privileged rfl,
      guarded_of_privileged rfl, guarded_of_privileged rfl, guarded_of_privileged rfl, List.forall_mem_nil _⟩
  · simp only [List.forall_mem_cons]
    exact ⟨guarded_of_privileged rfl, guarded_of_privileged rfl, guarded_of_privileged rfl,
      guarded_of_privileged rfl, List.forall_mem_nil _⟩
  · exact ⟨guarded_of_privileged rfl, guarded_of_privileged rfl, debugGuarded_of_debugAccess rfl,
      debugGuarded_of_debugAccess rfl⟩
  · have refused : ∀ r, privileged s (.refused r) = .refused r := fun _ => privileged_of_may may _
    exact ⟨⟨refused _, refused _, fun _ => ⟨refused _, refused _⟩⟩,
      ⟨refused _, refused _, refused _, refused _⟩, fun _ => ⟨refused _, refused _⟩,
      fun _ => ⟨refused _, refused _⟩⟩
  · exact ⟨debugAccess_of_may may _, debugAccess_of_may may _⟩

end Sys2Proof.Machine
end

section
/-!
The moves to and from the debug registers that no value can stop: past the checks of R260 each completes.
-/

namespace Sys2Proof.Machine

/-- A move from a debug register to a general register completes past the checks (R260 to R263). -/
theorem moveFromDebug_completes {i : Instr} {rm : Reg} {v w known : Word} {s u : State} (may : MayAccessDebug s)
    (run : exec i s = debugAccess s (moveToReg rm v u)) (drawn : u = s ∨ u = s.afterDraw)
    (bits : v &&& known = w &&& known) :
    ∃ t, exec i s = .next t ∧ MovedToReg rm known w s t :=
  ⟨(u.setReg rm v).undefineStatus, run.trans (debugAccess_of_may may _), movedToReg_undefineStatus drawn bits⟩

/-- A move to a debug register that leaves `u` completes past the checks (R260, R264), where `u` differs from
`s` neither in the flags nor in memory. -/
theorem moveToDebug_completes {i : Instr} {s u : State} (may : MayAccessDebug s)
    (run : exec i s = debugAccess s (moveDone u)) (eflags : u.eflags = s.eflags) (mem : u.mem = s.mem)
    (platform : u.platform = s.platform) : ∃ t, exec i s = .next t ∧ MovedToSpecial u s t :=
  ⟨u.undefineStatus, run.trans (debugAccess_of_may may _), movedToSpecial_undefineStatus eflags mem platform⟩

/-- Settles O31: each of the four reads the register itself and draws no value for it. -/
theorem movesFromBreakpointAddressRegisters : Obligations.MovesFromBreakpointAddressRegisters := by
  intro p rm s
  refine ⟨⟨debugGuarded_of_debugAccess rfl, debugGuarded_of_debugAccess rfl, debugGuarded_of_debugAccess rfl,
    debugGuarded_of_debugAccess rfl⟩, fun may => ⟨?_, ?_, ?_, ?_⟩⟩
  · exact moveFromDebug_completes may rfl (.inl rfl) rfl
  · exact moveFromDebug_completes may rfl (.inl rfl) rfl
  · exact moveFromDebug_completes may rfl (.inl rfl) rfl
  · exact moveFromDebug_completes may rfl (.inl rfl) rfl

/-- Settles O32: `readDr6` and `readDr7` take the defined bits from the register. -/
theorem movesFromDebugStatusAndControl : Obligations.MovesFromDebugStatusAndControl := by
  intro p rm s
  refine ⟨⟨debugGuarded_of_debugAccess rfl, debugGuarded_of_debugAccess rfl⟩, fun may => ⟨?_, ?_⟩⟩
  · have bits : readDr6 s &&& dr6Defined = s.dr6 &&& dr6Defined := insertBits_and_mask _ _ _
    exact moveFromDebug_completes may rfl (.inr rfl) bits
  · have bits : readDr7 s &&& dr7Defined = s.dr7 &&& dr7Defined := insertBits_and_mask _ _ _
    exact moveFromDebug_completes may rfl (.inr rfl) bits

/-- Settles O33: each of the four writes its register alone, before the flags are drawn. -/
theorem movesToBreakpointAddressRegisters : Obligations.MovesToBreakpointAddressRegisters := by
  intro p rm s
  refine ⟨⟨debugGuarded_of_debugAccess rfl, debugGuarded_of_debugAccess rfl, debugGuarded_of_debugAccess rfl,
    debugGuarded_of_debugAccess rfl⟩, fun may => ⟨?_, ?_, ?_, ?_⟩⟩
  · exact moveToDebug_completes may rfl rfl rfl rfl
  · exact moveToDebug_completes may rfl rfl rfl rfl
  · exact moveToDebug_completes may rfl rfl rfl rfl
  · exact moveToDebug_completes may rfl rfl rfl rfl

end Sys2Proof.Machine
end

section
/-!
Precision: a step that a fault ends leaves the registers as they were. The step is the fetch or the rule that
raised the fault; neither has written a register by then, and memory only where the page tables are marked.
-/

namespace Sys2Proof.Machine

/-- `t` is `s` after a fault was taken in it: a page fault loads CR2, a debug exception writes DR6 and DR7, any
other writes no register but EFLAGS (R305, R330). -/
inductive Raises (s t : State) : Prop where
  | plain (x : Exc) (e : ErrorCode) (eq : t = takeException x .fault e s)
  | page (la : Word) (e : ErrorCode) (eq : t = takeException .pf .fault e { s with cr2 := la })
  | debug (b : Word) (eq : t = debugException .fault b s)

theorem MemoryTrap.raises {s t : State} (h : MemoryTrap s t) : ∃ u, Touched s u ∧ Raises u t := by
  obtain ⟨x, e, u, touched, ⟨rfl, la, eq⟩ | ⟨-, eq⟩⟩ := h.ex
  · exact ⟨u, touched, .page la e eq⟩
  · exact ⟨u, touched, .plain x e eq⟩

theorem FetchTrap.raises {s t : State} (h : FetchTrap s t) : ∃ u, Touched s u ∧ Raises u t := by
  cases h with
  | memory trap => exact trap.raises
  | lock u walked eq => exact ⟨u, walked.touched, .plain _ _ eq⟩
  | breakpoint b u _ walked eq => exact ⟨u, walked.touched, .debug b eq⟩

theorem ExecTrap.raises {s t : State} (h : ExecTrap s t) : ∃ u, Touched s u ∧ Raises u t := by
  cases h with
  | gp _ eq | nm _ eq => exact ⟨s, .refl s, .plain _ _ eq⟩
  | gd _ _ eq => exact ⟨s, .refl s, .debug _ eq⟩
  | memory trap => exact trap.raises

/-- An instruction that starts in a running state and ends with an exception has raised it. -/
theorem exec_raises {i : Instr} {s t : State} (running : s.trapped = none) (trapped : t.trapped.isSome = true)
    (h : exec i s = .next t) : ExecTrap s t := by
  rcases exec_cases h with trap | ⟨-, done⟩
  · exact trap
  · rw [done.systemWrites.trapped, running] at trapped
    cases trapped

/-- After an instruction's rule an exception is the rule's own, or the debug trap of the end of the step, which
leaves nothing pending (R333). -/
theorem afterRule_trapped {tf : Bool} {len : Nat} {o : Out} {t : State} {x : Trap}
    (h : afterRule tf len o = .next t) (trapped : t.trapped = some x) :
    o = .next t ∨ (x = { exc := .db, cls := .trap, err := .none } ∧ t.pendingDb = 0) := by
  cases o with
  | fault f => cases h
  | refused r => cases h
  | next v =>
    cases before : v.trapped with
    | some y => exact .inl (by rwa [afterRule_of_trapped tf len (by rw [before]; rfl)] at h)
    | none =>
      rw [afterRule_of_running tf len before, complete] at h
      split at h
      · cases h
      · cases h
        rcases reportTraps_cases tf { v with eip := v.eip + BitVec.ofNat 32 len } with ⟨-, eq⟩ | eq
        · rw [eq, clearRf_trapped, before] at trapped
          cases trapped
        · rw [eq] at trapped ⊢
          cases trapped
          exact .inr ⟨rfl, rfl⟩

/-- Where the exception that ends a step comes from: the fetch, the rule of the instruction fetched, or the
report of the debug traps (R16). -/
theorem step_trapped {s t : State} {x : Trap} (h : step s = .next t) (trapped : t.trapped = some x) :
    fetchInstr maxInstrBytes [] s = .stop (.next t) ∨
      (∃ i u, fetchInstr maxInstrBytes [] s = .ok i u ∧ exec i u = .next t) ∨
        (x = { exc := .db, cls := .trap, err := .none } ∧ t.pendingDb = 0) := by
  obtain ⟨running, -⟩ := step_cases h
  rcases step_memory h with stopped | ⟨i, u, _, fetched, -⟩
  · exact .inl stopped
  · rw [step_of_fetch running fetched] at h
    exact .inr ((afterRule_trapped h trapped).imp_left fun ran => ⟨i, u, fetched, ran⟩)

/-- A store that raises an exception has not reached its bytes (R140). -/
theorem memWrite_stop_marks {las : Word → Prop} {len : Nat} {r : SegReg} {off : Word} {bs : List Byte}
    {s t : State} (hn : 1 ≤ bs.length) (hl : ∀ a ∈ span ((s.seg.get r).base + off) bs.length, las a)
    (h : memWrite len r off bs s = .stop (.next t)) : Marks las true s t := by
  have segment := segTranslate_marks (las := las) (d := true) r off bs.length .write s
  rcases bind_eq_stop h with h | ⟨la, u, translated, h⟩
  · rwa [h] at segment
  obtain ⟨rfl, rfl⟩ := segTranslate_ok translated
  have checks := dataBreakpoints_marks (las := las) (d := true) .write ((u.seg.get r).base + off) bs.length u
  rcases bind_eq_stop h with h | ⟨_, w, checked, h⟩
  · rwa [h] at checks
  rw [checked] at checks
  have pages := linTranslate_marks (d := true) (s := w) (acc := operandAccess .write w) hl hn fun _ => rfl
  rcases bind_eq_stop h with h | ⟨pas, v, -, h⟩
  · rw [h] at pages
    exact checks.trans pages
  · split at h
    · cases h
    · exact absurd h (physWriteBytes_ne_next _ _ _)

/-- An instruction that raises an exception changes memory by marks in the page tables alone: SMSW has not
stored (R352). -/
theorem exec_trapped_memory {i : Instr} {s t : State} (running : s.trapped = none)
    (trapped : t.trapped.isSome = true) (h : exec i s = .next t) : TablesMarked (fun _ => True) true s t := by
  rcases exec_memory h with tables | ⟨p, m, rfl, -⟩
  · exact tables
  · rcases thenOut_cases h with stopped | ⟨_, v, stored, eq⟩
    · have nonempty : 1 ≤ (leBytes 2 (readMsw s).toNat).length := by rw [length_leBytes]; decide
      exact ((afterDraw_marks s).trans (memWrite_stop_marks nonempty (fun _ _ => trivial) stopped)).marked
    · cases eq
      have touched := memWrite_checked (groupLength p (.mem m)) (operandSegment p m) (effectiveAddress m s)
        (leBytes 2 (readMsw s).toNat) s.afterDraw
      rw [stored] at touched
      have kept : t.trapped = s.trapped := by rw [Touched.eq touched]; rfl
      rw [kept, running] at trapped
      cases trapped

/-- The exception that ends a step is a fault, raised in a state that the memory path alone has touched (R352),
or the report of the debug traps (R333). -/
theorem step_raises {s t : State} {x : Trap} (h : step s = .next t) (trapped : t.trapped = some x) :
    (∃ u, Touched s u ∧ Raises u t ∧ TablesMarked (fun _ => True) true s t) ∨
      (x = { exc := .db, cls := .trap, err := .none } ∧ t.pendingDb = 0) := by
  have marks := fetchInstr_marks (las := fun _ => True) (d := true) (fuel := maxInstrBytes) (bytes := [])
    (s := s) fun _ => trivial
  have fetches := fetchInstr_fetches maxInstrBytes [] s
  rcases step_trapped h trapped with stopped | ⟨i, u, fetched, ran⟩ | reported
  · rw [stopped] at marks fetches
    obtain ⟨u, touched, raises⟩ := FetchTrap.raises fetches
    exact .inl ⟨u, touched, raises, marks.marked⟩
  · rw [fetched] at marks fetches
    have walked : Walked s u := fetches
    have running : u.trapped = none := by rw [walked.eq]; exact (step_cases h).1.1
    have some : t.trapped.isSome = true := by rw [trapped]; rfl
    obtain ⟨v, touched, raises⟩ := (exec_raises running some ran).raises
    exact .inl ⟨v, walked.touched.trans touched, raises,
      Marks.tablesMarked marks (exec_trapped_memory running some ran)⟩
  · exact .inr reported

/-- A fault is a fault, and nothing is pending after it (R324). -/
theorem Raises.trapped {s t : State} {x : Trap} (h : Raises s t) (trapped : t.trapped = some x) :
    x.cls = .fault ∧ t.pendingDb = 0 := by
  cases h with
  | plain _ _ eq | page _ _ eq | debug _ eq =>
    rw [eq] at trapped ⊢
    cases trapped
    exact ⟨rfl, rfl⟩

/-- Settles O56: `step_raises`, and what each kind of fault writes of the state it is raised in. -/
theorem faultsArePrecise : Obligations.FaultsArePrecise := by
  intro s t x h trapped
  rcases step_raises h trapped with ⟨u, touched, raises, tables⟩ | ⟨rfl, pending⟩
  · obtain ⟨fault, pending⟩ := raises.trapped trapped
    refine ⟨fun _ => ?_, pending, fun trap => by rw [fault] at trap; cases trap⟩
    have memory : s.pg = false → SameMemory s t := tables.sameMemory
    have before := touched.eq
    cases raises with
    | plain _ _ eq =>
      rw [before] at eq
      rw [eq] at memory ⊢
      exact ⟨rfl, rfl, rfl, rfl, ⟨rfl, rfl, rfl, rfl⟩, rfl, rfl, fun _ => rfl, fun _ => ⟨rfl, rfl⟩, memory⟩
    | page la e eq =>
      have page : x.exc = .pf := by rw [eq] at trapped; cases trapped; rfl
      rw [before] at eq
      rw [eq] at memory ⊢
      exact ⟨rfl, rfl, rfl, rfl, ⟨rfl, rfl, rfl, rfl⟩, rfl, rfl, fun other => absurd page other,
        fun _ => ⟨rfl, rfl⟩, memory⟩
    | debug b eq =>
      have debug : x.exc = .db := by rw [eq] at trapped; cases trapped; rfl
      rw [before] at eq
      rw [eq] at memory ⊢
      exact ⟨rfl, rfl, rfl, rfl, ⟨rfl, rfl, rfl, rfl⟩, rfl, rfl, fun _ => rfl,
        fun other => absurd debug other, memory⟩
  · exact ⟨nofun, pending, fun _ => ⟨rfl, rfl⟩⟩

end Sys2Proof.Machine
end

section
/-!
The data breakpoint check of an operand as one equation: which breakpoints hit, as a mask of B0 to B3, and what
the check answers for that mask.
-/

namespace Sys2Proof.Machine

/-- Breakpoint `i` is enabled and its condition occurs, as the check computes it (R321, R324). -/
def dataHit (s : State) (k : AccessKind) (bytes : List Word) (i : Fin 4) : Bool :=
  enabledIn s.dr7 i &&
    match dataCond s.dr7 (s.breakpoint i) i k bytes with
    | .ok hit => hit
    | .error _ => false

/-- The mask with bit `i` set for each breakpoint `i` of a set. -/
def hitMask (hit : Fin 4 → Bool) : Word :=
  (if hit 0 then bitMask 0 else 0) ||| (if hit 1 then bitMask 1 else 0) |||
    (if hit 2 then bitMask 2 else 0) ||| (if hit 3 then bitMask 3 else 0)

theorem getLsbD_hitMask (hit : Fin 4 → Bool) (j : Nat) :
    (hitMask hit).getLsbD j = true ↔ ∃ i : Fin 4, i.val = j ∧ hit i = true := by
  have bit : ∀ i : Fin 4, (if hit i then bitMask i.val else 0).getLsbD j = true ↔ i.val = j ∧ hit i = true := by
    intro i
    split
    · rename_i set
      rw [getLsbD_bitMask (by omega), decide_eq_true_eq, eq_comm, and_iff_left set]
    · rename_i clear
      simp [clear]
  simp only [hitMask, BitVec.getLsbD_or, Bool.or_eq_true, Fin.exists_fin_succ, or_assoc]
  exact or_congr (bit 0) (or_congr (bit 1) (or_congr (bit 2) ((bit 3).trans (by simp))))

/-- The four values of a field RW or LEN (R50, R51). -/
theorem twoBits_cases : ∀ x : BitVec 2, x = 0 ∨ x = 1 ∨ x = 2 ∨ x = 3 := by decide

/-- A defined length has a field (R56). -/
theorem bpField_defined {len : BitVec 2} (defined : len ≠ 2) (dr : Word) :
    ∃ field, bpField len dr = some field := by
  rcases twoBits_cases len with rfl | rfl | rfl | rfl
  · exact ⟨_, rfl⟩
  · exact ⟨_, rfl⟩
  · exact absurd rfl defined
  · exact ⟨_, rfl⟩

/-- Where RW and LEN are defined, the condition of a data access is decided: RW names the access, and a byte of
it lies in the breakpoint's field (R321). -/
theorem dataCond_defined {dr7 : Word} {i : Fin 4} (dr : Word) (k : AccessKind) (bytes : List Word)
    (rw : rwIn dr7 i ≠ 2) (len : lenIn dr7 i ≠ 2) :
    ∃ hit, dataCond dr7 dr i k bytes = .ok hit ∧
      (hit = true ↔ (rwIn dr7 i = 1 ∧ k = .write ∨ rwIn dr7 i = 3) ∧
        ∃ field, bpField (lenIn dr7 i) dr = some field ∧ ∃ a ∈ bytes, a ∈ field) := by
  obtain ⟨field, eq⟩ := bpField_defined len dr
  unfold dataCond
  rw [eq]
  rcases twoBits_cases (rwIn dr7 i) with value | value | value | value
  · exact ⟨false, by simp [value], by simp [value]⟩
  · by_cases write : k = .write
    · exact ⟨bytes.any fun b => field.contains b, by simp [value, write], by simp [value, write]⟩
    · exact ⟨false, by simp [value, write], by simp [value, write]⟩
  · exact absurd value rw
  · exact ⟨bytes.any fun b => field.contains b, by simp [value], by simp [value]⟩

/-- The check of one breakpoint, where its RW and LEN are defined (R324, R325). -/
theorem dataBreakpoint_defined {s : State} (k : AccessKind) (bytes : List Word) {i : Fin 4}
    (defined : enabledIn s.dr7 i = true → rwIn s.dr7 i ≠ 2 ∧ lenIn s.dr7 i ≠ 2) :
    dataBreakpoint k bytes i s =
      if dataHit s k bytes i then
        if s.exact then .ok () { s with pendingDb := s.pendingDb ||| bitMask i.val }
        else .stop (.refused .inexactDataBreakpoint)
      else .ok () s := by
  by_cases enabled : enabledIn s.dr7 i = true
  · obtain ⟨rw, len⟩ := defined enabled
    obtain ⟨hit, eq, -⟩ := dataCond_defined (s.breakpoint i) k bytes rw len
    cases hit <;> simp [dataBreakpoint, dataHit, enabled, eq]
  · simp [dataBreakpoint, dataHit, enabled]

/-- The hits are those of the specification (R321, R324). -/
theorem dataHit_iff {s : State} (defined : BreakpointsDefined s) (k : AccessKind) (la : Word) (n : Nat)
    (i : Fin 4) : dataHit s k (span la n) i = true ↔ DataBreakpointHit s k la n i := by
  unfold DataBreakpointHit
  by_cases enabled : enabledIn s.dr7 i = true
  · obtain ⟨rw, len⟩ := defined i enabled
    obtain ⟨hit, eq, iff⟩ := dataCond_defined (s.breakpoint i) k (span la n) rw len
    rw [← iff, dataHit, eq, Bool.and_eq_true]
  · simp [dataHit, enabled]

/-- The state with `p` pending. -/
def State.withPending (s : State) (p : Word) : State := { s with pendingDb := p }

/-- With GE or LE set a hit of breakpoint `i` becomes pending (R324, R325); whatever is pending already says
nothing about what hits. -/
theorem dataBreakpoint_exact {s : State} (defined : BreakpointsDefined s) (isExact : s.exact = true)
    (k : AccessKind) (bytes : List Word) (i : Fin 4) (p : Word) :
    dataBreakpoint k bytes i (s.withPending p) =
      .ok () (s.withPending (p ||| if dataHit s k bytes i then bitMask i.val else 0)) := by
  have same : dataHit (s.withPending p) k bytes i = dataHit s k bytes i := rfl
  have stillExact : (s.withPending p).exact = true := isExact
  rw [dataBreakpoint_defined (s := s.withPending p) k bytes (defined i), same, stillExact, if_pos rfl]
  cases dataHit s k bytes i with
  | true => rfl
  | false =>
    rw [if_neg Bool.false_ne_true, if_neg Bool.false_ne_true]
    exact congrArg (fun q => Res.ok () (s.withPending q)) BitVec.or_zero.symm

/-- With GE or LE set every hit becomes pending, and nothing else changes (R324, R325). -/
theorem dataBreakpoints_exact {s : State} (defined : BreakpointsDefined s) (isExact : s.exact = true)
    (k : AccessKind) (la : Word) (n : Nat) :
    dataBreakpoints k la n s =
      .ok () (s.withPending (s.pendingDb ||| hitMask (dataHit s k (span la n)))) := by
  have one := dataBreakpoint_exact defined isExact k (span la n)
  change dataBreakpoints k la n (s.withPending s.pendingDb) = _
  rw [dataBreakpoints, one, bind_ok, one, bind_ok, one, bind_ok, one]
  simp only [hitMask, BitVec.or_assoc]
  rfl

/-- With GE and LE clear a hit is refused, and where there is none nothing changes (R325). -/
theorem dataBreakpoints_inexact {s : State} (defined : BreakpointsDefined s) (inexact : s.exact = false)
    (k : AccessKind) (la : Word) (n : Nat) :
    dataBreakpoints k la n s =
      if ∃ i, dataHit s k (span la n) i = true then .stop (.refused .inexactDataBreakpoint) else .ok () s := by
  have one : ∀ i, dataBreakpoint k (span la n) i s =
      if dataHit s k (span la n) i then .stop (.refused .inexactDataBreakpoint) else .ok () s := by
    intro i
    rw [dataBreakpoint_defined k (span la n) (defined i), inexact]
    rfl
  rw [dataBreakpoints, one]
  by_cases hit0 : dataHit s k (span la n) 0 = true
  · rw [if_pos hit0, bind_stop, if_pos ⟨0, hit0⟩]
  rw [if_neg hit0, bind_ok, one]
  by_cases hit1 : dataHit s k (span la n) 1 = true
  · rw [if_pos hit1, bind_stop, if_pos ⟨1, hit1⟩]
  rw [if_neg hit1, bind_ok, one]
  by_cases hit2 : dataHit s k (span la n) 2 = true
  · rw [if_pos hit2, bind_stop, if_pos ⟨2, hit2⟩]
  rw [if_neg hit2, bind_ok, one]
  simp [Fin.exists_fin_succ, hit0, hit1, hit2]

/-- Settles O49: the hits are `dataHit_iff`, what becomes of them are `dataBreakpoints_exact` and
`dataBreakpoints_inexact`. -/
theorem dataBreakpointsAreRecorded : Obligations.DataBreakpointsAreRecorded := by
  intro s k la n _ defined
  have hits := dataHit_iff defined k la n
  refine ⟨fun isExact => ?_, fun inexact => ?_⟩
  · have pending : ∀ j, (s.pendingDb ||| hitMask (dataHit s k (span la n))).getLsbD j = true ↔
        s.pendingDb.getLsbD j = true ∨ ∃ i : Fin 4, i.val = j ∧ DataBreakpointHit s k la n i := fun j => by
      simp only [BitVec.getLsbD_or, Bool.or_eq_true, getLsbD_hitMask, hits]
    refine ⟨_, dataBreakpoints_exact defined isExact k la n, rfl, fun i => ?_, fun j high => ?_⟩
    · refine (pending i.val).trans (or_congr_right ⟨fun ⟨j, same, hit⟩ => ?_, fun hit => ⟨i, rfl, hit⟩⟩)
      rwa [← Fin.ext same]
    · refine Bool.eq_iff_iff.2 ((pending j).trans (or_iff_left fun ⟨i, same, _⟩ => ?_))
      omega
  · have checked := dataBreakpoints_inexact defined inexact k la n
    refine ⟨fun ⟨i, hit⟩ => ?_, fun none => ?_⟩
    · rw [checked, if_pos ⟨i, (hits i).2 hit⟩]
    · rw [checked, if_neg fun ⟨i, hit⟩ => none i ((hits i).1 hit)]

end Sys2Proof.Machine
end

section
/-!
The end of a step, the states no step leaves, ESC, and the effects of a task switch.
-/

namespace Sys2Proof.Machine

/-- A word holds every bit of another. -/
theorem and_eq_right_of_bits {a b : Word} (h : ∀ j, b.getLsbD j = true → a.getLsbD j = true) : a &&& b = b := by
  apply BitVec.eq_of_getLsbD_eq
  intro j _
  rw [BitVec.getLsbD_and]
  cases bit : b.getLsbD j
  · exact Bool.and_false _
  · rw [h j bit, Bool.and_true]

/-- What is pending is among what is reported (R333). -/
theorem getLsbD_trapConditions_of_pending (tf : Bool) {s : State} {j : Nat}
    (pending : s.pendingDb.getLsbD j = true) : (trapConditions tf s).getLsbD j = true := by
  cases tf with
  | false => exact pending
  | true => rw [trapConditions, if_pos rfl, BitVec.getLsbD_or, pending, Bool.true_or]

/-- Single step is reported at BS (R328, R333). -/
theorem getLsbD_trapConditions_bs (s : State) : (trapConditions true s).getLsbD 14 = true := by
  rw [trapConditions, if_pos rfl, BitVec.getLsbD_or, Bool.or_eq_true]
  exact .inr rfl

/-- There is nothing to report exactly where nothing is pending and the instruction did not start with TF set
(R333). -/
theorem trapConditions_eq_zero_iff (tf : Bool) (s : State) :
    trapConditions tf s = 0 ↔ tf = false ∧ s.pendingDb = 0 := by
  cases tf with
  | false => exact ⟨fun none => ⟨rfl, none⟩, And.right⟩
  | true =>
    refine ⟨fun none => ?_, nofun⟩
    have bs := getLsbD_trapConditions_bs s
    rw [none] at bs
    cases bs

/-- A mask clears the bits it names. -/
theorem getLsbD_and_not_of_mask (a : Word) {mask : Word} {j : Nat} (h : mask.getLsbD j = true) :
    (a &&& ~~~mask).getLsbD j = false := by
  rw [getLsbD_and_not, h, Bool.not_true, Bool.and_false]

/-- Settles O13: the two ways of `reportTraps_cases`, told apart by `trapConditions_eq_zero_iff`. -/
theorem debugTrapsAreReportedAtTheEnd : Obligations.DebugTrapsAreReportedAtTheEnd := by
  intro tf s
  have none := trapConditions_eq_zero_iff tf s
  refine ⟨fun nothing => if_pos (none.2 nothing), fun something => ?_⟩
  rcases reportTraps_cases tf s with ⟨zero, -⟩ | eq
  · obtain ⟨rfl, zero⟩ := none.1 zero
    exact absurd zero (something.resolve_left nofun)
  · have bits : ∀ j, (trapConditions tf s).getLsbD j = true → (reportTraps tf s).dr6.getLsbD j = true := by
      intro j set
      rw [eq, getLsbD_debugException_dr6, BitVec.getLsbD_or, set, Bool.or_true, Bool.true_or]
    have pending := and_eq_right_of_bits fun j set => bits j (getLsbD_trapConditions_of_pending tf set)
    have single : tf = true → (reportTraps tf s).dr6.getLsbD 14 = true := by
      rintro rfl
      exact bits 14 (getLsbD_trapConditions_bs s)
    have rf : (s.eflags &&& ~~~rfMask &&& ~~~tfMask).getLsbD 16 = false := by
      rw [getLsbD_and_not, getLsbD_and_not_of_mask _ rfl, Bool.false_and]
    refine ⟨?_, pending, single, ?_⟩
    · rw [eq]
      rfl
    · rw [eq]
      exact ⟨rfl, rf, getLsbD_and_not_of_mask _ rfl, getLsbD_and_not_of_mask _ rfl, rfl⟩

/-- Settles O16. -/
theorem stepStopsWhereTheMachineDoesNotRun : Obligations.StepStopsWhereTheMachineDoesNotRun := by
  refine ⟨fun s x trapped => ?_, fun s running pe vm => ?_⟩
  · rw [step, trapped]
  · rw [step, running, pe, vm]
    rfl

/-- Settles O36: ESC tests EM alone. -/
theorem coprocessorOpcodeNeedsEmulation : Obligations.CoprocessorOpcodeNeedsEmulation := by
  intro p low s
  refine ⟨fun em => ?_, fun em => ?_⟩
  · exact if_pos em
  · exact if_neg (Bool.eq_false_iff.1 em)

/-- Settles O51: TS is bit 3 of CR0; the masks of DR7 and of BT are the definition's. -/
theorem taskSwitchEffectsOnRegisters : Obligations.TaskSwitchEffectsOnRegisters := by
  intro b s
  exact ⟨rfl, rfl, rfl, rfl, rfl⟩

end Sys2Proof.Machine
end
